-- ==== Sys2Proof/Word.lean ====
section
/-! DEFINITION. The widths of the block's values (spec/00_scope.md rules R8, R9; 10_state.md rule R23)
and the encoding variant (00_scope.md rule R2). -/

namespace Sys2Proof

/-- The host data word and the command word (R8 `BUS_WIDTH`, R90). -/
abbrev Word := BitVec 32

/-- One buffer entry, one character code, one payload byte (R8 `ENTRY_WIDTH`, R13). -/
abbrev Byte := BitVec 8

/-- A 5-bit value, an element of GF(32) (R15 "u5"). -/
abbrev Symbol := BitVec 5

/-- The polymod accumulator (R8 `ACC_WIDTH`, R131). -/
abbrev Acc := BitVec 30

/-- A length field (R8 `LEN_WIDTH`). -/
abbrev Len := BitVec 9

/-- A byte offset into the host window (R60: 0 to 0xFFF). -/
abbrev Offset := BitVec 12

/-- The encoding variant (R2). `invalid` means that no checksum variant matched. -/
inductive Variant where
  | invalid
  | bech32
  | bech32m
deriving DecidableEq, Repr

end Sys2Proof
end

