-- ==== Sys2Proof/Config.lean ====
section
/-! DEFINITION. What the spec leaves to the implementation: the OPEN parameters of
spec/00_scope.md rule R8 and 92_eei_decisions.md. Each is a constant without a body, so that nothing
can be proved that depends on its value. -/

namespace Sys2Proof.Config

/-- `LATENCY` (R285): how many host steps pass between the `n`-th accepted CMD write and its completion
step. A FREE VALUE: any natural number, another one for every command (log entry 2). -/
opaque latency : Nat → Nat

/-- `WINDOW_BASE` (R60) in units of 4 KiB, so that the base is 4 KiB aligned. Open; no rule depends on
it (log entry 14). -/
opaque windowPage : Nat

/-- The host address of the window's first byte (R60). -/
def windowBase : Nat := 4096 * windowPage

/-- The host address of a byte offset of the window (R60, R62). -/
def hostAddress (a : Offset) : Nat := windowBase + a.toNat

end Sys2Proof.Config
end

