-- ==== Sys2Proof/Syntax.lean ====
section
/-! DEFINITION. The six commands, one constructor per row of spec/opcode_table.json
(30_encoding.md rules R92, R100). -/

namespace Sys2Proof

/-- A command with its operand fields as the command word carries them (R93 to R97). The field values
a legal word may hold are `Instr.wellFormed`'s matter. -/
inductive Instr where
  /-- POLYMOD, format N (`41_polymod.md` R135). -/
  | polymod
  /-- CKGEN, format E: `enc` is the variant the ENC field names (R94, `42_checksum.md` R155). -/
  | ckgen (enc : Variant)
  /-- CKVER, format N (`42_checksum.md` R160). -/
  | ckver
  /-- CONVERT, format C: the bit counts FROM and TO and the PAD bit (R96, `43_regroup.md` R183). -/
  | convert (fromBits toBits : BitVec 4) (pad : Bool)
  /-- LUTENC, format V: `v` is OPND (R97, `40_alphabet.md` R113). -/
  | lutenc (v : Byte)
  /-- LUTDEC, format V: `ch` is OPND (R97, `40_alphabet.md` R115). -/
  | lutdec (ch : Byte)
deriving DecidableEq, Repr

end Sys2Proof
end

