-- ==== Sys2Proof/WellFormed.lean ====
section
/-! DEFINITION. The field values a legal command word may hold
(spec/30_encoding.md rules R94, R96, R97, R99). -/

namespace Sys2Proof

/-- A legal regrouping width: 1 to 8 (R96). -/
def legalWidth (n : BitVec 4) : Bool := decide (1 ≤ n.toNat) && decide (n.toNat ≤ 8)

/-- The field constraints of R99: ENC names Bech32 or Bech32m, FROM and TO are 1 to 8, every OPND is
legal. -/
def Instr.wellFormed : Instr → Bool
  | .polymod => true
  | .ckgen enc => decide (enc ≠ .invalid)
  | .ckver => true
  | .convert f t _ => legalWidth f && legalWidth t
  | .lutenc _ => true
  | .lutdec _ => true

end Sys2Proof
end

