-- ==== Sys2Proof/Decode.lean ====
section
/-! DEFINITION. The decoder of command words, total on every 32-bit word, and the encoder, both from
spec/30_encoding.md rules R91 to R100. -/

namespace Sys2Proof

/-- Why a word is not one of the six commands (R99). The machine treats them all alike (R246). -/
inductive Reject where
  /-- `OP` is 0 or 7 to 15 (R92). -/
  | reservedOpcode
  /-- A must-be-zero bit of the format is set (R91). -/
  | reservedBits
  /-- ENC is 0 or 3 (R94). -/
  | reservedVariant
  /-- FROM or TO is outside 1 to 8 (R96). -/
  | illegalWidth
deriving DecidableEq, Repr

/-- `OP = w[3:0]` (R92). -/
def opField (w : Word) : BitVec 4 := w.extractLsb' 0 4

/-- `ENC = w[5:4]` (R94). -/
def encField (w : Word) : BitVec 2 := w.extractLsb' 4 2

/-- `PAD = w[4]` (R96). -/
def padField (w : Word) : Bool := w.getLsbD 4

/-- `FROM = w[11:8]` (R96). -/
def fromField (w : Word) : BitVec 4 := w.extractLsb' 8 4

/-- `TO = w[15:12]` (R96). -/
def toField (w : Word) : BitVec 4 := w.extractLsb' 12 4

/-- `OPND = w[15:8]` (R97). -/
def opndField (w : Word) : Byte := w.extractLsb' 8 8

/-- Bits [hi:lo] of the word are all zero. -/
def zeroBits (w : Word) (hi lo : Nat) : Bool := w.extractLsb' lo (hi - lo + 1) == 0

/-- Format N: bits [31:4] are zero (R91, R99). -/
def decodeN (w : Word) (i : Instr) : Except Reject Instr :=
  if zeroBits w 31 4 then .ok i else .error .reservedBits

/-- Format E: bits [31:6] are zero, ENC is 1 (Bech32) or 2 (Bech32m) (R91, R94, R95, R99). -/
def decodeE (w : Word) : Except Reject Instr :=
  if zeroBits w 31 6 then
    match (encField w).toNat with
    | 1 => .ok (.ckgen .bech32)
    | 2 => .ok (.ckgen .bech32m)
    | _ => .error .reservedVariant
  else .error .reservedBits

/-- Format C: bits [31:16] and [7:5] are zero, FROM and TO are 1 to 8 (R91, R96, R99). -/
def decodeC (w : Word) : Except Reject Instr :=
  if zeroBits w 31 16 && zeroBits w 7 5 then
    if legalWidth (fromField w) && legalWidth (toField w) then
      .ok (.convert (fromField w) (toField w) (padField w))
    else .error .illegalWidth
  else .error .reservedBits

/-- Format V: bits [31:16] and [7:4] are zero (R91, R97, R99). -/
def decodeV (w : Word) (mk : Byte → Instr) : Except Reject Instr :=
  if zeroBits w 31 16 && zeroBits w 7 4 then .ok (mk (opndField w)) else .error .reservedBits

/-- The decoding function of R100, total on every 32-bit word. -/
def decode (w : Word) : Except Reject Instr :=
  match (opField w).toNat with
  | 1 => decodeN w .polymod
  | 2 => decodeE w
  | 3 => decodeN w .ckver
  | 4 => decodeC w
  | 5 => decodeV w .lutenc
  | 6 => decodeV w .lutdec
  | _ => .error .reservedOpcode

/-- The 2-bit variant code of R95, used in the ENC field and in STATUS.VARIANT. -/
def Variant.code : Variant → BitVec 2
  | .invalid => 0
  | .bech32 => 1
  | .bech32m => 2

/-- The `OP` field of a command (R92). -/
def Instr.opcode : Instr → BitVec 4
  | .polymod => 1
  | .ckgen _ => 2
  | .ckver => 3
  | .convert _ _ _ => 4
  | .lutenc _ => 5
  | .lutdec _ => 6

/-- The command word of an instruction, written as the bit patterns of R91 from the most significant
bit down. -/
def encode (i : Instr) : Word :=
  match i with
  | .polymod => 0#28 ++ i.opcode
  | .ckgen enc => 0#26 ++ enc.code ++ i.opcode
  | .ckver => 0#28 ++ i.opcode
  | .convert f t pad => 0#16 ++ t ++ f ++ 0#3 ++ BitVec.ofBool pad ++ i.opcode
  | .lutenc v => 0#16 ++ v ++ 0#4 ++ i.opcode
  | .lutdec ch => 0#16 ++ ch ++ 0#4 ++ i.opcode

/-- The command word of `nbits` bits with number `w`: the bits above `nbits` are zero. A command is one
word (R90). -/
def tableWord (nbits w : Nat) : Word := BitVec.ofNat 32 (w % 2 ^ nbits)

/-- What the decoder reads from a word numbered as spec/opcode_table.json numbers it (none where it
refuses). -/
def decodeTableWord (nbits w : Nat) : Option Instr :=
  match decode (tableWord nbits w) with
  | .ok i => some i
  | .error _ => none

end Sys2Proof
end

