-- ==== Sys2Proof/Machine/State.lean ====
section
/-! DEFINITION. The state of the block, all of it plain data (spec/10_state.md), with the host's remaining
operations (20_memory.md rules R60 to R66) and the reasons a step can stop. -/

namespace Sys2Proof.Machine

/-- The result code of a command (60_exceptions.md R240). Codes 7 to 15 are never produced. -/
inductive ErrCode where
  | ok
  | invalidCharacter
  | checksumMismatch
  | invalidPadding
  | invalidValue
  | badLength
  | illegalCommand
deriving DecidableEq, Repr

/-- The three buffers (R34, R35, R37). -/
inductive Buf where
  | hbuf
  | vbuf
  | obuf
deriving DecidableEq, Repr

/-- The seven registers of the host window (R23). -/
inductive Reg where
  | cmd
  | status
  | hlen
  | vlen
  | olen
  | acc
  | lutr
deriving DecidableEq, Repr

/-- What lies at a word of the host window (20_memory.md R62). -/
inductive Target where
  | reg (r : Reg)
  | entry (b : Buf) (i : BitVec 8)
  | unmapped
deriving DecidableEq, Repr

/-- One operation of the host or of the platform, as the model's input list holds it (log entry 1). -/
inductive HostOp where
  /-- `MemRead(a, width)` (R60). -/
  | read (a : Offset) (width : Nat)
  /-- `MemWrite(a, width, w)` (R60). -/
  | write (a : Offset) (width : Nat) (w : Word)
  /-- The pseudo-instruction `poll` of R102: STATUS is read until BUSY is 0 (log entry 13). -/
  | poll
  /-- The platform's reset event (70_reset_and_hazards.md R270; log entry 12). -/
  | reset
deriving DecidableEq, Repr

/-- The buffers' entries by their byte offset in the window, offsets strictly rising. An entry that is
not listed has a clear written mark and holds no value (R36, R62; log entry 4). -/
abbrev Memory := List Host.Cell

/-- The machine's state. -/
structure State where
  /-- PCMD, the pending-command latch; it is full exactly when STATUS.BUSY is 1 (R38; log entry 8). -/
  pcmd : Option Word
  /-- STATUS.ERR (R25). -/
  err : ErrCode
  /-- STATUS.VARIANT (R25). -/
  variant : Variant
  /-- HLEN.LEN (R27). -/
  hlen : Len
  /-- VLEN.LEN (R28). -/
  vlen : Len
  /-- OLEN.LEN (R29). -/
  olen : Len
  /-- ACC[29:0] (R30). -/
  acc : Acc
  /-- LUTR[7:0] (R31). -/
  lutr : Byte
  /-- The written entries of HBUF, VBUF and OBUF (R34 to R37). -/
  mem : Memory
  /-- FAULTED (R39). -/
  faulted : Bool
  /-- The host's operations still to come, in program order (the model's own; log entry 1). -/
  host : List HostOp
  /-- The word the host's last MemRead returned (the model's own; log entry 9). -/
  rdata : Option Word
  /-- How many CMD writes were accepted (the model's own counter; log entry 2). -/
  issued : Nat
  /-- How many host steps still pass before the completion step (the model's own; log entry 2). -/
  wait : Nat
deriving DecidableEq, Repr

/-- The state right after reset (R43): STATUS = 0, HLEN = VLEN = OLEN = 0, ACC = 1, LUTR = 0, PCMD empty,
every written mark clear. The model's own fields start empty and zero (log entries 1, 2, 6, 9). -/
def State.reset : State where
  pcmd := none
  err := .ok
  variant := .invalid
  hlen := 0
  vlen := 0
  olen := 0
  acc := 1
  lutr := 0
  mem := []
  faulted := false
  host := []
  rdata := none
  issued := 0
  wait := 0

/-- The reasons of a protocol fault (60_exceptions.md R244). -/
inductive ProtocolReason where
  /-- A transaction that is not 4 bytes wide, or at an offset that is no multiple of 4 (R61). -/
  | badAccess
  /-- A transaction at 0x01C to 0x3FC (R63). -/
  | unmapped
  /-- A host read or a command read of an entry whose written mark is clear (R36, R64). -/
  | unwrittenEntry
  /-- A transaction other than a STATUS read while BUSY = 1 (R280). -/
  | busyAccess
deriving DecidableEq, Repr

/-- Why the machine stops with a fault. Both constructors are SAFE: the run ends, and nothing is claimed
about what the chip does then (93_implementation_defined.md U1 to U6). -/
inductive Fault where
  /-- `raise ProtocolFault(reason)` (R244), by a host transaction or by a command that reads an unwritten
  entry. `final` is the state it leaves: FAULTED is set and nothing else has changed. Safe. -/
  | protocol (reason : ProtocolReason) (final : State)
  /-- A step from a state whose FAULTED is set: no step of either agent is enabled there (R39, R244).
  Raised by `step` alone. Safe. -/
  | halted (final : State)
deriving DecidableEq, Repr

/-- Why the model gives an instruction no meaning. Every command of this block has one, so no step
answers this. Safe. -/
inductive Refusal where
  /-- An instruction whose meaning is not written yet, by its mnemonic. Raised by `exec` alone; no arm
  of it is left. Safe. -/
  | notModelled (mnemonic : String)
deriving DecidableEq, Repr

/-- What a command or a step answers. -/
abbrev Result := Host.Outcome State Fault Refusal

end Sys2Proof.Machine
end

