-- ==== Sys2Proof/Machine/Ops.lean ====
section
/-! DEFINITION. The named operations on the buffers' memory and on the registers, the raising of a protocol
fault and the reset event. -/

namespace Sys2Proof.Machine

/-! ### Memory -/

/-- The canonical form: offsets strictly rising (so no offset is listed twice). -/
abbrev Memory.wf (m : Memory) : Prop := m.Pairwise (fun x y => x.1 < y.1)

/-- The byte at offset `a`, or none where nothing has been written (R36). -/
def Memory.read (m : Memory) (a : Nat) : Option Byte :=
  match m with
  | [] => none
  | (k, v) :: rest => if k = a then some v else Memory.read rest a

/-- Write a byte at offset `a` and set its written mark (R64), keeping the canonical form. -/
def Memory.write (m : Memory) (a : Nat) (b : Byte) : Memory :=
  match m with
  | [] => [(a, b)]
  | (k, v) :: rest =>
    if a < k then (a, b) :: (k, v) :: rest
    else if a = k then (a, b) :: rest
    else (k, v) :: Memory.write rest a b

/-- The byte offset of a buffer's first entry (R62). -/
def Buf.base : Buf → Nat
  | .hbuf => 0x400
  | .vbuf => 0x800
  | .obuf => 0xC00

/-- The byte offset of entry `i` of a buffer (R62). -/
def entryAddr (b : Buf) (i : Nat) : Nat := b.base + 4 * i

/-- Write `vals` to the entries of buffer `b` from index `i` on. -/
def Memory.writeEntries (m : Memory) (b : Buf) (i : Nat) (vals : List Byte) : Memory :=
  match vals with
  | [] => m
  | v :: rest => Memory.writeEntries (m.write (entryAddr b i) v) b (i + 1) rest

/-- Read `n` entries of buffer `b` from index `i` on, in increasing index; none if one of them was never
written (R247 point 3). -/
def Memory.readEntries (m : Memory) (b : Buf) (i n : Nat) : Option (List Byte) :=
  match n with
  | 0 => some []
  | n + 1 =>
    match m.read (entryAddr b i), Memory.readEntries m b (i + 1) n with
    | some v, some rest => some (v :: rest)
    | _, _ => none

/-- The byte of the window's memory at offset `a`. -/
def State.readByte (s : State) (a : Nat) : Option Byte := s.mem.read a

/-- The value of a buffer entry, or none if its written mark is clear (R36). -/
def State.entry (s : State) (b : Buf) (i : Nat) : Option Byte := s.readByte (entryAddr b i)

/-! ### Updates of the state -/

/-- A host write of a buffer entry: the value is stored and its mark set (R64). -/
def State.setEntry (s : State) (b : Buf) (i : Nat) (v : Byte) : State :=
  { s with mem := s.mem.write (entryAddr b i) v }

/-- A command's output: OBUF[0..n) and OLEN (R37, R29). -/
def State.setOutput (s : State) (vals : List Byte) : State :=
  { s with mem := s.mem.writeEntries .obuf 0 vals, olen := BitVec.ofNat 9 vals.length }

/-- ACC (R30). -/
def State.setAcc (s : State) (c : Acc) : State := { s with acc := c }

/-- LUTR (R31). -/
def State.setLutr (s : State) (v : Byte) : State := { s with lutr := v }

/-- STATUS.VARIANT (R25). -/
def State.setVariant (s : State) (v : Variant) : State := { s with variant := v }

/-- HLEN.LEN (R27). -/
def State.setHlen (s : State) (n : Len) : State := { s with hlen := n }

/-- VLEN.LEN (R28). -/
def State.setVlen (s : State) (n : Len) : State := { s with vlen := n }

/-- A CMD write: the word is latched and BUSY becomes 1 (R24). The number of host steps until completion is
the free value LATENCY for this command (R285; log entry 2). -/
def State.latch (s : State) (w : Word) : State :=
  { s with pcmd := some w, wait := Config.latency s.issued, issued := s.issued + 1 }

/-- The end of a command: ERR is written, BUSY cleared, PCMD emptied (R12 `finish`, R243). -/
def State.done (s : State) (code : ErrCode) : State :=
  { s with err := code, pcmd := none, wait := 0 }

/-- FAULTED is set and nothing else changes (R244). -/
def State.markFaulted (s : State) : State := { s with faulted := true }

/-- One host step has been taken: its operation leaves the host's list, and the completion step is one host
step nearer. -/
def State.advance (s : State) : State := { s with host := s.host.tail, wait := s.wait - 1 }

/-- One STATUS read of a poll that found BUSY = 1: the operation stays, the completion step is one host step
nearer (R102). -/
def State.pollAgain (s : State) : State := { s with wait := s.wait - 1 }

/-- The word a MemRead returned. -/
def State.setRdata (s : State) (w : Word) : State := { s with rdata := some w }

/-- The host's operations still to come. -/
def State.setHost (s : State) (ops : List HostOp) : State := { s with host := ops }

/-- A pending command whose completion step is the next step (used to place a command from outside). -/
def State.placeCommand (s : State) (w : Word) : State := { s with pcmd := some w, wait := 0 }

/-- The reset event (R43, R270, R271): every register takes its reset value, a pending command is discarded,
every written mark is cleared; FAULTED is kept (R39). What belongs to the host is kept too (log entry 12). -/
def State.resetEvent (s : State) : State :=
  { State.reset with
    faulted := s.faulted, host := s.host, rdata := s.rdata, issued := s.issued }

/-! ### Ends of a step -/

/-- `finish(code)` (R12): the command completes with its result code. -/
def finish (code : ErrCode) (s : State) : Result := .next (s.done code)

/-- `raise ProtocolFault(reason)` (R244): the one way a step of this block stops. The block has no trap, so
nothing is saved and no handler is entered (R241, R250). -/
def raise (reason : ProtocolReason) (s : State) : Result := .fault (.protocol reason s.markFaulted)

end Sys2Proof.Machine
end

