-- ==== Sys2Proof/Machine/Flags.lean ====
section
/-! DEFINITION. STATUS and its fields, the block's only flags (spec/10_state.md R25, R26;
60_exceptions.md R240), and the registers as the host reads and writes them (R23, 20_memory.md R65). -/

namespace Sys2Proof.Machine

/-- The 4-bit code of a result (R240). -/
def ErrCode.code : ErrCode → BitVec 4
  | .ok => 0
  | .invalidCharacter => 1
  | .checksumMismatch => 2
  | .invalidPadding => 3
  | .invalidValue => 4
  | .badLength => 5
  | .illegalCommand => 6

/-- STATUS.BUSY: a command is pending (R25, R38). -/
def State.busy (s : State) : Bool := s.pcmd.isSome

/-- STATUS as a host read returns it: [0] BUSY, [3:1] zero, [7:4] ERR, [9:8] VARIANT, [31:10] zero (R25). -/
def State.statusWord (s : State) : Word :=
  0#22 ++ s.variant.code ++ s.err.code ++ 0#3 ++ BitVec.ofBool s.busy

/-- `MemRead` of a register: its fields, reserved bits 0; CMD reads 0 (R23, R24, R65). -/
def readReg (r : Reg) (s : State) : Word :=
  match r with
  | .cmd => 0
  | .status => s.statusWord
  | .hlen => s.hlen.setWidth 32
  | .vlen => s.vlen.setWidth 32
  | .olen => s.olen.setWidth 32
  | .acc => s.acc.setWidth 32
  | .lutr => s.lutr.setWidth 32

/-- `MemWrite` of a register: CMD latches a command, HLEN and VLEN store 9 bits, a read-only register ignores
the write (R23, R24, R27, R28, R65). -/
def writeReg (r : Reg) (w : Word) (s : State) : State :=
  match r with
  | .cmd => s.latch w
  | .hlen => s.setHlen (w.setWidth 9)
  | .vlen => s.setVlen (w.setWidth 9)
  | .status => s
  | .olen => s
  | .acc => s
  | .lutr => s

/-- STATUS.ERR of a STATUS word, as a host program reads it: `s[7:4]` (R25, R102). -/
def errBits (w : Word) : BitVec 4 := w.extractLsb' 4 4

/-- STATUS.VARIANT of a STATUS word, as a host program reads it: `s[9:8]` (R25). -/
def variantBits (w : Word) : BitVec 2 := w.extractLsb' 8 2

/-- STATUS.BUSY of a STATUS word: `s[0]` (R25). -/
def busyBit (w : Word) : Bool := w.getLsbD 0

end Sys2Proof.Machine
end

