-- ==== Sys2Proof/Machine/Operands.lean ====
section
/-! DEFINITION. The operand forms of the commands: the two input sequences HBUF[0..HLEN.LEN) and VBUF[0..VLEN.LEN)
(spec/30_encoding.md R93), the range checks on their values (60_exceptions.md R247), and the place of a host
transaction in the window (20_memory.md R61 to R63). -/

namespace Sys2Proof.Machine

/-- `BUF_DEPTH` (R8): the number of entries of each buffer, and the longest legal sequence (R245). -/
def bufDepth : Nat := 256

/-- A length field above 256 (R245). -/
def tooLong (n : Len) : Bool := decide (bufDepth < n.toNat)

/-- HBUF[0..HLEN.LEN), or none if one entry was never written (R34, R36). -/
def State.hrpInput (s : State) : Option (List Byte) := s.mem.readEntries .hbuf 0 s.hlen.toNat

/-- VBUF[0..VLEN.LEN), or none if one entry was never written (R35, R36). -/
def State.valueInput (s : State) : Option (List Byte) := s.mem.readEntries .vbuf 0 s.vlen.toNat

/-- The entries as 5-bit values, or none if one exceeds 31 (R247 point 4). -/
def toSymbols (vals : List Byte) : Option (List Symbol) :=
  if vals.all (fun v => decide (v.toNat ≤ 31)) then some (vals.map (fun v => v.setWidth 5)) else none

/-- 5-bit values as buffer entries. -/
def fromSymbols (syms : List Symbol) : List Byte := syms.map (fun v => v.setWidth 8)

/-- What lies at a word of the window: a buffer by `a[11:10]` and its entry by `a[9:2]`, or one of the
registers 0x000 to 0x018, or nothing (R62, R63). -/
def target (a : Offset) : Target :=
  match (a.extractLsb' 10 2).toNat with
  | 1 => .entry .hbuf (a.extractLsb' 2 8)
  | 2 => .entry .vbuf (a.extractLsb' 2 8)
  | 3 => .entry .obuf (a.extractLsb' 2 8)
  | _ =>
    match (a.extractLsb' 2 8).toNat with
    | 0 => .reg .cmd
    | 1 => .reg .status
    | 2 => .reg .hlen
    | 3 => .reg .vlen
    | 4 => .reg .olen
    | 5 => .reg .acc
    | 6 => .reg .lutr
    | _ => .unmapped

/-- A legal transaction is 4 bytes wide and its offset a multiple of 4 (R61). -/
def aligned (a : Offset) (width : Nat) : Bool :=
  decide (width = 4) && decide (a.extractLsb' 0 2 = 0)

end Sys2Proof.Machine
end

