-- ==== Sys2Proof/Machine/Bus.lean ====
section
/-! DEFINITION. The host's transactions on the window (spec/20_memory.md R60 to R66) and its other
operations, the poll and the reset. -/

namespace Sys2Proof.Machine

/-- The offset of STATUS (R23). -/
def statusOffset : Offset := 0x004

/-- `MemRead(a, width)`: the word it returns, or the protocol fault it raises (R61, R63, R64, R65, R66). The order
among its reasons is the model's. DESIGN CHOICE: the busy hazard comes first (log entry 7), and an access of another
width is BadAccess wherever it lands, at an unmapped offset or an unwritten entry too (log entry 17). -/
def busRead (a : Offset) (width : Nat) (s : State) : Except ProtocolReason Word :=
  if s.busy then
    if width = 4 ∧ a = statusOffset then .ok s.statusWord else .error .busyAccess
  else if aligned a width then
    match target a with
    | .unmapped => .error .unmapped
    | .reg r => .ok (readReg r s)
    | .entry b i =>
      match s.entry b i.toNat with
      | none => .error .unwrittenEntry
      | some v => .ok (v.setWidth 32)
  else .error .badAccess

/-- `MemWrite` of a buffer entry: the low eight bits are stored; OBUF ignores the write (R64). -/
def writeBuf (b : Buf) (i : Nat) (w : Word) (s : State) : State :=
  match b with
  | .obuf => s
  | .hbuf => s.setEntry .hbuf i (w.setWidth 8)
  | .vbuf => s.setEntry .vbuf i (w.setWidth 8)

/-- `MemWrite(a, width, w)`: the state it leaves, or the protocol fault it raises (R61, R63 to R66, R280).
The order among its reasons is that of `busRead`. DESIGN CHOICE, log entries 7 and 17. -/
def busWrite (a : Offset) (width : Nat) (w : Word) (s : State) : Except ProtocolReason State :=
  if s.busy then .error .busyAccess
  else if aligned a width then
    match target a with
    | .unmapped => .error .unmapped
    | .reg r => .ok (writeReg r w s)
    | .entry b i => .ok (writeBuf b i.toNat w s)
  else .error .badAccess

/-- One host step: the first operation of the host's list is performed. A transaction that faults changes nothing
but FAULTED (R244). -/
def hostStep (op : HostOp) (s : State) : Result :=
  match op with
  | .read a width =>
    match busRead a width s with
    | .ok w => .next (s.advance.setRdata w)
    | .error r => raise r s
  | .write a width w =>
    match busWrite a width w s.advance with
    | .ok s' => .next s'
    | .error r => raise r s
  | .poll =>
    if busyBit s.statusWord then .next (s.pollAgain.setRdata s.statusWord)
    else .next (s.advance.setRdata s.statusWord)
  | .reset => .next s.advance.resetEvent

end Sys2Proof.Machine
end

