-- ==== Sys2Proof/Machine/Polymod.lean ====
section
/-! DEFINITION. The BCH polymod over GF(32) and the command POLYMOD (spec/41_polymod.md). -/

namespace Sys2Proof.Machine

/-- The generator constant GEN[0] (R130). -/
def gen0 : Acc := 0x3b6a57b2

/-- The generator constant GEN[1] (R130). -/
def gen1 : Acc := 0x26508e6d

/-- The generator constant GEN[2] (R130). -/
def gen2 : Acc := 0x1ea119fa

/-- The generator constant GEN[3] (R130). -/
def gen3 : Acc := 0x3d4233dd

/-- The generator constant GEN[4] (R130). -/
def gen4 : Acc := 0x2a1462b3

/-- One generator constant, if bit `i` of `c0` selects it (R130, R131). -/
def selectGen (c0 : BitVec 5) (i : Nat) (g : Acc) : Acc := if c0.getLsbD i then g else 0

/-- The exclusive or of the constants that the bits of `c0` select (R131, the loop). -/
def reduction (c0 : BitVec 5) : Acc :=
  selectGen c0 0 gen0 ^^^ selectGen c0 1 gen1 ^^^ selectGen c0 2 gen2 ^^^
    selectGen c0 3 gen3 ^^^ selectGen c0 4 gen4

/-- `pm_step` (R131): the top five bits select the reduction, the low 25 bits move up by five and the new
value enters below. -/
def pmStep (c : Acc) (v : Symbol) : Acc :=
  (c <<< 5) ^^^ v.setWidth 30 ^^^ reduction (c.extractLsb' 25 5)

/-- `polymod` (R131): the accumulator starts at 1 and takes the values in order. -/
def polymod (vals : List Symbol) : Acc := vals.foldl pmStep 1

/-- POLYMOD (R135), its checks in the order of R247. -/
def execPolymod (s : State) : Result :=
  if tooLong s.vlen then finish .badLength s
  else
    match s.valueInput with
    | none => raise .unwrittenEntry s
    | some vals =>
      match toSymbols vals with
      | none => finish .invalidValue s
      | some syms => finish .ok (s.setAcc (polymod syms))

end Sys2Proof.Machine
end

