-- ==== Sys2Proof/Machine/Checksum.lean ====
section
/-! DEFINITION. HRP expansion, the checksum generator and verifier, and the commands CKGEN and CKVER
(spec/42_checksum.md). -/

namespace Sys2Proof.Machine

/-- `expand(h, d)` (R150): the high three bits of each code, a zero, the low five bits of each, the values. -/
def expand (h : List Byte) (d : List Symbol) : List Symbol :=
  h.map (fun ch => (ch.extractLsb' 5 3).setWidth 5) ++ [0] ++ h.map (fun ch => ch.extractLsb' 0 5) ++ d

/-- `K(enc)` (R152); Invalid has no constant. -/
def checksumConstant : Variant → Option Acc
  | .invalid => none
  | .bech32 => some 0x00000001
  | .bech32m => some 0x2bc830a3

/-- The checksum word for the constant `k`: six zero placeholders, then the exclusive or (R153). -/
def checksumWord (k : Acc) (h : List Byte) (d : List Symbol) : Acc :=
  polymod (expand h d ++ List.replicate 6 0) ^^^ k

/-- Group `i` of a checksum word is its bits [5*(5-i)+4 : 5*(5-i)] (R153). -/
def checksumGroup (word : Acc) (i : Nat) : Symbol := word.extractLsb' (5 * (5 - i)) 5

/-- The six groups, most significant first (R153). -/
def checksumGroups (word : Acc) : List Symbol := (List.range 6).map (checksumGroup word)

/-- `create_checksum` (R153); none for Invalid, which is never used for encoding. -/
def createChecksum (enc : Variant) (h : List Byte) (d : List Symbol) : Option (List Symbol) :=
  (checksumConstant enc).map (fun k => checksumGroups (checksumWord k h d))

/-- The variant whose constant a polymod equals (R154). -/
def matchVariant (p : Acc) : Variant :=
  if checksumConstant .bech32 = some p then .bech32
  else if checksumConstant .bech32m = some p then .bech32m
  else .invalid

/-- `verify_checksum` (R154). -/
def verifyChecksum (h : List Byte) (v : List Symbol) : Variant :=
  if v.length < 6 then .invalid else matchVariant (polymod (expand h v))

/-- The inputs of CKGEN and CKVER, checked in the order of R247: lengths, unwritten entries, values. -/
def withChecksumInput (s : State) (k : List Byte → List Symbol → Result) : Result :=
  if tooLong s.hlen || tooLong s.vlen then finish .badLength s
  else
    match s.hrpInput, s.valueInput with
    | some h, some vals =>
      match toSymbols vals with
      | none => finish .invalidValue s
      | some syms => k h syms
    | _, _ => raise .unwrittenEntry s

/-- CKGEN (R155). An instruction whose ENC field names no constant is an illegal word's (R94, R247 point 1;
log entry 10). -/
def execCkgen (enc : Variant) (s : State) : Result :=
  match checksumConstant enc with
  | none => finish .illegalCommand s
  | some k =>
    withChecksumInput s (fun h d =>
      let word := checksumWord k h d
      finish .ok ((s.setOutput (fromSymbols (checksumGroups word))).setAcc word))

/-- CKVER (R160). -/
def execCkver (s : State) : Result :=
  withChecksumInput s (fun h v =>
    if v.length < 6 then finish .checksumMismatch (s.setVariant .invalid)
    else
      let p := polymod (expand h v)
      match matchVariant p with
      | .invalid => finish .checksumMismatch ((s.setAcc p).setVariant .invalid)
      | found => finish .ok ((s.setAcc p).setVariant found))

end Sys2Proof.Machine
end

