-- ==== Sys2Proof/Machine/Lookup.lean ====
section
/-! DEFINITION. The symbol alphabet and the commands LUTENC and LUTDEC (spec/40_alphabet.md). -/

namespace Sys2Proof.Machine

/-- CHARSET, `qpzry9x8gf2tvdw0s3jn54khce6mua7l`, by character code (R110 table). -/
def charset : List Byte :=
  [0x71, 0x70, 0x7a, 0x72, 0x79, 0x39, 0x78, 0x38] ++
  [0x67, 0x66, 0x32, 0x74, 0x76, 0x64, 0x77, 0x30] ++
  [0x73, 0x33, 0x6a, 0x6e, 0x35, 0x34, 0x6b, 0x68] ++
  [0x63, 0x65, 0x36, 0x6d, 0x75, 0x61, 0x37, 0x6c]

/-- An uppercase letter: a code in 0x41 to 0x5A (R13). -/
def isUpper (c : Byte) : Bool := decide (0x41 ≤ c.toNat) && decide (c.toNat ≤ 0x5A)

/-- A lowercase letter: a code in 0x61 to 0x7A (R13). -/
def isLower (c : Byte) : Bool := decide (0x61 ≤ c.toNat) && decide (c.toNat ≤ 0x7A)

/-- `lower(c)` (R13). -/
def lower (c : Byte) : Byte := if isUpper c then c + 0x20 else c

/-- `upper(c)` (R13). -/
def upper (c : Byte) : Byte := if isLower c then c - 0x20 else c

/-- `CHARSET[v]` (R110). The list has 32 elements, so the default is never taken. -/
def charAt (v : Symbol) : Byte := charset.getD v.toNat 0

/-- The index of the first element of a list that equals `c`. -/
def findByte (c : Byte) : List Byte → Option Nat
  | [] => none
  | x :: rest => if x = c then some 0 else (findByte c rest).map (· + 1)

/-- `index_of(ch)`; none is NotMember (R112). -/
def indexOf (ch : Byte) : Option Symbol := (findByte (lower ch) charset).map (BitVec.ofNat 5)

/-- LUTENC (R113). -/
def execLutenc (v : Byte) (s : State) : Result :=
  if 31 < v.toNat then finish .invalidValue s
  else finish .ok (s.setLutr (charAt (v.setWidth 5)))

/-- LUTDEC (R115). -/
def execLutdec (ch : Byte) (s : State) : Result :=
  match indexOf ch with
  | none => finish .invalidCharacter s
  | some r => finish .ok (s.setLutr (r.setWidth 8))

end Sys2Proof.Machine
end

