-- ==== Sys2Proof/Machine/Regroup.lean ====
section
/-! DEFINITION. The bit regrouper and the command CONVERT (spec/43_regroup.md): the algorithm of R182, which runs,
and the bit stream of R180 and R181, which says what it computes. -/

namespace Sys2Proof.Machine

/-- What `convert_bits` returns (R182). -/
inductive Regrouped where
  | ok (out : List Byte)
  | invalidValue
  | invalidPadding
deriving DecidableEq, Repr

/-- The loop state of R182: the accumulator, how many of its low bits are still to be emitted, and the output. -/
structure RegroupState where
  acc : Nat
  bits : Nat
  out : List Byte
deriving DecidableEq, Repr

/-- `maxv = 2^T - 1` (R182). -/
def maxGroup (t : Nat) : Nat := 2 ^ t - 1

/-- The inner loop of R182: while at least `t` bits remain, emit the topmost `t` of them. `fuel` bounds the
number of turns; `r.bits` turns are always enough, since every turn takes at least one bit. -/
def emitGroups (t : Nat) : Nat → RegroupState → RegroupState
  | 0, r => r
  | fuel + 1, r =>
    if t ≤ r.bits then
      emitGroups t fuel
        { acc := r.acc, bits := r.bits - t,
          out := r.out ++ [BitVec.ofNat 8 ((r.acc >>> (r.bits - t)) &&& maxGroup t)] }
    else r

/-- One turn of the outer loop of R182: take in one value of `f` bits and emit what is complete. -/
def regroupStep (f t : Nat) (r : RegroupState) (d : Byte) : RegroupState :=
  emitGroups t (r.bits + f) { r with acc := (r.acc <<< f) ||| d.toNat, bits := r.bits + f }

/-- The outer loop of R182. -/
def regroupAll (f t : Nat) (d : List Byte) : RegroupState :=
  d.foldl (regroupStep f t) { acc := 0, bits := 0, out := [] }

/-- The last, partial group, completed with zero bits on the right (R181, R182). -/
def lastGroup (t : Nat) (r : RegroupState) : Nat := (r.acc <<< (t - r.bits)) &&& maxGroup t

/-- `convert_bits` (R182). -/
def convertBits (d : List Byte) (f t : Nat) (pad : Bool) : Regrouped :=
  if d.any (fun v => decide (2 ^ f ≤ v.toNat)) then .invalidValue
  else
    let r := regroupAll f t d
    if pad then
      .ok (if 0 < r.bits then r.out ++ [BitVec.ofNat 8 (lastGroup t r)] else r.out)
    else if f ≤ r.bits ∨ lastGroup t r ≠ 0 then .invalidPadding
    else .ok r.out

/-! ### The bit stream of R180 -/

/-- The `f` bits of a value, most significant first. -/
def bitsOf (f : Nat) (v : Byte) : List Bool := (List.range f).map (fun j => v.toNat.testBit (f - 1 - j))

/-- The stream of a sequence: each value's bits, values in order (R180). -/
def bitStream (f : Nat) (d : List Byte) : List Bool := d.flatMap (bitsOf f)

/-- The number a list of bits stands for, most significant bit first (R180). -/
def bitsValue (bs : List Bool) : Nat := bs.foldl (fun n b => 2 * n + b.toNat) 0

/-- The first `n` groups of `t` bits of a stream, each read most significant bit first (R180). -/
def fullGroups (t : Nat) : Nat → List Bool → List Byte
  | 0, _ => []
  | n + 1, bs => BitVec.ofNat 8 (bitsValue (bs.take t)) :: fullGroups t n (bs.drop t)

/-! ### The command -/

/-- Stores a regrouped sequence, unless it exceeds the output buffer (R183, R247 point 6). -/
def storeRegrouped (out : List Byte) (s : State) : Result :=
  if bufDepth < out.length then finish .badLength s else finish .ok (s.setOutput out)

/-- CONVERT (R183), its checks in the order of R247. An instruction whose widths are outside 1 to 8 is an
illegal word's (R96, R247 point 1; log entry 10). -/
def execConvert (f t : BitVec 4) (pad : Bool) (s : State) : Result :=
  if !(legalWidth f && legalWidth t) then finish .illegalCommand s
  else if tooLong s.vlen then finish .badLength s
  else
    match s.valueInput with
    | none => raise .unwrittenEntry s
    | some d =>
      match convertBits d f.toNat t.toNat pad with
      | .invalidValue => finish .invalidValue s
      | .invalidPadding => finish .invalidPadding s
      | .ok out => storeRegrouped out s

end Sys2Proof.Machine
end

