-- ==== Sys2Proof/Machine/Dispatch.lean ====
section
/-! DEFINITION. The meaning of each command, one arm per constructor of Instr. -/

namespace Sys2Proof.Machine

def exec (i : Instr) (s : State) : Host.Outcome State Fault Refusal :=
  match i with
  | .polymod => Sys2Proof.Machine.execPolymod s
  | .ckgen enc => Sys2Proof.Machine.execCkgen enc s
  | .ckver => Sys2Proof.Machine.execCkver s
  | .convert f t pad => Sys2Proof.Machine.execConvert f t pad s
  | .lutenc v => Sys2Proof.Machine.execLutenc v s
  | .lutdec ch => Sys2Proof.Machine.execLutdec ch s

end Sys2Proof.Machine
end

