-- ==== Sys2Proof/Machine/Engine.lean ====
section
/-! DEFINITION. The engine's completion step (spec/60_exceptions.md R243). -/

namespace Sys2Proof.Machine

/-- `engine_complete()` for the pending word `w` (R243): an illegal word finishes with ILLEGAL_COMMAND and reads
nothing (R246), a legal one runs its command. -/
def engineComplete (w : Word) (s : State) : Result :=
  match decode w with
  | .error _ => finish .illegalCommand s
  | .ok i => exec i s

/-- Whose turn it is while a command is pending: the engine's when its LATENCY has passed, or when the host
has nothing left to do (weak fairness, R243; log entries 2 and 3). -/
def engineTurn (s : State) : Bool := decide (s.wait = 0) || s.host.isEmpty

end Sys2Proof.Machine
end

