-- ==== Sys2Proof/Machine/Step.lean ====
section
/-! DEFINITION. One step of the block and its host. -/

namespace Sys2Proof.Machine

/-- One step. A faulted machine takes none (R39, R244). A pending command completes when it is the engine's turn
(R243); otherwise the host performs its next operation. A host with nothing to do and no command pending leaves
the machine as it is: the engine waits for a CMD write (R272; log entry 1). -/
def step (s : State) : Host.Outcome State Fault Refusal :=
  if s.faulted then .fault (.halted s)
  else
    match s.pcmd, s.host with
    | some w, [] => engineComplete w s
    | some w, op :: _ => if engineTurn s then engineComplete w s else hostStep op s
    | none, [] => .next s
    | none, op :: _ => hostStep op s

/-- The command word placed in PCMD with its completion due, as a CMD write whose LATENCY has passed leaves it, so
that the next step completes it (log entry 11). -/
def State.withFetchWord (s : State) (nbits w : Nat) : State := s.placeCommand (tableWord nbits w)

end Sys2Proof.Machine
end

