-- ==== Sys2Proof/Machine/Facade.lean ====
section
/-! DEFINITION. The facade `encode` and `decode` as pure functions over strings
(spec/48_host_facade.md R200 to R219). It is not hardware: HostProgram.lean runs it on the engine. -/

namespace Sys2Proof.Machine

/-- A string: a finite sequence of 8-bit character codes (R202). -/
abbrev Str := List Byte

/-- The error kinds (R201). -/
inductive ErrorKind where
  | tooLong
  | emptyHrp
  | invalidHrpCharacter
  | mixedCase
  | missingSeparator
  | invalidCharacter
  | checksumMismatch
  | invalidPadding
deriving DecidableEq, Repr

/-- What `encode` returns (R200); `refused` is the call outside its domain (R203 step 1, U16). -/
inductive EncodeResult where
  | encoded (s : Str)
  | error (kind : ErrorKind)
  | refused
deriving DecidableEq, Repr

/-- What `decode` returns (R200): the variant, the HRP and the payload, or an error kind. -/
inductive DecodeResult where
  | decoded (variant : Variant) (hrp : Str) (payload : List Byte)
  | error (kind : ErrorKind)
deriving DecidableEq, Repr

/-- The separator `'1'` (R13). -/
def separator : Byte := 0x31

/-- A code outside printable ASCII [33, 126] (R203 step 3, R212). -/
def outOfRange (c : Byte) : Bool := decide (c.toNat < 33) || decide (126 < c.toNat)

/-- The string has an uppercase letter and a lowercase letter (R203 step 4, R214). -/
def mixedCase (s : Str) : Bool := s.any isUpper && s.any isLower

/-- The number of 5-bit values `n` bytes regroup to, `ceil(8*n/5)` (R203 step 5, R184). -/
def regroupedLength (n : Nat) : Nat := (8 * n + 4) / 5

/-- The encode checks that run before anything is computed (R203 steps 1 to 5); none when all pass. -/
def encodeCheck (enc : Variant) (hrp : Str) (payload : List Byte) : Option EncodeResult :=
  if enc = .invalid then some .refused
  else if hrp.length = 0 then some (.error .emptyHrp)
  else if hrp.any outOfRange then some (.error .invalidHrpCharacter)
  else if mixedCase hrp then some (.error .mixedCase)
  else if 90 < hrp.length + regroupedLength payload.length + 7 then some (.error .tooLong)
  else none

/-- The case of a body character follows the HRP: uppercase exactly when the HRP has an uppercase letter
(R203 step 6, R206). -/
def bodyCase (hrp : Str) (c : Byte) : Byte := if hrp.any isUpper then upper c else c

/-- The string of R203 step 7 from the data values and the checksum. -/
def assemble (hrp : Str) (body : List Symbol) : Str :=
  hrp ++ [separator] ++ body.map (fun v => bodyCase hrp (charAt v))

/-- 8-bit entries known to be below 32, as 5-bit values. -/
def symbolsOf (vals : List Byte) : List Symbol := vals.map (fun v => v.setWidth 5)

/-- `encode(enc, hrp, P)` (R203). The regrouping with `pad = true` never fails and a variant other than Invalid has
a constant, so the last arm is never reached. -/
def facadeEncode (enc : Variant) (hrp : Str) (payload : List Byte) : EncodeResult :=
  match encodeCheck enc hrp payload with
  | some r => r
  | none =>
    match convertBits payload 8 5 true with
    | .ok d =>
      match createChecksum enc (hrp.map lower) (symbolsOf d) with
      | some ck => .encoded (assemble hrp (symbolsOf d ++ ck))
      | none => .refused
    | _ => .refused

/-- The index of the last `'1'`, or none (R212, R215). -/
def lastSeparator (s : Str) : Option Nat :=
  match s with
  | [] => none
  | c :: rest =>
    match lastSeparator rest with
    | some j => some (j + 1)
    | none => if c = separator then some 0 else none

/-- The index of the first code outside [33, 126], or none (R212). -/
def firstOutOfRange (s : Str) : Option Nat := s.findIdx? outOfRange

/-- Character range (R212): which kind an out-of-range code gives depends on its place before or after the last
`'1'`. -/
def rangeCheck (s : Str) : Option ErrorKind :=
  match firstOutOfRange s, lastSeparator s with
  | none, _ => none
  | some _, none => some .invalidHrpCharacter
  | some i, some j => if i < j then some .invalidHrpCharacter else some .invalidCharacter

/-- The decode checks before the separator is split off (R211, R212, R214), the first failing one. -/
def decodeCheck (s : Str) : Option ErrorKind :=
  if 90 < s.length then some .tooLong
  else if s.length < 8 then some .missingSeparator
  else
    match rangeCheck s with
    | some kind => some kind
    | none => if mixedCase s then some .mixedCase else none

/-- The separator's index (R215), or none when it is missing, leaves an empty HRP or fewer than six data
characters. -/
def splitIndex (s : Str) : Option Nat :=
  match lastSeparator (s.map lower) with
  | none => none
  | some j => if j = 0 ∨ s.length - j - 1 < 6 then none else some j

/-- The values of the data characters, or none if one is not in the alphabet (R216). -/
def mapSymbols (s : Str) : Option (List Symbol) :=
  match s with
  | [] => some []
  | c :: rest =>
    match indexOf c, mapSymbols rest with
    | some v, some vs => some (v :: vs)
    | _, _ => none

/-- `decode(s)` (R210 to R219), the first failing step deciding. -/
def facadeDecode (s : Str) : DecodeResult :=
  match decodeCheck s with
  | some kind => .error kind
  | none =>
    match splitIndex s with
    | none => .error .missingSeparator
    | some j =>
      match mapSymbols ((s.map lower).drop (j + 1)) with
      | none => .error .invalidCharacter
      | some v =>
        match verifyChecksum ((s.map lower).take j) v with
        | .invalid => .error .checksumMismatch
        | found =>
          match convertBits (fromSymbols (v.take (v.length - 6))) 5 8 false with
          | .ok payload => .decoded found (s.take j) payload
          | _ => .error .invalidPadding

end Sys2Proof.Machine
end

