-- ==== Sys2Proof/Machine/HostProgram.lean ====
section
/-! DEFINITION. Host programs on the engine: the statements and pseudo-instructions of spec/30_encoding.md R101 and
R102, and the two programs of 48_host_facade.md R207 and R220. A host program puts its transactions into the state's
host list and steps the machine; what it computes in between is its own (log entry 16). -/

namespace Sys2Proof.Machine

/-- The answer of a host program: the machine's state and the program's value, or the stop that ended it. -/
abbrev Run (α : Type) := Host.Outcome (State × α) Fault Refusal

/-- The first program, then the second on the state and value it left. -/
def andThen {α β : Type} (x : Run α) (k : α → State → Run β) : Run β :=
  match x with
  | .next (s, a) => k a s
  | .fault r => .fault r
  | .refused r => .refused r

/-- Step until the host's list is empty, at most `fuel` times. -/
def drain (fuel : Nat) (s : State) : Run Unit :=
  match fuel with
  | 0 => .next (s, ())
  | fuel + 1 =>
    if s.host = [] then .next (s, ())
    else
      match step s with
      | .next s' => drain fuel s'
      | .fault r => .fault r
      | .refused r => .refused r

/-- Perform one host operation. A poll takes at most `wait` reads that find BUSY = 1, the completion step, and one
read that finds BUSY = 0. -/
def perform (op : HostOp) (s : State) : Run Unit := drain (s.wait + 2) (s.setHost [op])

/-- Perform the operations of a list in order. -/
def performAll (ops : List HostOp) (s : State) : Run Unit :=
  match ops with
  | [] => .next (s, ())
  | op :: rest => andThen (perform op s) (fun _ s' => performAll rest s')

/-- The offset of a register (R23). -/
def regOffset : Reg → Offset
  | .cmd => 0x000
  | .status => 0x004
  | .hlen => 0x008
  | .vlen => 0x00C
  | .olen => 0x010
  | .acc => 0x014
  | .lutr => 0x018

/-- The offset of a buffer entry (R62). -/
def entryOffset (b : Buf) (i : Nat) : Offset := BitVec.ofNat 12 (entryAddr b i)

/-- `wr X, v` for a register (R101). -/
def wrReg (r : Reg) (w : Word) : HostOp := .write (regOffset r) 4 w

/-- `wr B[i], v` for a buffer entry (R101). -/
def wrEntry (b : Buf) (i : Nat) (v : Byte) : HostOp := .write (entryOffset b i) 4 (v.setWidth 32)

/-- `rd X -> name` at an offset (R101): the word the read returned. -/
def rdAt (a : Offset) (s : State) : Run Word :=
  andThen (perform (.read a 4) s) (fun _ s' => .next (s', s'.rdata.getD 0))

/-- `issue w` (R102): write the command word, then poll. -/
def issueOps (w : Word) : List HostOp := [wrReg .cmd w, .poll]

/-- `wr B[k], v_k` for k from `i` on, in order (R102). -/
def fillOps (b : Buf) (i : Nat) (vals : List Byte) : List HostOp :=
  match vals with
  | [] => []
  | v :: rest => wrEntry b i v :: fillOps b (i + 1) rest

/-- `ldhrp` (R102): fill HBUF, then write HLEN. -/
def ldhrpOps (h : List Byte) : List HostOp := fillOps .hbuf 0 h ++ [wrReg .hlen (BitVec.ofNat 32 h.length)]

/-- `ldvals` (R102): fill VBUF, then write VLEN. -/
def ldvalsOps (vals : List Byte) : List HostOp :=
  fillOps .vbuf 0 vals ++ [wrReg .vlen (BitVec.ofNat 32 vals.length)]

/-- Read OBUF from index `i` on, `n` entries. -/
def rdOut (i n : Nat) (s : State) : Run (List Byte) :=
  match n with
  | 0 => .next (s, [])
  | n + 1 =>
    andThen (rdAt (entryOffset .obuf i) s) (fun w s' =>
      andThen (rdOut (i + 1) n s') (fun rest s'' => .next (s'', w.setWidth 8 :: rest)))

/-- `rdout -> s` (R102): read OLEN, then that many entries of OBUF. -/
def rdout (s : State) : Run (List Byte) :=
  andThen (rdAt (regOffset .olen) s) (fun n s' => rdOut 0 n.toNat s')

/-- `rd STATUS -> s` (R102 `chkok`, R220). -/
def rdStatus (s : State) : Run Word := rdAt (regOffset .status) s

/-- `chkok` (R102): true where the program goes on, false where it goes to `fail`. -/
def chkok (s : State) : Run Bool :=
  andThen (rdStatus s) (fun st s' => .next (s', decide (errBits st = 0)))

/-- `issue w` of a command (R101: a command mnemonic used as a statement). -/
def issue (i : Instr) (s : State) : Run Unit := performAll (issueOps (encode i)) s

/-- The body of an encoded string: `lutenc x; rd LUTR -> c` for each value (R207). -/
def encodeBody (hrp : Str) (vals : List Byte) (s : State) : Run Str :=
  match vals with
  | [] => .next (s, [])
  | v :: rest =>
    andThen (issue (.lutenc v) s) (fun _ s1 =>
      andThen (rdAt (regOffset .lutr) s1) (fun c s2 =>
        andThen (encodeBody hrp rest s2) (fun cs s3 => .next (s3, bodyCase hrp (c.setWidth 8) :: cs))))

/-- The engine part of `encode` (R207), for inputs that pass steps 1 to 5 of R203. -/
def encodeOnEngine (enc : Variant) (hrp : Str) (payload : List Byte) (s : State) : Run Str :=
  andThen (performAll (ldvalsOps payload) s) (fun _ s =>
    andThen (issue (.convert 8 5 true) s) (fun _ s =>
      andThen (rdout s) (fun d s =>
        andThen (performAll (ldvalsOps d ++ ldhrpOps (hrp.map lower)) s) (fun _ s =>
          andThen (issue (.ckgen enc) s) (fun _ s =>
            andThen (rdout s) (fun ck s =>
              andThen (encodeBody hrp (d ++ ck) s) (fun body s => .next (s, hrp ++ [separator] ++ body))))))))

/-- `encode` as a host program (R207): steps 1 to 5 of R203 run in the host. -/
def encodeProgram (enc : Variant) (hrp : Str) (payload : List Byte) (s : State) : Run EncodeResult :=
  match encodeCheck enc hrp payload with
  | some r => .next (s, r)
  | none => andThen (encodeOnEngine enc hrp payload s) (fun str s' => .next (s', .encoded str))

/-- The data characters through LUTDEC (R220): none where one answered INVALID_CHARACTER, which ends the loop. -/
def decodeChars (chars : Str) (s : State) : Run (Option (List Byte)) :=
  match chars with
  | [] => .next (s, some [])
  | c :: rest =>
    andThen (issue (.lutdec c) s) (fun _ s1 =>
      andThen (rdStatus s1) (fun st s2 =>
        if errBits st = ErrCode.invalidCharacter.code then .next (s2, none)
        else
          andThen (rdAt (regOffset .lutr) s2) (fun v s3 =>
            andThen (decodeChars rest s3) (fun vs s4 => .next (s4, vs.map (v.setWidth 8 :: ·))))))

/-- The variant a STATUS.VARIANT field names (R95). Code 3 is never produced. -/
def variantOfCode (c : BitVec 2) : Variant :=
  match c.toNat with
  | 1 => .bech32
  | 2 => .bech32m
  | _ => .invalid

/-- The second half of the decode program (R220): CKVER, then CONVERT of the values without the checksum. -/
def decodeTail (hrp : Str) (j : Nat) (v : List Byte) (s : State) : Run DecodeResult :=
  andThen (performAll (ldhrpOps ((hrp.take j).map lower) ++ ldvalsOps v) s) (fun _ s =>
    andThen (issue .ckver s) (fun _ s =>
      andThen (rdStatus s) (fun st s =>
        if errBits st = ErrCode.checksumMismatch.code then .next (s, .error .checksumMismatch)
        else
          andThen (performAll [wrReg .vlen (BitVec.ofNat 32 (v.length - 6))] s) (fun _ s =>
            andThen (issue (.convert 5 8 false) s) (fun _ s =>
              andThen (rdStatus s) (fun st2 s =>
                if errBits st2 = ErrCode.invalidPadding.code then .next (s, .error .invalidPadding)
                else
                  andThen (rdout s) (fun p s =>
                    .next (s, .decoded (variantOfCode (variantBits st)) (hrp.take j) p))))))))

/-- `decode` as a host program (R220): lengths, range, case and separator run in the host. -/
def decodeProgram (str : Str) (s : State) : Run DecodeResult :=
  match decodeCheck str with
  | some kind => .next (s, .error kind)
  | none =>
    match splitIndex str with
    | none => .next (s, .error .missingSeparator)
    | some j =>
      andThen (decodeChars (str.drop (j + 1)) s) (fun found s' =>
        match found with
        | none => .next (s', .error .invalidCharacter)
        | some v => decodeTail str j v s')

end Sys2Proof.Machine
end

