-- ==== Sys2Proof/Safety.lean ====
section
/-! DEFINITION. What claims about the block are stated in: what a buffer holds, what a command reads, the invariant
of every step, and what a safe run is. -/

namespace Sys2Proof

/-- The command reads HLEN and HBUF (R135, R155, R160, R183). -/
def Instr.readsHrp : Instr → Bool
  | .polymod => false
  | .ckgen _ => true
  | .ckver => true
  | .convert _ _ _ => false
  | .lutenc _ => false
  | .lutdec _ => false

/-- The command reads VLEN and VBUF (R135, R155, R160, R183). -/
def Instr.readsValues : Instr → Bool
  | .polymod => true
  | .ckgen _ => true
  | .ckver => true
  | .convert _ _ _ => true
  | .lutenc _ => false
  | .lutdec _ => false

end Sys2Proof

namespace Sys2Proof.Machine

/-- Buffer `b` holds `vals` in its first entries, every one of them written. -/
abbrev Loaded (s : State) (b : Buf) (vals : List Byte) : Prop :=
  ∀ k < vals.length, s.entry b k = vals[k]?

/-- The first `n` entries of buffer `b` are written (R36). -/
abbrev WrittenUpTo (s : State) (b : Buf) (n : Nat) : Prop := ∀ k < n, (s.entry b k).isSome = true

/-- Every entry is at most 31 (R247 point 4). -/
abbrev AllSymbols (vals : List Byte) : Prop := ∀ v ∈ vals, v.toNat ≤ 31

/-- The machine takes host operations: no fault, no command pending. -/
abbrev Ready (s : State) : Prop := s.faulted = false ∧ s.pcmd = none

/-- A command is pending and its completion is the next step (R243). -/
abbrev Due (s : State) (w : Word) : Prop := s.faulted = false ∧ s.pcmd = some w ∧ (s.wait = 0 ∨ s.host = [])

/-- A length the command reads is above 256 (R245). -/
abbrev LengthTooLong (i : Instr) (s : State) : Prop :=
  (i.readsHrp = true ∧ 256 < s.hlen.toNat) ∨ (i.readsValues = true ∧ 256 < s.vlen.toNat)

/-- Every entry the command reads has been written (R274 point 2). -/
abbrev InputsWritten (i : Instr) (s : State) : Prop :=
  (i.readsHrp = true → WrittenUpTo s .hbuf s.hlen.toNat) ∧
    (i.readsValues = true → WrittenUpTo s .vbuf s.vlen.toNat)

/-- Two states agree on everything the command reads. -/
abbrev SameInputs (i : Instr) (s s' : State) : Prop :=
  (i.readsHrp = true → s.hlen = s'.hlen ∧ ∀ k < s.hlen.toNat, s.entry .hbuf k = s'.entry .hbuf k) ∧
    (i.readsValues = true → s.vlen = s'.vlen ∧ ∀ k < s.vlen.toNat, s.entry .vbuf k = s'.entry .vbuf k)

/-- The offset is that of a buffer entry (R62). -/
abbrev EntryOffset (a : Nat) : Prop := 0x400 ≤ a ∧ a < 0x1000 ∧ a % 4 = 0

/-- The invariant of every step: the memory keeps its canonical form and lists buffer entries alone (R62); OLEN is at
most 256 and every entry below it is written (R29, R37); LUTR holds 0, a 5-bit value or an alphabet character (R31);
no completion is awaited while no command is pending. -/
structure Inv (s : State) : Prop where
  canonical : s.mem.wf
  inWindow : ∀ c ∈ s.mem, EntryOffset c.1
  outputLength : s.olen.toNat ≤ 256
  outputWritten : WrittenUpTo s .obuf s.olen.toNat
  lookupResult : s.lutr.toNat < 32 ∨ s.lutr ∈ charset
  noWaitWhenIdle : s.pcmd = none → s.wait = 0

/-- `n` steps from `s`, stopping at the first fault or refusal. -/
def runSteps (n : Nat) (s : State) : Result :=
  match n with
  | 0 => .next s
  | n + 1 =>
    match step s with
    | .next t => runSteps n t
    | .fault r => .fault r
    | .refused r => .refused r

/-- A run of `n` steps from `s` is safe: it meets no protocol fault and no refusal (R244, R274, R280). -/
def SafeRun (n : Nat) (s : State) : Prop := ∃ t, runSteps n s = .next t

end Sys2Proof.Machine
end

