-- ==== Sys2Proof/Certificates/Slice0/Obligations.lean ====
section
/-! DEFINITION. The statements about the model, each from a rule of spec/. -/

open Sys2Proof
open Sys2Proof.Machine

/-! ### Encoding -/

/-- Decoding the word of a well-formed instruction gives the instruction back (30_encoding.md sections 1 to 3). -/
def Obligations.DecodeOfEncodeIsIdentity : Prop :=
  ∀ i : Instr, i.wellFormed = true → decode (encode i) = .ok i

/-- A word that decodes is the word of the instruction it decodes to, and that instruction is well-formed: no bit of a
legal word is dropped (30_encoding.md sections 1 to 3). -/
def Obligations.DecodedWordEncodesBack : Prop :=
  ∀ (w : Word) (i : Instr), decode w = .ok i → encode i = w ∧ i.wellFormed = true

/-- R99 and R246: which words are legal, that CMD accepts any word, and that a pending illegal word completes with
ILLEGAL_COMMAND whatever the buffers and lengths hold, changing nothing but ERR and BUSY. -/
def Obligations.ExactlyTheLegalWordsDecode : Prop :=
  ∀ w : Word,
    ((∃ i, decode w = .ok i) ↔
      ((w.extractLsb' 0 4 = 1 ∨ w.extractLsb' 0 4 = 3) ∧ w.extractLsb' 4 28 = 0) ∨
      (w.extractLsb' 0 4 = 2 ∧ w.extractLsb' 6 26 = 0 ∧ (w.extractLsb' 4 2 = 1 ∨ w.extractLsb' 4 2 = 2)) ∨
      (w.extractLsb' 0 4 = 4 ∧ w.extractLsb' 16 16 = 0 ∧ w.extractLsb' 5 3 = 0 ∧
        1 ≤ (w.extractLsb' 8 4).toNat ∧ (w.extractLsb' 8 4).toNat ≤ 8 ∧
        1 ≤ (w.extractLsb' 12 4).toNat ∧ (w.extractLsb' 12 4).toNat ≤ 8) ∨
      ((w.extractLsb' 0 4 = 5 ∨ w.extractLsb' 0 4 = 6) ∧ w.extractLsb' 16 16 = 0 ∧ w.extractLsb' 4 4 = 0)) ∧
    (∀ (s : State) (rest : List HostOp), Ready s → s.host = .write 0x000 4 w :: rest →
      ∃ t, step s = .next t ∧ t.pcmd = some w) ∧
    (∀ s : State, (∀ i, decode w ≠ .ok i) → Due s w →
      step s = .next { s with err := .illegalCommand, pcmd := none, wait := 0 })

/-- Some command words of 30_encoding.md R101 and 95_test_vectors.md V17, written out, decode as the spec says. -/
def Obligations.SampleWordsDecodeAsWritten : Prop :=
  decode 0x00000001 = .ok .polymod ∧ decode 0x00000012 = .ok (.ckgen .bech32) ∧
  decode 0x00000022 = .ok (.ckgen .bech32m) ∧ decode 0x00000003 = .ok .ckver ∧
  decode 0x00005814 = .ok (.convert 8 5 true) ∧ decode 0x00008504 = .ok (.convert 5 8 false) ∧
  decode 0x00000a05 = .ok (.lutenc 10) ∧ decode 0x00004c06 = .ok (.lutdec 0x4c) ∧
  (∀ i, decode 0x00000032 ≠ .ok i) ∧ (∀ i, decode 0x00009804 ≠ .ok i)

/-! ### The step -/

/-- A step runs the decoded command; around it the step decides whose turn it is (60_exceptions.md section 2; the
schedule is the model's own, log entries 1, 2, 3). -/
def Obligations.StepRunsDecodedCommandOrHost : Prop :=
  (∀ (s : State) (w : Word) (i : Instr), Due s w → decode w = .ok i → step s = exec i s) ∧
  (∀ (s : State) (w : Word) (op : HostOp) (rest : List HostOp), s.faulted = false → s.pcmd = some w →
    s.wait ≠ 0 → s.host = op :: rest → step s = hostStep op s) ∧
  (∀ (s : State) (op : HostOp) (rest : List HostOp), Ready s → s.host = op :: rest → step s = hostStep op s) ∧
  (∀ s : State, Ready s → s.host = [] → step s = .next s)

/-- R43 and R270: a reset event gives every register its reset value, discards a pending command with none of its
effects, clears every written mark and keeps FAULTED. -/
def Obligations.ResetEventRestoresResetValues : Prop :=
  (∀ (s : State) (rest : List HostOp), s.faulted = false → s.host = .reset :: rest → (s.pcmd = none ∨ s.wait ≠ 0) →
    ∃ t, step s = .next t ∧ t.statusWord = 0 ∧ t.hlen = 0 ∧ t.vlen = 0 ∧ t.olen = 0 ∧ t.acc = 1 ∧ t.lutr = 0 ∧
      t.pcmd = none ∧ (∀ b k, t.entry b k = none) ∧ t.faulted = false ∧ t.host = rest) ∧
  (∀ s : State, s.resetEvent.faulted = s.faulted)

/-- The state right after reset has the reset values of R43 (FAULTED's start value is the model's choice, log
entry 6), and a machine with nothing to do waits (R272; log entry 1). -/
def Obligations.ResetStateIsIdleAndWaits : Prop :=
  State.reset.statusWord = 0 ∧ State.reset.hlen = 0 ∧ State.reset.vlen = 0 ∧ State.reset.olen = 0 ∧
  State.reset.acc = 1 ∧ State.reset.lutr = 0 ∧ State.reset.pcmd = none ∧
  (∀ b k, State.reset.entry b k = none) ∧ step State.reset = .next State.reset

/-! ### The commands -/

/-- R135, POLYMOD: its word, every other word with its opcode illegal, and its outcome for every length and every content of VBUF. -/
def Obligations.PolymodComputesPolymodOfVbuf : Prop :=
  (∀ w : Word, decode w = .ok .polymod ↔ w = 0x00000001) ∧
  (∀ (w : Word) (s : State), w.extractLsb' 0 4 = 1 → w ≠ 0x00000001 →
    engineComplete w s = .next { s with err := .illegalCommand, pcmd := none, wait := 0 }) ∧
  ∀ s : State,
    (256 < s.vlen.toNat → exec .polymod s = .next { s with err := .badLength, pcmd := none, wait := 0 }) ∧
    (s.vlen.toNat ≤ 256 → ¬ WrittenUpTo s .vbuf s.vlen.toNat →
      exec .polymod s = .fault (.protocol .unwrittenEntry { s with faulted := true })) ∧
    (∀ vals : List Byte, s.vlen.toNat ≤ 256 → vals.length = s.vlen.toNat → Loaded s .vbuf vals →
      (¬ AllSymbols vals → exec .polymod s = .next { s with err := .invalidValue, pcmd := none, wait := 0 }) ∧
      (AllSymbols vals →
        exec .polymod s =
          .next { s with acc := polymod (symbolsOf vals), err := .ok, pcmd := none, wait := 0 }))

/-- R155, CKGEN: its words, and its outcome for every length and every content of HBUF and VBUF. With result OK the
six groups stand in OBUF[0..6), and no other byte of memory changes. -/
def Obligations.CkgenWritesChecksum : Prop :=
  (∀ (w : Word) (enc : Variant), decode w = .ok (.ckgen enc) ↔
    (w = 0x00000012 ∧ enc = .bech32) ∨ (w = 0x00000022 ∧ enc = .bech32m)) ∧
  (∀ (w : Word) (s : State), w.extractLsb' 0 4 = 2 → w ≠ 0x00000012 → w ≠ 0x00000022 →
    engineComplete w s = .next { s with err := .illegalCommand, pcmd := none, wait := 0 }) ∧
  ∀ (enc : Variant) (k : Acc) (s : State), (enc = .bech32 ∧ k = 0x00000001) ∨ (enc = .bech32m ∧ k = 0x2bc830a3) →
    (256 < s.hlen.toNat ∨ 256 < s.vlen.toNat →
      exec (.ckgen enc) s = .next { s with err := .badLength, pcmd := none, wait := 0 }) ∧
    (s.hlen.toNat ≤ 256 → s.vlen.toNat ≤ 256 →
      ¬ (WrittenUpTo s .hbuf s.hlen.toNat ∧ WrittenUpTo s .vbuf s.vlen.toNat) →
      exec (.ckgen enc) s = .fault (.protocol .unwrittenEntry { s with faulted := true })) ∧
    (∀ h vals : List Byte, s.hlen.toNat ≤ 256 → s.vlen.toNat ≤ 256 → h.length = s.hlen.toNat → Loaded s .hbuf h →
      vals.length = s.vlen.toNat → Loaded s .vbuf vals →
      (¬ AllSymbols vals → exec (.ckgen enc) s = .next { s with err := .invalidValue, pcmd := none, wait := 0 }) ∧
      (AllSymbols vals →
        ∃ t word, exec (.ckgen enc) s = .next t ∧
          word = polymod (expand h (symbolsOf vals) ++ List.replicate 6 0) ^^^ k ∧
          t = { s with acc := word, olen := 6, mem := t.mem, err := .ok, pcmd := none, wait := 0 } ∧
          (∀ i < 6, t.entry .obuf i = some ((word.extractLsb' (5 * (5 - i)) 5).setWidth 8)) ∧
          (∀ a, (∀ i < 6, a ≠ entryAddr .obuf i) → t.readByte a = s.readByte a)))

/-- R160, CKVER: its word, and its outcome for every length and every content of HBUF and VBUF. -/
def Obligations.CkverReportsVariant : Prop :=
  (∀ w : Word, decode w = .ok .ckver ↔ w = 0x00000003) ∧
  (∀ (w : Word) (s : State), w.extractLsb' 0 4 = 3 → w ≠ 0x00000003 →
    engineComplete w s = .next { s with err := .illegalCommand, pcmd := none, wait := 0 }) ∧
  ∀ s : State,
    (256 < s.hlen.toNat ∨ 256 < s.vlen.toNat →
      exec .ckver s = .next { s with err := .badLength, pcmd := none, wait := 0 }) ∧
    (s.hlen.toNat ≤ 256 → s.vlen.toNat ≤ 256 →
      ¬ (WrittenUpTo s .hbuf s.hlen.toNat ∧ WrittenUpTo s .vbuf s.vlen.toNat) →
      exec .ckver s = .fault (.protocol .unwrittenEntry { s with faulted := true })) ∧
    (∀ h vals : List Byte, s.hlen.toNat ≤ 256 → s.vlen.toNat ≤ 256 → h.length = s.hlen.toNat → Loaded s .hbuf h →
      vals.length = s.vlen.toNat → Loaded s .vbuf vals →
      (¬ AllSymbols vals → exec .ckver s = .next { s with err := .invalidValue, pcmd := none, wait := 0 }) ∧
      (AllSymbols vals → vals.length < 6 →
        exec .ckver s =
          .next { s with variant := .invalid, err := .checksumMismatch, pcmd := none, wait := 0 }) ∧
      (AllSymbols vals → 6 ≤ vals.length → ∀ p, p = polymod (expand h (symbolsOf vals)) →
        (p = 0x00000001 →
          exec .ckver s = .next { s with acc := p, variant := .bech32, err := .ok, pcmd := none, wait := 0 }) ∧
        (p = 0x2bc830a3 →
          exec .ckver s = .next { s with acc := p, variant := .bech32m, err := .ok, pcmd := none, wait := 0 }) ∧
        (p ≠ 0x00000001 → p ≠ 0x2bc830a3 →
          exec .ckver s =
            .next { s with acc := p, variant := .invalid, err := .checksumMismatch, pcmd := none, wait := 0 })))

/-- R183, CONVERT: its words, and its outcome for every pair of legal widths, every length and every content of
VBUF. What `convertBits` returns is R180 to R182, stated on its own. -/
def Obligations.ConvertStoresRegroupedBits : Prop :=
  (∀ (w : Word) (f t : BitVec 4) (pad : Bool), decode w = .ok (.convert f t pad) ↔
    (1 ≤ f.toNat ∧ f.toNat ≤ 8 ∧ 1 ≤ t.toNat ∧ t.toNat ≤ 8 ∧
      w.toNat = 4 + 16 * pad.toNat + 256 * f.toNat + 4096 * t.toNat)) ∧
  (∀ (w : Word) (s : State), w.extractLsb' 0 4 = 4 →
    (w.extractLsb' 8 4).toNat = 0 ∨ 8 < (w.extractLsb' 8 4).toNat ∨ (w.extractLsb' 12 4).toNat = 0 ∨
      8 < (w.extractLsb' 12 4).toNat ∨ w.extractLsb' 5 3 ≠ 0 ∨ w.extractLsb' 16 16 ≠ 0 →
    engineComplete w s = .next { s with err := .illegalCommand, pcmd := none, wait := 0 }) ∧
  ∀ (f t : BitVec 4) (pad : Bool) (s : State), 1 ≤ f.toNat → f.toNat ≤ 8 → 1 ≤ t.toNat → t.toNat ≤ 8 →
    (256 < s.vlen.toNat → exec (.convert f t pad) s = .next { s with err := .badLength, pcmd := none, wait := 0 }) ∧
    (s.vlen.toNat ≤ 256 → ¬ WrittenUpTo s .vbuf s.vlen.toNat →
      exec (.convert f t pad) s = .fault (.protocol .unwrittenEntry { s with faulted := true })) ∧
    (∀ vals : List Byte, s.vlen.toNat ≤ 256 → vals.length = s.vlen.toNat → Loaded s .vbuf vals →
      (convertBits vals f.toNat t.toNat pad = .invalidValue →
        exec (.convert f t pad) s = .next { s with err := .invalidValue, pcmd := none, wait := 0 }) ∧
      (convertBits vals f.toNat t.toNat pad = .invalidPadding →
        exec (.convert f t pad) s = .next { s with err := .invalidPadding, pcmd := none, wait := 0 }) ∧
      (∀ out, convertBits vals f.toNat t.toNat pad = .ok out → 256 < out.length →
        exec (.convert f t pad) s = .next { s with err := .badLength, pcmd := none, wait := 0 }) ∧
      (∀ out, convertBits vals f.toNat t.toNat pad = .ok out → out.length ≤ 256 →
        ∃ u, exec (.convert f t pad) s = .next u ∧
          u = { s with olen := BitVec.ofNat 9 out.length, mem := u.mem, err := .ok, pcmd := none, wait := 0 } ∧
          u.olen.toNat = out.length ∧ Loaded u .obuf out ∧
          (∀ a, (∀ i < out.length, a ≠ entryAddr .obuf i) → u.readByte a = s.readByte a)))

/-- R113, LUTENC: its words, and its outcome for every operand. -/
def Obligations.LutencReturnsCharacter : Prop :=
  (∀ (w : Word) (v : Byte), decode w = .ok (.lutenc v) ↔ w.toNat = 5 + 256 * v.toNat) ∧
  (∀ (w : Word) (s : State), w.extractLsb' 0 4 = 5 → w.extractLsb' 4 4 ≠ 0 ∨ w.extractLsb' 16 16 ≠ 0 →
    engineComplete w s = .next { s with err := .illegalCommand, pcmd := none, wait := 0 }) ∧
  ∀ (v : Byte) (s : State),
    (31 < v.toNat → exec (.lutenc v) s = .next { s with err := .invalidValue, pcmd := none, wait := 0 }) ∧
    (v.toNat ≤ 31 → ∃ c, charset[v.toNat]? = some c ∧
      exec (.lutenc v) s = .next { s with lutr := c, err := .ok, pcmd := none, wait := 0 })

/-- R115, LUTDEC: its words, and its outcome for every operand: a member is a character whose lowercase form stands in
the alphabet. -/
def Obligations.LutdecReturnsValue : Prop :=
  (∀ (w : Word) (ch : Byte), decode w = .ok (.lutdec ch) ↔ w.toNat = 6 + 256 * ch.toNat) ∧
  (∀ (w : Word) (s : State), w.extractLsb' 0 4 = 6 → w.extractLsb' 4 4 ≠ 0 ∨ w.extractLsb' 16 16 ≠ 0 →
    engineComplete w s = .next { s with err := .illegalCommand, pcmd := none, wait := 0 }) ∧
  ∀ (ch : Byte) (s : State),
    (lower ch ∉ charset →
      exec (.lutdec ch) s = .next { s with err := .invalidCharacter, pcmd := none, wait := 0 }) ∧
    (∀ v : Nat, charset[v]? = some (lower ch) →
      exec (.lutdec ch) s = .next { s with lutr := BitVec.ofNat 8 v, err := .ok, pcmd := none, wait := 0 })

/-! ### Rules over all commands -/

/-- A command with legal operands completes exactly when a length it reads is too long or every entry it reads is
written; otherwise it raises UnwrittenEntry, which sets FAULTED and changes nothing else
(60_exceptions.md sections 1 and 2). -/
def Obligations.CommandCompletesExactlyWhenInputsWritten : Prop :=
  ∀ (i : Instr) (s : State), i.wellFormed = true →
    (LengthTooLong i s ∨ InputsWritten i s → ∃ t, exec i s = .next t) ∧
    (¬ LengthTooLong i s → ¬ InputsWritten i s →
      exec i s = .fault (.protocol .unwrittenEntry { s with faulted := true }))

/-- R245: when a command finishes with BAD_LENGTH, and that nothing but STATUS changes then. -/
def Obligations.BadLengthExactlyForLongSequences : Prop :=
  ∀ (i : Instr) (s t : State), i.wellFormed = true → exec i s = .next t →
    (t.err = .badLength ↔
      LengthTooLong i s ∨
      ∃ f g pad vals out, i = .convert f g pad ∧ s.vlen.toNat ≤ 256 ∧ vals.length = s.vlen.toNat ∧
        Loaded s .vbuf vals ∧ convertBits vals f.toNat g.toNat pad = .ok out ∧ 256 < out.length) ∧
    (t.err = .badLength → t = { s with err := .badLength, pcmd := none, wait := 0 })

/-- R247 points 3 and 4 (60_exceptions.md section 2): values are checked after every input entry has been read, so an
unwritten entry faults whatever the other entries hold, and INVALID_VALUE is given exactly for an entry out of range. -/
def Obligations.ValuesAreCheckedAfterReading : Prop :=
  ∀ (i : Instr) (s : State), i.wellFormed = true → i.readsValues = true → ¬ LengthTooLong i s →
    (¬ WrittenUpTo s .vbuf s.vlen.toNat →
      exec i s = .fault (.protocol .unwrittenEntry { s with faulted := true })) ∧
    (∀ vals : List Byte, vals.length = s.vlen.toNat → Loaded s .vbuf vals → InputsWritten i s →
      ((∃ t, exec i s = .next t ∧ t.err = .invalidValue) ↔
        ∃ v ∈ vals, match i with
          | .convert f _ _ => 2 ^ f.toNat ≤ v.toNat
          | _ => 31 < v.toNat))

/-- R248: a command that finishes with a code other than OK changes ERR and BUSY only, but for CKVER with
CHECKSUM_MISMATCH, which writes VARIANT, and ACC when six or more values were given. -/
def Obligations.FailureChangesOnlyStatus : Prop :=
  ∀ (i : Instr) (s t : State), exec i s = .next t → t.err ≠ .ok →
    (¬ (i = .ckver ∧ t.err = .checksumMismatch) → t = { s with err := t.err, pcmd := none, wait := 0 }) ∧
    (i = .ckver → t.err = .checksumMismatch →
      t = { s with err := .checksumMismatch, variant := .invalid, acc := t.acc, pcmd := none, wait := 0 } ∧
      (s.vlen.toNat < 6 → t.acc = s.acc))

/-- The frame of every command (10_state.md section 6, whose table is the spec's own derivation): what is unchanged when
a command completes. The bytes stored are those of OBUF[0..OLEN), at the addresses CKGEN and CONVERT store to. -/
def Obligations.CommandFrame : Prop :=
  ∀ (i : Instr) (s t : State), exec i s = .next t →
    t.pcmd = none ∧ t.hlen = s.hlen ∧ t.vlen = s.vlen ∧ t.faulted = s.faulted ∧ t.host = s.host ∧
    t.rdata = s.rdata ∧ t.issued = s.issued ∧
    (i ≠ .ckver → t.variant = s.variant) ∧
    (i ≠ .polymod → i ≠ .ckver → (∀ enc, i ≠ .ckgen enc) → t.acc = s.acc) ∧
    ((∀ v, i ≠ .lutenc v) → (∀ ch, i ≠ .lutdec ch) → t.lutr = s.lutr) ∧
    ((∀ enc, i ≠ .ckgen enc) → (∀ f g pad, i ≠ .convert f g pad) →
      t.olen = s.olen ∧ ∀ a, t.readByte a = s.readByte a) ∧
    (∀ a, (∀ k < t.olen.toNat, a ≠ entryAddr .obuf k) → t.readByte a = s.readByte a) ∧
    (t.err ≠ .ok → ∀ a, t.readByte a = s.readByte a)

/-- Only CKVER and a reset change VARIANT, in any step of the whole machine (10_state.md section 3). -/
def Obligations.OnlyCkverOrResetChangesVariant : Prop :=
  ∀ s t : State, step s = .next t → t.variant ≠ s.variant →
    (∃ w, s.pcmd = some w ∧ decode w = .ok .ckver ∧ t.pcmd = none ∧ (t.err = .ok ∨ t.err = .checksumMismatch)) ∨
    (∃ rest, s.host = .reset :: rest)

/-- Whatever a step does, it changes no HBUF or VBUF entry and no input length unless the host writes it or a reset
clears it (10_state.md sections 3 and 4). -/
def Obligations.OnlyTheHostChangesInputs : Prop :=
  ∀ s t : State, step s = .next t →
    (t.hlen ≠ s.hlen ∨ t.vlen ≠ s.vlen ∨ (∃ k < 256, t.entry .hbuf k ≠ s.entry .hbuf k) ∨
      (∃ k < 256, t.entry .vbuf k ≠ s.entry .vbuf k)) →
    (∃ a w rest, s.host = .write a 4 w :: rest ∧ s.pcmd = none) ∨ (∃ rest, s.host = .reset :: rest)

/-- A command's result depends on nothing but the entries and lengths it reads: two states that agree on those get the
same code and, with OK, the same results (41_polymod.md section 2, 42_checksum.md section 2, 43_regroup.md section 2). -/
def Obligations.ResultDependsOnlyOnInputs : Prop :=
  ∀ (i : Instr) (s s' t t' : State), SameInputs i s s' → exec i s = .next t → exec i s' = .next t' →
    t.err = t'.err ∧ (i = .ckver → t.err = .ok → t.variant = t'.variant) ∧
    (t.err = .ok → i = .polymod ∨ i = .ckver ∨ (∃ enc, i = .ckgen enc) → t.acc = t'.acc) ∧
    (t.err = .ok → (∃ v, i = .lutenc v) ∨ (∃ ch, i = .lutdec ch) → t.lutr = t'.lutr) ∧
    (t.err = .ok → (∃ enc, i = .ckgen enc) ∨ (∃ f g pad, i = .convert f g pad) →
      t.olen = t'.olen ∧ ∀ k < t.olen.toNat, t.entry .obuf k = t'.entry .obuf k)

/-! ### The host window -/

/-- R62: what lies at each aligned offset of the window. -/
def Obligations.WindowMapIsAsWritten : Prop :=
  (∀ a : Offset, a.toNat % 4 = 0 →
    (a.toNat = 0x000 → target a = .reg .cmd) ∧ (a.toNat = 0x004 → target a = .reg .status) ∧
    (a.toNat = 0x008 → target a = .reg .hlen) ∧ (a.toNat = 0x00C → target a = .reg .vlen) ∧
    (a.toNat = 0x010 → target a = .reg .olen) ∧ (a.toNat = 0x014 → target a = .reg .acc) ∧
    (a.toNat = 0x018 → target a = .reg .lutr) ∧ (0x01C ≤ a.toNat → a.toNat ≤ 0x3FC → target a = .unmapped)) ∧
  (∀ i : BitVec 8,
    target (BitVec.ofNat 12 (0x400 + 4 * i.toNat)) = .entry .hbuf i ∧
    target (BitVec.ofNat 12 (0x800 + 4 * i.toNat)) = .entry .vbuf i ∧
    target (BitVec.ofNat 12 (0xC00 + 4 * i.toNat)) = .entry .obuf i)

/-- The fields of STATUS: BUSY in bit 0, ERR in [7:4], VARIANT in [9:8], all other bits 0. The number of each result
code (R240) and of each variant (R95), so that ERR is at most 6 and VARIANT at most 2 (10_state.md section 3). -/
def Obligations.StatusWordFields : Prop :=
  (∀ s : State,
    s.statusWord.toNat = (if s.pcmd = none then 0 else 1) + 16 * s.err.code.toNat + 256 * s.variant.code.toNat ∧
    s.err.code.toNat ≤ 6 ∧ s.variant.code.toNat ≤ 2) ∧
  (ErrCode.ok.code.toNat = 0 ∧ ErrCode.invalidCharacter.code.toNat = 1 ∧ ErrCode.checksumMismatch.code.toNat = 2 ∧
    ErrCode.invalidPadding.code.toNat = 3 ∧ ErrCode.invalidValue.code.toNat = 4 ∧ ErrCode.badLength.code.toNat = 5 ∧
    ErrCode.illegalCommand.code.toNat = 6) ∧
  (Variant.invalid.code.toNat = 0 ∧ Variant.bech32.code.toNat = 1 ∧ Variant.bech32m.code.toNat = 2)

/-- R65: a MemRead of each register returns its fields with the reserved bits 0 and has no side effect; a MemWrite
stores HLEN and VLEN, is ignored by STATUS, OLEN, ACC and LUTR, and latches CMD. -/
def Obligations.RegisterAccess : Prop :=
  (∀ (s : State) (a : Offset) (rest : List HostOp), Ready s → s.host = .read a 4 :: rest →
    ∀ n : Nat,
      (a = 0x000 ∧ n = 0) ∨ (a = 0x004 ∧ n = 16 * s.err.code.toNat + 256 * s.variant.code.toNat) ∨
      (a = 0x008 ∧ n = s.hlen.toNat) ∨ (a = 0x00C ∧ n = s.vlen.toNat) ∨ (a = 0x010 ∧ n = s.olen.toNat) ∨
      (a = 0x014 ∧ n = s.acc.toNat) ∨ (a = 0x018 ∧ n = s.lutr.toNat) →
      step s = .next { s with rdata := some (BitVec.ofNat 32 n), host := rest, wait := s.wait - 1 }) ∧
  (∀ (s : State) (a : Offset) (w : Word) (rest : List HostOp), Ready s → s.host = .write a 4 w :: rest →
    (a = 0x000 → ∃ t, step s = .next t ∧ t = { s with pcmd := some w, host := rest, wait := t.wait, issued := t.issued }) ∧
    (a = 0x008 → step s = .next { s with hlen := w.extractLsb' 0 9, host := rest, wait := s.wait - 1 }) ∧
    (a = 0x00C → step s = .next { s with vlen := w.extractLsb' 0 9, host := rest, wait := s.wait - 1 }) ∧
    (a = 0x004 ∨ a = 0x010 ∨ a = 0x014 ∨ a = 0x018 → step s = .next { s with host := rest, wait := s.wait - 1 }))

/-- R24: a CMD write latches the word, sets BUSY and leaves every other field of STATUS and every register unchanged, and
the engine then completes the command; a CMD read returns 0 and has no effect; a CMD write while BUSY = 1 is a protocol
fault that changes nothing else. How many host steps the command waits for is free (log entry 2). -/
def Obligations.CmdWriteStartsCommand : Prop :=
  (∀ (s : State) (w : Word) (rest : List HostOp), s.faulted = false → s.host = .write 0x000 4 w :: rest →
    (s.pcmd = none →
      step s =
        .next { s with pcmd := some w, host := rest, wait := Config.latency s.issued, issued := s.issued + 1 }) ∧
    (s.pcmd ≠ none → s.wait ≠ 0 → step s = .fault (.protocol .busyAccess { s with faulted := true }))) ∧
  (∀ (s : State) (w : Word), Due s w → step s = engineComplete w s) ∧
  (∀ (s : State) (rest : List HostOp), Ready s → s.host = .read 0x000 4 :: rest →
    step s = .next { s with rdata := some 0, host := rest, wait := s.wait - 1 })

/-- R64: a read of a buffer entry returns it zero-extended, or faults if its mark is clear; a write stores the low
eight bits and sets the mark, and changes no other entry; OBUF ignores a write. -/
def Obligations.BufferEntryAccess : Prop :=
  ∀ (s : State) (b : Buf) (i : Nat) (a : Offset), i < 256 → a.toNat = entryAddr b i → Ready s →
    (∀ rest, s.host = .read a 4 :: rest →
      (s.entry b i = none → step s = .fault (.protocol .unwrittenEntry { s with faulted := true })) ∧
      (∀ v, s.entry b i = some v →
        step s = .next { s with rdata := some (BitVec.ofNat 32 v.toNat), host := rest, wait := s.wait - 1 })) ∧
    (∀ w rest, s.host = .write a 4 w :: rest →
      (b = .obuf → step s = .next { s with host := rest, wait := s.wait - 1 }) ∧
      (b ≠ .obuf → ∃ t, step s = .next t ∧
        t = { s with mem := t.mem, host := rest, wait := s.wait - 1 } ∧
        t.entry b i = some (w.extractLsb' 0 8) ∧
        ∀ x, x ≠ entryAddr b i → t.readByte x = s.readByte x))

/-- What the host writes to HBUF[i] or VBUF[i] it reads back, and what it writes there changes no other entry it could
read (20_memory.md sections 1 and 3): two steps, the write and the read. -/
def Obligations.WrittenEntryReadsBack : Prop :=
  ∀ (s : State) (b b' : Buf) (i j : Nat) (a a' : Offset) (w : Word) (rest : List HostOp),
    i < 256 → j < 256 → b ≠ .obuf → a.toNat = entryAddr b i → a'.toNat = entryAddr b' j → Ready s →
    s.host = .write a 4 w :: .read a' 4 :: rest →
    (b = b' ∧ i = j → ∃ t, runSteps 2 s = .next t ∧ t.rdata = some ((w.extractLsb' 0 8).setWidth 32)) ∧
    (¬ (b = b' ∧ i = j) → ∀ v, s.entry b' j = some v →
      ∃ t, runSteps 2 s = .next t ∧ t.rdata = some (v.setWidth 32))

/-- A transaction that is not 4 bytes wide or not 4-byte aligned is BadAccess and has no effect, and an aligned 4-byte
one at 0x01C to 0x3FC is Unmapped, on a machine with no command pending (20_memory.md section 1). The model's choices:
the busy hazard comes first (log entry 7), and BadAccess comes before Unmapped and UnwrittenEntry for an access of
another width (log entry 17). -/
def Obligations.BadOrUnmappedAccessFaults : Prop :=
  ∀ (s : State) (a : Offset) (width : Nat) (rest : List HostOp), Ready s →
    (s.host = .read a width :: rest ∨ ∃ w, s.host = .write a width w :: rest) →
    (width ≠ 4 ∨ a.toNat % 4 ≠ 0 → step s = .fault (.protocol .badAccess { s with faulted := true })) ∧
    (width = 4 → a.toNat % 4 = 0 → 0x01C ≤ a.toNat → a.toNat ≤ 0x3FC →
      step s = .fault (.protocol .unmapped { s with faulted := true }))

/-- While BUSY = 1, before the completion step, MemRead(0x004, 4) returns STATUS and changes nothing, and every other
transaction is the busy hazard, which has no effect but FAULTED (20_memory.md section 1). That this reason is given for a
misaligned, wrong-width or unmapped transaction too is the model's choice (log entry 7). -/
def Obligations.OnlyStatusReadsWhileBusy : Prop :=
  ∀ (s : State) (c : Word), s.faulted = false → s.pcmd = some c → s.wait ≠ 0 →
    (∀ (a : Offset) (width : Nat) (rest : List HostOp), s.host = .read a width :: rest →
      (a = 0x004 ∧ width = 4 →
        step s = .next { s with rdata := some s.statusWord, host := rest, wait := s.wait - 1 }) ∧
      (¬ (a = 0x004 ∧ width = 4) → step s = .fault (.protocol .busyAccess { s with faulted := true }))) ∧
    (∀ (a : Offset) (width : Nat) (w : Word) (rest : List HostOp), s.host = .write a width w :: rest →
      step s = .fault (.protocol .busyAccess { s with faulted := true }))

/-- R39: FAULTED is set by a protocol fault, which changes nothing else, and once set it stays set: no later step is
enabled, and not even a reset clears it. A step that goes on never sets it. -/
def Obligations.FaultIsFinalAndChangesNothingElse : Prop :=
  (∀ (s : State) (f : Fault), s.faulted = false → step s = .fault f →
    ∃ r, f = .protocol r { s with faulted := true } ∧
      step { s with faulted := true } = .fault (.halted { s with faulted := true })) ∧
  (∀ s : State, s.faulted = true → step s = .fault (.halted s) ∧ s.resetEvent.faulted = true) ∧
  (∀ s t : State, step s = .next t → s.faulted = false ∧ t.faulted = false)

/-- No step refuses, and the engine's completion step stops only on an unwritten input entry (60_exceptions.md section
2): every other stop is the host's doing. -/
def Obligations.EngineStopsOnlyOnUnwrittenInput : Prop :=
  (∀ (s : State) (r : Refusal), step s ≠ .refused r) ∧
  (∀ (s : State) (w : Word) (f : Fault), Due s w → step s = .fault f →
    f = .protocol .unwrittenEntry { s with faulted := true } ∧
    ∃ i, decode w = .ok i ∧ ¬ InputsWritten i s)

/-- Reads have no side effects: a read or a poll leaves everything but the word it returns and the host's own progress as
it was (20_memory.md section 3). -/
def Obligations.ReadsHaveNoSideEffects : Prop :=
  ∀ (s t : State) (rest : List HostOp), (s.pcmd = none ∨ s.wait ≠ 0) →
    ((∃ a width, s.host = .read a width :: rest) ∨ s.host = .poll :: rest) → step s = .next t →
    t = { s with host := t.host, rdata := t.rdata, wait := s.wait - 1 } ∧ (t.host = rest ∨ t.host = s.host)

/-! ### The invariant -/

/-- The invariant holds right after reset. -/
def Obligations.InvariantHoldsAtReset : Prop := Inv State.reset

/-- Every step keeps the invariant: the memory's canonical form, OLEN at most 256 with every entry below it written, LUTR
a table result (10_state.md sections 3 and 4). -/
def Obligations.EveryStepKeepsInvariant : Prop := ∀ s t : State, Inv s → step s = .next t → Inv t

/-- Under the invariant a host may read every result entry OBUF[0..OLEN) without a fault
(70_reset_and_hazards.md section 3). -/
def Obligations.ResultEntriesAreReadable : Prop :=
  ∀ (s : State) (k : Nat) (a : Offset) (rest : List HostOp), Inv s → Ready s → k < s.olen.toNat →
    a.toNat = entryAddr .obuf k → s.host = .read a 4 :: rest →
    ∃ t v, step s = .next t ∧ s.entry .obuf k = some v ∧ t.rdata = some (v.setWidth 32)

/-! ### Issue and poll -/

/-- A CMD write followed by a poll ends: after the command's LATENCY of STATUS reads, its completion step and one more
read, the state is the command's own result with the poll done (30_encoding.md section 4, 60_exceptions.md section 2;
the schedule is the model's, log entries 2, 3, 13). -/
def Obligations.PolledCommandCompletesAfterLatency : Prop :=
  ∀ (s : State) (w : Word) (rest : List HostOp) (t : State), Ready s →
    s.host = .write 0x000 4 w :: .poll :: rest →
    engineComplete w
      { s with
        pcmd := some w, host := .poll :: rest, issued := s.issued + 1, wait := 0,
        rdata := if Config.latency s.issued = 0 then s.rdata
          else some (State.statusWord { s with pcmd := some w }) } = .next t →
    runSteps (Config.latency s.issued + 3) s =
      .next { t with host := rest, rdata := some t.statusWord }

/-- A host that writes every input a command reads, issues it and polls never meets a fault, whatever the latency
(70_reset_and_hazards.md section 2). -/
def Obligations.PolledCommandRunsSafely : Prop :=
  ∀ (s : State) (i : Instr), i.wellFormed = true → Ready s → InputsWritten i s →
    s.host = issueOps (encode i) → ∀ n, SafeRun n s

/-! ### The arithmetic -/

/-- R131 with R130's constants: one step of the polymod on numbers, and the fold over a sequence from 1. -/
def Obligations.PolymodStepOnNumbers : Prop :=
  (∀ (c : Acc) (v : Symbol),
    (pmStep c v).toNat =
      (((c.toNat % 2 ^ 25) * 2 ^ 5) ^^^ v.toNat) ^^^
      (if (c.toNat / 2 ^ 25).testBit 0 then 0x3b6a57b2 else 0) ^^^
      (if (c.toNat / 2 ^ 25).testBit 1 then 0x26508e6d else 0) ^^^
      (if (c.toNat / 2 ^ 25).testBit 2 then 0x1ea119fa else 0) ^^^
      (if (c.toNat / 2 ^ 25).testBit 3 then 0x3d4233dd else 0) ^^^
      (if (c.toNat / 2 ^ 25).testBit 4 then 0x2a1462b3 else 0)) ∧
  polymod [] = 1 ∧ (∀ vals v, polymod (vals ++ [v]) = pmStep (polymod vals) v)

/-- The affine law of the polymod (41_polymod.md section 1, R134, the spec's own derivation). -/
def Obligations.PolymodIsAffine : Prop :=
  ∀ a b : List Symbol, a.length = b.length →
    polymod a ^^^ polymod b =
      polymod (List.zipWith (· ^^^ ·) a b) ^^^ polymod (List.replicate a.length 0)

/-- R150: the expansion of an HRP and values, on numbers, and its length. -/
def Obligations.ExpansionLayout : Prop :=
  ∀ (h : List Byte) (d : List Symbol),
    (expand h d).map BitVec.toNat =
      h.map (fun ch => ch.toNat / 32) ++ [0] ++ h.map (fun ch => ch.toNat % 32) ++ d.map BitVec.toNat ∧
    (expand h d).length = 2 * h.length + 1 + d.length

/-- R153: the checksum is six values which, packed most significant first, are the polymod of the expansion with six
zeros, exclusive-or the variant's constant. -/
def Obligations.ChecksumPacksPolymod : Prop :=
  ∀ (h : List Byte) (d : List Symbol) (enc : Variant) (k : Acc),
    (enc = .bech32 ∧ k = 0x00000001) ∨ (enc = .bech32m ∧ k = 0x2bc830a3) →
    ∃ c0 c1 c2 c3 c4 c5 : Symbol, createChecksum enc h d = some [c0, c1, c2, c3, c4, c5] ∧
      c0.toNat * 32 ^ 5 + c1.toNat * 32 ^ 4 + c2.toNat * 32 ^ 3 + c3.toNat * 32 ^ 2 + c4.toNat * 32 + c5.toNat =
        (polymod (expand h d ++ List.replicate 6 0) ^^^ k).toNat

/-- Generator and verifier agree (42_checksum.md section 1, R156, the spec's own derivation). -/
def Obligations.VerifierAcceptsGeneratedChecksum : Prop :=
  ∀ (h : List Byte) (d : List Symbol) (enc : Variant) (ck : List Symbol),
    createChecksum enc h d = some ck → verifyChecksum h (d ++ ck) = enc

/-- What CKGEN leaves in OBUF[0..6), put behind the values in VBUF with the same HRP, CKVER accepts with the variant that
CKGEN used, on the machine itself (42_checksum.md section 1, R156, the spec's own derivation). -/
def Obligations.GeneratedChecksumVerifiesOnTheEngine : Prop :=
  ∀ (enc : Variant) (s t u : State), exec (.ckgen enc) s = .next t → t.err = .ok →
    u.hlen = s.hlen → (∀ k < s.hlen.toNat, u.entry .hbuf k = s.entry .hbuf k) →
    u.vlen.toNat = s.vlen.toNat + 6 → u.vlen.toNat ≤ 256 →
    (∀ k < s.vlen.toNat, u.entry .vbuf k = s.entry .vbuf k) →
    (∀ i < 6, u.entry .vbuf (s.vlen.toNat + i) = t.entry .obuf i) →
    ∃ v, exec .ckver u = .next v ∧ v.err = .ok ∧ v.variant = enc

/-- R112: `index_of` returns the value whose character is the lowercased operand, exactly 55 codes are members, and
`1`, `b`, `i`, `o`, their uppercase forms and every code at or above 0x7B are not. The alphabet is R110's table: its 32
codes, and the uppercase codes that LUTDEC also accepts, with a digit's own code in their place. -/
def Obligations.IndexOfInvertsAlphabet : Prop :=
  charset =
    [0x71, 0x70, 0x7a, 0x72, 0x79, 0x39, 0x78, 0x38, 0x67, 0x66, 0x32, 0x74, 0x76, 0x64, 0x77, 0x30,
     0x73, 0x33, 0x6a, 0x6e, 0x35, 0x34, 0x6b, 0x68, 0x63, 0x65, 0x36, 0x6d, 0x75, 0x61, 0x37, 0x6c] ∧
  ([0x51, 0x50, 0x5a, 0x52, 0x59, 0x39, 0x58, 0x38, 0x47, 0x46, 0x32, 0x54, 0x56, 0x44, 0x57, 0x30,
    0x53, 0x33, 0x4a, 0x4e, 0x35, 0x34, 0x4b, 0x48, 0x43, 0x45, 0x36, 0x4d, 0x55, 0x41, 0x37, 0x4c] : List Byte).map
      indexOf = (List.range 32).map (fun n => some (BitVec.ofNat 5 n)) ∧
  (∀ (ch : Byte) (v : Symbol), indexOf ch = some v ↔ charset[v.toNat]? = some (lower ch)) ∧
  ((List.range 256).filter (fun n => (indexOf (BitVec.ofNat 8 n)).isSome)).length = 55 ∧
  (∀ ch ∈ ([0x31, 0x62, 0x42, 0x69, 0x49, 0x6f, 0x4f] : List Byte), indexOf ch = none) ∧
  (∀ ch : Byte, 0x7B ≤ ch.toNat → indexOf ch = none)

/-- LUTENC followed by LUTDEC of its result, in either letter case, returns the original value
(40_alphabet.md section 2, R116, the spec's own derivation). -/
def Obligations.LookupRoundTrip : Prop :=
  ∀ (v : Byte) (s : State), v.toNat ≤ 31 →
    ∃ t, exec (.lutenc v) s = .next t ∧ t.err = .ok ∧
      (∃ u, exec (.lutdec t.lutr) t = .next u ∧ u.err = .ok ∧ u.lutr = v) ∧
      (∃ u, exec (.lutdec (upper t.lutr)) t = .next u ∧ u.err = .ok ∧ u.lutr = v)

/-- R180 and R181: the regrouper cuts the bit stream of its input into groups, most significant bit first. With
`pad = true` a partial group is completed with zero bits on the right; with `pad = false` it must be shorter than an
input value and all zero. -/
def Obligations.RegroupingCutsTheBitStream : Prop :=
  ∀ (d : List Byte) (f t : Nat), 1 ≤ f → f ≤ 8 → 1 ≤ t → t ≤ 8 → (∀ v ∈ d, v.toNat < 2 ^ f) →
    ∀ (bs left : List Bool) (n r : Nat), bs = bitStream f d → n = bs.length / t → r = bs.length % t →
      left = bs.drop (n * t) →
      bs.length = d.length * f ∧
      (r = 0 → convertBits d f t true = .ok (fullGroups t n bs)) ∧
      (0 < r → convertBits d f t true =
        .ok (fullGroups t n bs ++ [BitVec.ofNat 8 (bitsValue (left ++ List.replicate (t - r) false))])) ∧
      (f ≤ r ∨ true ∈ left → convertBits d f t false = .invalidPadding) ∧
      (r < f → true ∉ left → convertBits d f t false = .ok (fullGroups t n bs))

/-- A value that does not fit its width is INVALID_VALUE before any output, and only such a value is
(43_regroup.md section 1, R182's first line). -/
def Obligations.RegroupingChecksEveryValue : Prop :=
  ∀ (d : List Byte) (f t : Nat) (pad : Bool),
    convertBits d f t pad = .invalidValue ↔ ∃ v ∈ d, 2 ^ f ≤ v.toNat

/-- The output's length and the range of its values (43_regroup.md section 1, R184, the spec's own derivation). -/
def Obligations.RegroupingOutputLength : Prop :=
  ∀ (d : List Byte) (f t : Nat) (pad : Bool) (out : List Byte), 1 ≤ f → f ≤ 8 → 1 ≤ t → t ≤ 8 →
    convertBits d f t pad = .ok out →
    out.length = (if pad then (d.length * f + (t - 1)) / t else d.length * f / t) ∧ ∀ v ∈ out, v.toNat < 2 ^ t

/-- Five to eight bits without padding: it fails whenever the leftover is five bits or more, that is for lengths 1, 3
or 6 modulo 8 (43_regroup.md section 1, R185, the spec's own derivation). -/
def Obligations.FiveToEightFailsByLength : Prop :=
  ∀ d : List Byte, AllSymbols d → d.length % 8 = 1 ∨ d.length % 8 = 3 ∨ d.length % 8 = 6 →
    convertBits d 5 8 false = .invalidPadding

/-- Bytes to 5-bit values and back (43_regroup.md section 1, R186, the spec's own derivation). -/
def Obligations.RegroupingRoundTrip : Prop :=
  ∀ (b d : List Byte), convertBits b 8 5 true = .ok d → convertBits d 5 8 false = .ok b

/-! ### The facade -/

/-- `encode` refuses exactly the variant Invalid, and what it returns is at most 90 characters long
(48_host_facade.md section 2, R204, the spec's own derivation). -/
def Obligations.EncodedLengthIsBounded : Prop :=
  ∀ (enc : Variant) (hrp : Str) (payload : List Byte),
    (facadeEncode enc hrp payload = .refused ↔ enc = .invalid) ∧
    (∀ str, facadeEncode enc hrp payload = .encoded str →
      str.length = hrp.length + (8 * payload.length + 4) / 5 + 7 ∧ str.length ≤ 90)

/-- Decoding an encoded string gives the variant, the HRP in its own case and the payload back
(48_host_facade.md section 4, R222, the spec's own derivation). -/
def Obligations.DecodeOfEncodedString : Prop :=
  ∀ (enc : Variant) (hrp : Str) (payload : List Byte) (str : Str),
    facadeEncode enc hrp payload = .encoded str → facadeDecode str = .decoded enc hrp payload

/-- The uppercase form of a decodable string decodes to the same variant and payload, with the uppercase HRP
(48_host_facade.md section 4, R223, the spec's own derivation). -/
def Obligations.DecodingIgnoresCase : Prop :=
  ∀ (str : Str) (variant : Variant) (hrp : Str) (payload : List Byte),
    facadeDecode str = .decoded variant hrp payload →
    facadeDecode (str.map upper) = .decoded variant (hrp.map upper) payload

/-- What `decode` rejects: a string longer than 90 with TooLong, a shorter one than 8 with MissingSeparator, and a
mixed-case string that passes the length and range checks with MixedCase (48_host_facade.md sections 3 and 4). -/
def Obligations.DecodeRejectsBadStrings : Prop :=
  ∀ str : Str,
    (90 < str.length → facadeDecode str = .error .tooLong) ∧
    (str.length < 8 → facadeDecode str = .error .missingSeparator) ∧
    (8 ≤ str.length → str.length ≤ 90 → (∀ c ∈ str, 33 ≤ c.toNat ∧ c.toNat ≤ 126) →
      (∃ c ∈ str, 0x41 ≤ c.toNat ∧ c.toNat ≤ 0x5A) → (∃ c ∈ str, 0x61 ≤ c.toNat ∧ c.toNat ≤ 0x7A) →
      facadeDecode str = .error .mixedCase)

/-- The encode program on the engine returns what `encode` returns, from every state that takes host operations, and
leaves such a state (48_host_facade.md section 2, R208, the spec's own derivation). -/
def Obligations.EncodeProgramComputesEncode : Prop :=
  ∀ (enc : Variant) (hrp : Str) (payload : List Byte) (s : State), Ready s → s.host = [] →
    ∃ s', encodeProgram enc hrp payload s = .next (s', facadeEncode enc hrp payload) ∧ Ready s' ∧ s'.host = []

/-- The decode program on the engine returns what `decode` returns, for every string and from every state that takes
host operations, and leaves such a state (48_host_facade.md section 3, R221, the spec's own derivation). -/
def Obligations.DecodeProgramComputesDecode : Prop :=
  ∀ (str : Str) (s : State), Ready s → s.host = [] →
    ∃ s', decodeProgram str s = .next (s', facadeDecode str) ∧ Ready s' ∧ s'.host = []
end

