-- ==== Sys2Proof/Laws/Decode.lean ====
section
/-! SUPPORT. The fields of a command word on numbers, the numbers of the encodings, and everything the decoder can
answer. -/

namespace Sys2Proof

@[simp] theorem legalWidth_iff {n : BitVec 4} : legalWidth n = true ↔ 1 ≤ n.toNat ∧ n.toNat ≤ 8 := by
  simp [legalWidth]

theorem zeroBits_iff (w : Word) (hi lo : Nat) : zeroBits w hi lo = true ↔ w.toNat / 2 ^ lo % 2 ^ (hi - lo + 1) = 0 := by
  simp only [zeroBits, beq_iff_eq]
  rw [← BitVec.toNat_inj]
  simp [BitVec.extractLsb'_toNat, Nat.shiftRight_eq_div_pow]

theorem opField_toNat (w : Word) : (opField w).toNat = w.toNat % 16 := by
  simp [opField, BitVec.extractLsb'_toNat]

theorem encField_toNat (w : Word) : (encField w).toNat = w.toNat / 16 % 4 := by
  simp [encField, BitVec.extractLsb'_toNat, Nat.shiftRight_eq_div_pow]

theorem fromField_toNat (w : Word) : (fromField w).toNat = w.toNat / 256 % 16 := by
  simp [fromField, BitVec.extractLsb'_toNat, Nat.shiftRight_eq_div_pow]

theorem toField_toNat (w : Word) : (toField w).toNat = w.toNat / 4096 % 16 := by
  simp [toField, BitVec.extractLsb'_toNat, Nat.shiftRight_eq_div_pow]

theorem opndField_toNat (w : Word) : (opndField w).toNat = w.toNat / 256 % 256 := by
  simp [opndField, BitVec.extractLsb'_toNat, Nat.shiftRight_eq_div_pow]

theorem padField_toNat (w : Word) : (padField w).toNat = w.toNat / 16 % 2 := by
  simp only [padField, BitVec.getLsbD, Nat.toNat_testBit]

/-! ### The numbers of the encodings (R91) -/

@[simp] theorem encode_polymod_toNat : (encode .polymod).toNat = 1 := by decide

@[simp] theorem encode_ckver_toNat : (encode .ckver).toNat = 3 := by decide

@[simp] theorem encode_ckgen_toNat (enc : Variant) : (encode (.ckgen enc)).toNat = 2 + 16 * enc.code.toNat := by
  cases enc <;> decide

/-- The number of two adjacent fields. -/
theorem toNat_append_eq {n m : Nat} (x : BitVec n) (y : BitVec m) : (x ++ y).toNat = x.toNat * 2 ^ m + y.toNat := by
  rw [BitVec.toNat_append, Nat.shiftLeft_eq, Nat.mul_comm, Nat.two_pow_add_eq_or_of_lt y.isLt]

@[simp] theorem encode_convert_toNat (f t : BitVec 4) (pad : Bool) :
    (encode (.convert f t pad)).toNat = 4 + 16 * pad.toNat + 256 * f.toNat + 4096 * t.toNat := by
  simp only [encode, toNat_append_eq, Instr.opcode]
  cases pad <;> simp <;> omega

@[simp] theorem encode_lutenc_toNat (v : Byte) : (encode (.lutenc v)).toNat = 5 + 256 * v.toNat := by
  simp only [encode, toNat_append_eq, Instr.opcode]
  simp
  omega

@[simp] theorem encode_lutdec_toNat (ch : Byte) : (encode (.lutdec ch)).toNat = 6 + 256 * ch.toNat := by
  simp only [encode, toNat_append_eq, Instr.opcode]
  simp
  omega

/-! ### The decoder -/

/-- The decoder's choice by opcode, on numbers. -/
theorem decode_eq (w : Word) :
    decode w =
      match w.toNat % 16 with
      | 1 => decodeN w .polymod
      | 2 => decodeE w
      | 3 => decodeN w .ckver
      | 4 => decodeC w
      | 5 => decodeV w .lutenc
      | 6 => decodeV w .lutdec
      | _ => .error .reservedOpcode := by
  simp only [decode, opField_toNat]
  all_goals rfl

theorem decodeN_eq_ok {w : Word} {i j : Instr} : decodeN w i = .ok j ↔ w.toNat / 16 = 0 ∧ i = j := by
  have hw := w.isLt
  simp only [decodeN]
  split
  · rename_i h
    rw [zeroBits_iff] at h
    simp; omega
  · rename_i h
    rw [zeroBits_iff] at h
    simp; omega

theorem decodeE_eq_ok {w : Word} {j : Instr} : decodeE w = .ok j ↔
    (w.toNat / 16 = 1 ∧ j = .ckgen .bech32) ∨ (w.toNat / 16 = 2 ∧ j = .ckgen .bech32m) := by
  have hw := w.isLt
  simp only [decodeE, encField_toNat]
  split
  · rename_i h
    rw [zeroBits_iff] at h
    have hlt : w.toNat / 16 % 4 = w.toNat / 16 := by omega
    rw [hlt]
    split
    · rename_i h1; simp [h1, eq_comm]
    · rename_i h1; simp [h1, eq_comm]
    · rename_i h1 h2
      have h3 : w.toNat / 16 ≠ 1 := h1
      have h4 : w.toNat / 16 ≠ 2 := h2
      simp [h3, h4]
  · rename_i h
    rw [zeroBits_iff] at h
    simp; omega

theorem decodeC_eq_ok {w : Word} {j : Instr} : decodeC w = .ok j ↔
    w.toNat / 65536 = 0 ∧ w.toNat / 32 % 8 = 0 ∧ legalWidth (fromField w) = true ∧ legalWidth (toField w) = true ∧
      j = .convert (fromField w) (toField w) (padField w) := by
  have hw := w.isLt
  simp only [decodeC, Bool.and_eq_true, zeroBits_iff]
  split
  · rename_i h
    have h1 : w.toNat / 65536 = 0 := by omega
    have h2 : w.toNat / 32 % 8 = 0 := by omega
    split
    · rename_i h'; simp [h1, h2, h'.1, h'.2, eq_comm (a := j), -legalWidth_iff]
    · rename_i h'
      simp only [reduceCtorEq, false_iff]
      tauto
  · rename_i h
    simp only [reduceCtorEq, false_iff]
    omega

theorem decodeV_eq_ok {w : Word} {mk : Byte → Instr} {j : Instr} : decodeV w mk = .ok j ↔
    w.toNat / 65536 = 0 ∧ w.toNat / 16 % 16 = 0 ∧ j = mk (opndField w) := by
  have hw := w.isLt
  simp only [decodeV, Bool.and_eq_true, zeroBits_iff]
  split
  · rename_i h
    have h1 : w.toNat / 65536 = 0 := by omega
    have h2 : w.toNat / 16 % 16 = 0 := by omega
    simp [h1, h2, eq_comm (a := j)]
  · rename_i h
    simp only [reduceCtorEq, false_iff]
    omega

/-- Everything the decoder accepts, with the number of the word. -/
theorem decode_cases {w : Word} {i : Instr} (h : decode w = .ok i) :
    (i = .polymod ∧ w.toNat = 1) ∨ (i = .ckgen .bech32 ∧ w.toNat = 0x12) ∨ (i = .ckgen .bech32m ∧ w.toNat = 0x22) ∨
    (i = .ckver ∧ w.toNat = 3) ∨
    (∃ f t pad, i = .convert f t pad ∧ legalWidth f = true ∧ legalWidth t = true ∧
      w.toNat = 4 + 16 * pad.toNat + 256 * f.toNat + 4096 * t.toNat) ∨
    (∃ v : Byte, i = .lutenc v ∧ w.toNat = 5 + 256 * v.toNat) ∨
    (∃ ch : Byte, i = .lutdec ch ∧ w.toNat = 6 + 256 * ch.toNat) := by
  have hw := w.isLt
  rw [decode_eq] at h
  split at h
  · obtain ⟨hz, rfl⟩ := decodeN_eq_ok.1 h; exact .inl ⟨rfl, by omega⟩
  · rcases decodeE_eq_ok.1 h with ⟨hz, rfl⟩ | ⟨hz, rfl⟩
    · exact .inr (.inl ⟨rfl, by omega⟩)
    · exact .inr (.inr (.inl ⟨rfl, by omega⟩))
  · obtain ⟨hz, rfl⟩ := decodeN_eq_ok.1 h; exact .inr (.inr (.inr (.inl ⟨rfl, by omega⟩)))
  · obtain ⟨hz, hz', hf, ht, rfl⟩ := decodeC_eq_ok.1 h
    refine .inr (.inr (.inr (.inr (.inl ⟨_, _, _, rfl, hf, ht, ?_⟩))))
    rw [padField_toNat, fromField_toNat, toField_toNat]; omega
  · obtain ⟨hz, hz', rfl⟩ := decodeV_eq_ok.1 h
    exact .inr (.inr (.inr (.inr (.inr (.inl ⟨_, rfl, by rw [opndField_toNat]; omega⟩)))))
  · obtain ⟨hz, hz', rfl⟩ := decodeV_eq_ok.1 h
    exact .inr (.inr (.inr (.inr (.inr (.inr ⟨_, rfl, by rw [opndField_toNat]; omega⟩)))))
  · cases h

end Sys2Proof
end

