-- ==== Sys2Proof/Laws/State.lean ====
section
/-! SUPPORT. What each named update of the state does to each field: one lemma per field per update. -/

namespace Sys2Proof.Machine

variable (s : State)

/-! ### setEntry -/

@[simp] theorem State.setEntry_pcmd (b : Buf) (i : Nat) (v : Byte) : (s.setEntry b i v).pcmd = s.pcmd := rfl
@[simp] theorem State.setEntry_err (b : Buf) (i : Nat) (v : Byte) : (s.setEntry b i v).err = s.err := rfl
@[simp] theorem State.setEntry_variant (b : Buf) (i : Nat) (v : Byte) : (s.setEntry b i v).variant = s.variant := rfl
@[simp] theorem State.setEntry_hlen (b : Buf) (i : Nat) (v : Byte) : (s.setEntry b i v).hlen = s.hlen := rfl
@[simp] theorem State.setEntry_vlen (b : Buf) (i : Nat) (v : Byte) : (s.setEntry b i v).vlen = s.vlen := rfl
@[simp] theorem State.setEntry_olen (b : Buf) (i : Nat) (v : Byte) : (s.setEntry b i v).olen = s.olen := rfl
@[simp] theorem State.setEntry_acc (b : Buf) (i : Nat) (v : Byte) : (s.setEntry b i v).acc = s.acc := rfl
@[simp] theorem State.setEntry_lutr (b : Buf) (i : Nat) (v : Byte) : (s.setEntry b i v).lutr = s.lutr := rfl
@[simp] theorem State.setEntry_mem (b : Buf) (i : Nat) (v : Byte) : (s.setEntry b i v).mem = s.mem.write (entryAddr b i) v := rfl
@[simp] theorem State.setEntry_faulted (b : Buf) (i : Nat) (v : Byte) : (s.setEntry b i v).faulted = s.faulted := rfl
@[simp] theorem State.setEntry_host (b : Buf) (i : Nat) (v : Byte) : (s.setEntry b i v).host = s.host := rfl
@[simp] theorem State.setEntry_rdata (b : Buf) (i : Nat) (v : Byte) : (s.setEntry b i v).rdata = s.rdata := rfl
@[simp] theorem State.setEntry_issued (b : Buf) (i : Nat) (v : Byte) : (s.setEntry b i v).issued = s.issued := rfl
@[simp] theorem State.setEntry_wait (b : Buf) (i : Nat) (v : Byte) : (s.setEntry b i v).wait = s.wait := rfl

/-! ### setOutput -/

@[simp] theorem State.setOutput_pcmd (vals : List Byte) : (s.setOutput vals).pcmd = s.pcmd := rfl
@[simp] theorem State.setOutput_err (vals : List Byte) : (s.setOutput vals).err = s.err := rfl
@[simp] theorem State.setOutput_variant (vals : List Byte) : (s.setOutput vals).variant = s.variant := rfl
@[simp] theorem State.setOutput_hlen (vals : List Byte) : (s.setOutput vals).hlen = s.hlen := rfl
@[simp] theorem State.setOutput_vlen (vals : List Byte) : (s.setOutput vals).vlen = s.vlen := rfl
@[simp] theorem State.setOutput_olen (vals : List Byte) : (s.setOutput vals).olen = BitVec.ofNat 9 vals.length := rfl
@[simp] theorem State.setOutput_acc (vals : List Byte) : (s.setOutput vals).acc = s.acc := rfl
@[simp] theorem State.setOutput_lutr (vals : List Byte) : (s.setOutput vals).lutr = s.lutr := rfl
@[simp] theorem State.setOutput_mem (vals : List Byte) : (s.setOutput vals).mem = s.mem.writeEntries .obuf 0 vals := rfl
@[simp] theorem State.setOutput_faulted (vals : List Byte) : (s.setOutput vals).faulted = s.faulted := rfl
@[simp] theorem State.setOutput_host (vals : List Byte) : (s.setOutput vals).host = s.host := rfl
@[simp] theorem State.setOutput_rdata (vals : List Byte) : (s.setOutput vals).rdata = s.rdata := rfl
@[simp] theorem State.setOutput_issued (vals : List Byte) : (s.setOutput vals).issued = s.issued := rfl
@[simp] theorem State.setOutput_wait (vals : List Byte) : (s.setOutput vals).wait = s.wait := rfl

/-! ### setAcc -/

@[simp] theorem State.setAcc_pcmd (c : Acc) : (s.setAcc c).pcmd = s.pcmd := rfl
@[simp] theorem State.setAcc_err (c : Acc) : (s.setAcc c).err = s.err := rfl
@[simp] theorem State.setAcc_variant (c : Acc) : (s.setAcc c).variant = s.variant := rfl
@[simp] theorem State.setAcc_hlen (c : Acc) : (s.setAcc c).hlen = s.hlen := rfl
@[simp] theorem State.setAcc_vlen (c : Acc) : (s.setAcc c).vlen = s.vlen := rfl
@[simp] theorem State.setAcc_olen (c : Acc) : (s.setAcc c).olen = s.olen := rfl
@[simp] theorem State.setAcc_acc (c : Acc) : (s.setAcc c).acc = c := rfl
@[simp] theorem State.setAcc_lutr (c : Acc) : (s.setAcc c).lutr = s.lutr := rfl
@[simp] theorem State.setAcc_mem (c : Acc) : (s.setAcc c).mem = s.mem := rfl
@[simp] theorem State.setAcc_faulted (c : Acc) : (s.setAcc c).faulted = s.faulted := rfl
@[simp] theorem State.setAcc_host (c : Acc) : (s.setAcc c).host = s.host := rfl
@[simp] theorem State.setAcc_rdata (c : Acc) : (s.setAcc c).rdata = s.rdata := rfl
@[simp] theorem State.setAcc_issued (c : Acc) : (s.setAcc c).issued = s.issued := rfl
@[simp] theorem State.setAcc_wait (c : Acc) : (s.setAcc c).wait = s.wait := rfl

/-! ### setLutr -/

@[simp] theorem State.setLutr_pcmd (v : Byte) : (s.setLutr v).pcmd = s.pcmd := rfl
@[simp] theorem State.setLutr_err (v : Byte) : (s.setLutr v).err = s.err := rfl
@[simp] theorem State.setLutr_variant (v : Byte) : (s.setLutr v).variant = s.variant := rfl
@[simp] theorem State.setLutr_hlen (v : Byte) : (s.setLutr v).hlen = s.hlen := rfl
@[simp] theorem State.setLutr_vlen (v : Byte) : (s.setLutr v).vlen = s.vlen := rfl
@[simp] theorem State.setLutr_olen (v : Byte) : (s.setLutr v).olen = s.olen := rfl
@[simp] theorem State.setLutr_acc (v : Byte) : (s.setLutr v).acc = s.acc := rfl
@[simp] theorem State.setLutr_lutr (v : Byte) : (s.setLutr v).lutr = v := rfl
@[simp] theorem State.setLutr_mem (v : Byte) : (s.setLutr v).mem = s.mem := rfl
@[simp] theorem State.setLutr_faulted (v : Byte) : (s.setLutr v).faulted = s.faulted := rfl
@[simp] theorem State.setLutr_host (v : Byte) : (s.setLutr v).host = s.host := rfl
@[simp] theorem State.setLutr_rdata (v : Byte) : (s.setLutr v).rdata = s.rdata := rfl
@[simp] theorem State.setLutr_issued (v : Byte) : (s.setLutr v).issued = s.issued := rfl
@[simp] theorem State.setLutr_wait (v : Byte) : (s.setLutr v).wait = s.wait := rfl

/-! ### setVariant -/

@[simp] theorem State.setVariant_pcmd (v : Variant) : (s.setVariant v).pcmd = s.pcmd := rfl
@[simp] theorem State.setVariant_err (v : Variant) : (s.setVariant v).err = s.err := rfl
@[simp] theorem State.setVariant_variant (v : Variant) : (s.setVariant v).variant = v := rfl
@[simp] theorem State.setVariant_hlen (v : Variant) : (s.setVariant v).hlen = s.hlen := rfl
@[simp] theorem State.setVariant_vlen (v : Variant) : (s.setVariant v).vlen = s.vlen := rfl
@[simp] theorem State.setVariant_olen (v : Variant) : (s.setVariant v).olen = s.olen := rfl
@[simp] theorem State.setVariant_acc (v : Variant) : (s.setVariant v).acc = s.acc := rfl
@[simp] theorem State.setVariant_lutr (v : Variant) : (s.setVariant v).lutr = s.lutr := rfl
@[simp] theorem State.setVariant_mem (v : Variant) : (s.setVariant v).mem = s.mem := rfl
@[simp] theorem State.setVariant_faulted (v : Variant) : (s.setVariant v).faulted = s.faulted := rfl
@[simp] theorem State.setVariant_host (v : Variant) : (s.setVariant v).host = s.host := rfl
@[simp] theorem State.setVariant_rdata (v : Variant) : (s.setVariant v).rdata = s.rdata := rfl
@[simp] theorem State.setVariant_issued (v : Variant) : (s.setVariant v).issued = s.issued := rfl
@[simp] theorem State.setVariant_wait (v : Variant) : (s.setVariant v).wait = s.wait := rfl

/-! ### setHlen -/

@[simp] theorem State.setHlen_pcmd (n : Len) : (s.setHlen n).pcmd = s.pcmd := rfl
@[simp] theorem State.setHlen_err (n : Len) : (s.setHlen n).err = s.err := rfl
@[simp] theorem State.setHlen_variant (n : Len) : (s.setHlen n).variant = s.variant := rfl
@[simp] theorem State.setHlen_hlen (n : Len) : (s.setHlen n).hlen = n := rfl
@[simp] theorem State.setHlen_vlen (n : Len) : (s.setHlen n).vlen = s.vlen := rfl
@[simp] theorem State.setHlen_olen (n : Len) : (s.setHlen n).olen = s.olen := rfl
@[simp] theorem State.setHlen_acc (n : Len) : (s.setHlen n).acc = s.acc := rfl
@[simp] theorem State.setHlen_lutr (n : Len) : (s.setHlen n).lutr = s.lutr := rfl
@[simp] theorem State.setHlen_mem (n : Len) : (s.setHlen n).mem = s.mem := rfl
@[simp] theorem State.setHlen_faulted (n : Len) : (s.setHlen n).faulted = s.faulted := rfl
@[simp] theorem State.setHlen_host (n : Len) : (s.setHlen n).host = s.host := rfl
@[simp] theorem State.setHlen_rdata (n : Len) : (s.setHlen n).rdata = s.rdata := rfl
@[simp] theorem State.setHlen_issued (n : Len) : (s.setHlen n).issued = s.issued := rfl
@[simp] theorem State.setHlen_wait (n : Len) : (s.setHlen n).wait = s.wait := rfl

/-! ### setVlen -/

@[simp] theorem State.setVlen_pcmd (n : Len) : (s.setVlen n).pcmd = s.pcmd := rfl
@[simp] theorem State.setVlen_err (n : Len) : (s.setVlen n).err = s.err := rfl
@[simp] theorem State.setVlen_variant (n : Len) : (s.setVlen n).variant = s.variant := rfl
@[simp] theorem State.setVlen_hlen (n : Len) : (s.setVlen n).hlen = s.hlen := rfl
@[simp] theorem State.setVlen_vlen (n : Len) : (s.setVlen n).vlen = n := rfl
@[simp] theorem State.setVlen_olen (n : Len) : (s.setVlen n).olen = s.olen := rfl
@[simp] theorem State.setVlen_acc (n : Len) : (s.setVlen n).acc = s.acc := rfl
@[simp] theorem State.setVlen_lutr (n : Len) : (s.setVlen n).lutr = s.lutr := rfl
@[simp] theorem State.setVlen_mem (n : Len) : (s.setVlen n).mem = s.mem := rfl
@[simp] theorem State.setVlen_faulted (n : Len) : (s.setVlen n).faulted = s.faulted := rfl
@[simp] theorem State.setVlen_host (n : Len) : (s.setVlen n).host = s.host := rfl
@[simp] theorem State.setVlen_rdata (n : Len) : (s.setVlen n).rdata = s.rdata := rfl
@[simp] theorem State.setVlen_issued (n : Len) : (s.setVlen n).issued = s.issued := rfl
@[simp] theorem State.setVlen_wait (n : Len) : (s.setVlen n).wait = s.wait := rfl

/-! ### latch -/

@[simp] theorem State.latch_pcmd (w : Word) : (s.latch w).pcmd = some w := rfl
@[simp] theorem State.latch_err (w : Word) : (s.latch w).err = s.err := rfl
@[simp] theorem State.latch_variant (w : Word) : (s.latch w).variant = s.variant := rfl
@[simp] theorem State.latch_hlen (w : Word) : (s.latch w).hlen = s.hlen := rfl
@[simp] theorem State.latch_vlen (w : Word) : (s.latch w).vlen = s.vlen := rfl
@[simp] theorem State.latch_olen (w : Word) : (s.latch w).olen = s.olen := rfl
@[simp] theorem State.latch_acc (w : Word) : (s.latch w).acc = s.acc := rfl
@[simp] theorem State.latch_lutr (w : Word) : (s.latch w).lutr = s.lutr := rfl
@[simp] theorem State.latch_mem (w : Word) : (s.latch w).mem = s.mem := rfl
@[simp] theorem State.latch_faulted (w : Word) : (s.latch w).faulted = s.faulted := rfl
@[simp] theorem State.latch_host (w : Word) : (s.latch w).host = s.host := rfl
@[simp] theorem State.latch_rdata (w : Word) : (s.latch w).rdata = s.rdata := rfl
@[simp] theorem State.latch_issued (w : Word) : (s.latch w).issued = s.issued + 1 := rfl
@[simp] theorem State.latch_wait (w : Word) : (s.latch w).wait = Config.latency s.issued := rfl

/-! ### done -/

@[simp] theorem State.done_pcmd (code : ErrCode) : (s.done code).pcmd = none := rfl
@[simp] theorem State.done_err (code : ErrCode) : (s.done code).err = code := rfl
@[simp] theorem State.done_variant (code : ErrCode) : (s.done code).variant = s.variant := rfl
@[simp] theorem State.done_hlen (code : ErrCode) : (s.done code).hlen = s.hlen := rfl
@[simp] theorem State.done_vlen (code : ErrCode) : (s.done code).vlen = s.vlen := rfl
@[simp] theorem State.done_olen (code : ErrCode) : (s.done code).olen = s.olen := rfl
@[simp] theorem State.done_acc (code : ErrCode) : (s.done code).acc = s.acc := rfl
@[simp] theorem State.done_lutr (code : ErrCode) : (s.done code).lutr = s.lutr := rfl
@[simp] theorem State.done_mem (code : ErrCode) : (s.done code).mem = s.mem := rfl
@[simp] theorem State.done_faulted (code : ErrCode) : (s.done code).faulted = s.faulted := rfl
@[simp] theorem State.done_host (code : ErrCode) : (s.done code).host = s.host := rfl
@[simp] theorem State.done_rdata (code : ErrCode) : (s.done code).rdata = s.rdata := rfl
@[simp] theorem State.done_issued (code : ErrCode) : (s.done code).issued = s.issued := rfl
@[simp] theorem State.done_wait (code : ErrCode) : (s.done code).wait = 0 := rfl

/-! ### markFaulted -/

@[simp] theorem State.markFaulted_pcmd : s.markFaulted.pcmd = s.pcmd := rfl
@[simp] theorem State.markFaulted_err : s.markFaulted.err = s.err := rfl
@[simp] theorem State.markFaulted_variant : s.markFaulted.variant = s.variant := rfl
@[simp] theorem State.markFaulted_hlen : s.markFaulted.hlen = s.hlen := rfl
@[simp] theorem State.markFaulted_vlen : s.markFaulted.vlen = s.vlen := rfl
@[simp] theorem State.markFaulted_olen : s.markFaulted.olen = s.olen := rfl
@[simp] theorem State.markFaulted_acc : s.markFaulted.acc = s.acc := rfl
@[simp] theorem State.markFaulted_lutr : s.markFaulted.lutr = s.lutr := rfl
@[simp] theorem State.markFaulted_mem : s.markFaulted.mem = s.mem := rfl
@[simp] theorem State.markFaulted_faulted : s.markFaulted.faulted = true := rfl
@[simp] theorem State.markFaulted_host : s.markFaulted.host = s.host := rfl
@[simp] theorem State.markFaulted_rdata : s.markFaulted.rdata = s.rdata := rfl
@[simp] theorem State.markFaulted_issued : s.markFaulted.issued = s.issued := rfl
@[simp] theorem State.markFaulted_wait : s.markFaulted.wait = s.wait := rfl

/-! ### advance -/

@[simp] theorem State.advance_pcmd : s.advance.pcmd = s.pcmd := rfl
@[simp] theorem State.advance_err : s.advance.err = s.err := rfl
@[simp] theorem State.advance_variant : s.advance.variant = s.variant := rfl
@[simp] theorem State.advance_hlen : s.advance.hlen = s.hlen := rfl
@[simp] theorem State.advance_vlen : s.advance.vlen = s.vlen := rfl
@[simp] theorem State.advance_olen : s.advance.olen = s.olen := rfl
@[simp] theorem State.advance_acc : s.advance.acc = s.acc := rfl
@[simp] theorem State.advance_lutr : s.advance.lutr = s.lutr := rfl
@[simp] theorem State.advance_mem : s.advance.mem = s.mem := rfl
@[simp] theorem State.advance_faulted : s.advance.faulted = s.faulted := rfl
@[simp] theorem State.advance_host : s.advance.host = s.host.tail := rfl
@[simp] theorem State.advance_rdata : s.advance.rdata = s.rdata := rfl
@[simp] theorem State.advance_issued : s.advance.issued = s.issued := rfl
@[simp] theorem State.advance_wait : s.advance.wait = s.wait - 1 := rfl

/-! ### pollAgain -/

@[simp] theorem State.pollAgain_pcmd : s.pollAgain.pcmd = s.pcmd := rfl
@[simp] theorem State.pollAgain_err : s.pollAgain.err = s.err := rfl
@[simp] theorem State.pollAgain_variant : s.pollAgain.variant = s.variant := rfl
@[simp] theorem State.pollAgain_hlen : s.pollAgain.hlen = s.hlen := rfl
@[simp] theorem State.pollAgain_vlen : s.pollAgain.vlen = s.vlen := rfl
@[simp] theorem State.pollAgain_olen : s.pollAgain.olen = s.olen := rfl
@[simp] theorem State.pollAgain_acc : s.pollAgain.acc = s.acc := rfl
@[simp] theorem State.pollAgain_lutr : s.pollAgain.lutr = s.lutr := rfl
@[simp] theorem State.pollAgain_mem : s.pollAgain.mem = s.mem := rfl
@[simp] theorem State.pollAgain_faulted : s.pollAgain.faulted = s.faulted := rfl
@[simp] theorem State.pollAgain_host : s.pollAgain.host = s.host := rfl
@[simp] theorem State.pollAgain_rdata : s.pollAgain.rdata = s.rdata := rfl
@[simp] theorem State.pollAgain_issued : s.pollAgain.issued = s.issued := rfl
@[simp] theorem State.pollAgain_wait : s.pollAgain.wait = s.wait - 1 := rfl

/-! ### setRdata -/

@[simp] theorem State.setRdata_pcmd (w : Word) : (s.setRdata w).pcmd = s.pcmd := rfl
@[simp] theorem State.setRdata_err (w : Word) : (s.setRdata w).err = s.err := rfl
@[simp] theorem State.setRdata_variant (w : Word) : (s.setRdata w).variant = s.variant := rfl
@[simp] theorem State.setRdata_hlen (w : Word) : (s.setRdata w).hlen = s.hlen := rfl
@[simp] theorem State.setRdata_vlen (w : Word) : (s.setRdata w).vlen = s.vlen := rfl
@[simp] theorem State.setRdata_olen (w : Word) : (s.setRdata w).olen = s.olen := rfl
@[simp] theorem State.setRdata_acc (w : Word) : (s.setRdata w).acc = s.acc := rfl
@[simp] theorem State.setRdata_lutr (w : Word) : (s.setRdata w).lutr = s.lutr := rfl
@[simp] theorem State.setRdata_mem (w : Word) : (s.setRdata w).mem = s.mem := rfl
@[simp] theorem State.setRdata_faulted (w : Word) : (s.setRdata w).faulted = s.faulted := rfl
@[simp] theorem State.setRdata_host (w : Word) : (s.setRdata w).host = s.host := rfl
@[simp] theorem State.setRdata_rdata (w : Word) : (s.setRdata w).rdata = some w := rfl
@[simp] theorem State.setRdata_issued (w : Word) : (s.setRdata w).issued = s.issued := rfl
@[simp] theorem State.setRdata_wait (w : Word) : (s.setRdata w).wait = s.wait := rfl

/-! ### setHost -/

@[simp] theorem State.setHost_pcmd (ops : List HostOp) : (s.setHost ops).pcmd = s.pcmd := rfl
@[simp] theorem State.setHost_err (ops : List HostOp) : (s.setHost ops).err = s.err := rfl
@[simp] theorem State.setHost_variant (ops : List HostOp) : (s.setHost ops).variant = s.variant := rfl
@[simp] theorem State.setHost_hlen (ops : List HostOp) : (s.setHost ops).hlen = s.hlen := rfl
@[simp] theorem State.setHost_vlen (ops : List HostOp) : (s.setHost ops).vlen = s.vlen := rfl
@[simp] theorem State.setHost_olen (ops : List HostOp) : (s.setHost ops).olen = s.olen := rfl
@[simp] theorem State.setHost_acc (ops : List HostOp) : (s.setHost ops).acc = s.acc := rfl
@[simp] theorem State.setHost_lutr (ops : List HostOp) : (s.setHost ops).lutr = s.lutr := rfl
@[simp] theorem State.setHost_mem (ops : List HostOp) : (s.setHost ops).mem = s.mem := rfl
@[simp] theorem State.setHost_faulted (ops : List HostOp) : (s.setHost ops).faulted = s.faulted := rfl
@[simp] theorem State.setHost_host (ops : List HostOp) : (s.setHost ops).host = ops := rfl
@[simp] theorem State.setHost_rdata (ops : List HostOp) : (s.setHost ops).rdata = s.rdata := rfl
@[simp] theorem State.setHost_issued (ops : List HostOp) : (s.setHost ops).issued = s.issued := rfl
@[simp] theorem State.setHost_wait (ops : List HostOp) : (s.setHost ops).wait = s.wait := rfl

/-! ### placeCommand -/

@[simp] theorem State.placeCommand_pcmd (w : Word) : (s.placeCommand w).pcmd = some w := rfl
@[simp] theorem State.placeCommand_err (w : Word) : (s.placeCommand w).err = s.err := rfl
@[simp] theorem State.placeCommand_variant (w : Word) : (s.placeCommand w).variant = s.variant := rfl
@[simp] theorem State.placeCommand_hlen (w : Word) : (s.placeCommand w).hlen = s.hlen := rfl
@[simp] theorem State.placeCommand_vlen (w : Word) : (s.placeCommand w).vlen = s.vlen := rfl
@[simp] theorem State.placeCommand_olen (w : Word) : (s.placeCommand w).olen = s.olen := rfl
@[simp] theorem State.placeCommand_acc (w : Word) : (s.placeCommand w).acc = s.acc := rfl
@[simp] theorem State.placeCommand_lutr (w : Word) : (s.placeCommand w).lutr = s.lutr := rfl
@[simp] theorem State.placeCommand_mem (w : Word) : (s.placeCommand w).mem = s.mem := rfl
@[simp] theorem State.placeCommand_faulted (w : Word) : (s.placeCommand w).faulted = s.faulted := rfl
@[simp] theorem State.placeCommand_host (w : Word) : (s.placeCommand w).host = s.host := rfl
@[simp] theorem State.placeCommand_rdata (w : Word) : (s.placeCommand w).rdata = s.rdata := rfl
@[simp] theorem State.placeCommand_issued (w : Word) : (s.placeCommand w).issued = s.issued := rfl
@[simp] theorem State.placeCommand_wait (w : Word) : (s.placeCommand w).wait = 0 := rfl

/-! ### resetEvent -/

@[simp] theorem State.resetEvent_pcmd : s.resetEvent.pcmd = none := rfl
@[simp] theorem State.resetEvent_err : s.resetEvent.err = .ok := rfl
@[simp] theorem State.resetEvent_variant : s.resetEvent.variant = .invalid := rfl
@[simp] theorem State.resetEvent_hlen : s.resetEvent.hlen = 0 := rfl
@[simp] theorem State.resetEvent_vlen : s.resetEvent.vlen = 0 := rfl
@[simp] theorem State.resetEvent_olen : s.resetEvent.olen = 0 := rfl
@[simp] theorem State.resetEvent_acc : s.resetEvent.acc = 1 := rfl
@[simp] theorem State.resetEvent_lutr : s.resetEvent.lutr = 0 := rfl
@[simp] theorem State.resetEvent_mem : s.resetEvent.mem = [] := rfl
@[simp] theorem State.resetEvent_faulted : s.resetEvent.faulted = s.faulted := rfl
@[simp] theorem State.resetEvent_host : s.resetEvent.host = s.host := rfl
@[simp] theorem State.resetEvent_rdata : s.resetEvent.rdata = s.rdata := rfl
@[simp] theorem State.resetEvent_issued : s.resetEvent.issued = s.issued := rfl
@[simp] theorem State.resetEvent_wait : s.resetEvent.wait = 0 := rfl

end Sys2Proof.Machine
end

