-- ==== Sys2Proof/Laws/Memory.lean ====
section
/-! SUPPORT. The laws of the buffers' memory: a read after a write, canonical form, and the block reads and writes of a
buffer. -/

namespace Sys2Proof.Machine

/-! ### One byte -/

@[simp] theorem Memory.read_nil (a : Nat) : Memory.read [] a = none := rfl

theorem Memory.read_cons (k : Nat) (v : Byte) (rest : Memory) (a : Nat) :
    Memory.read ((k, v) :: rest) a = if k = a then some v else Memory.read rest a := rfl

@[simp] theorem Memory.read_write_same (m : Memory) (a : Nat) (b : Byte) : (m.write a b).read a = some b := by
  induction m with
  | nil => simp [Memory.write, Memory.read]
  | cons c rest ih =>
    obtain ⟨k, v⟩ := c
    simp only [Memory.write]
    split
    · simp [Memory.read]
    · split
      · simp [Memory.read]
      · rename_i h
        simp [Memory.read_cons, Ne.symm h, ih]

@[simp] theorem Memory.read_write_other (m : Memory) {a x : Nat} (b : Byte) (hx : x ≠ a) :
    (m.write a b).read x = m.read x := by
  induction m with
  | nil => simp [Memory.write, Memory.read_cons, hx.symm]
  | cons c rest ih =>
    obtain ⟨k, v⟩ := c
    simp only [Memory.write]
    split
    · simp [Memory.read_cons, hx.symm]
    · split
      · rename_i h
        subst h
        simp [Memory.read_cons, hx.symm]
      · simp [Memory.read_cons, ih]

theorem Memory.read_write (m : Memory) (a x : Nat) (b : Byte) :
    (m.write a b).read x = if x = a then some b else m.read x := by
  split
  · rename_i h; subst h; simp
  · rename_i h; simp [h]

theorem Memory.mem_write {m : Memory} {a : Nat} {b : Byte} {c : Host.Cell} (h : c ∈ m.write a b) :
    c = (a, b) ∨ c ∈ m := by
  induction m with
  | nil => simpa [Memory.write] using h
  | cons d rest ih =>
    obtain ⟨k, v⟩ := d
    simp only [Memory.write] at h
    split at h
    · simpa using h
    · split at h
      · rcases List.mem_cons.1 h with h | h
        · exact .inl h
        · exact .inr (List.mem_cons_of_mem _ h)
      · rcases List.mem_cons.1 h with h | h
        · exact .inr (h ▸ List.mem_cons_self)
        · exact (ih h).imp_right (List.mem_cons_of_mem _)

/-- A write keeps the canonical form. -/
theorem Memory.write_wf {m : Memory} (a : Nat) (b : Byte) (h : m.wf) : (m.write a b).wf := by
  induction m with
  | nil => simp [Memory.write, Memory.wf]
  | cons d rest ih =>
    obtain ⟨k, v⟩ := d
    have hd : ∀ c ∈ rest, k < c.1 := (List.pairwise_cons.1 h).1
    have hr : Memory.wf rest := (List.pairwise_cons.1 h).2
    simp only [Memory.write]
    split
    · rename_i hlt
      refine List.pairwise_cons.2 ⟨fun c hc => ?_, h⟩
      rcases List.mem_cons.1 hc with rfl | hc
      · exact hlt
      · exact Nat.lt_trans hlt (hd c hc)
    · split
      · rename_i heq
        subst heq
        exact List.pairwise_cons.2 ⟨hd, hr⟩
      · rename_i hnlt hne
        refine List.pairwise_cons.2 ⟨fun c hc => ?_, ih hr⟩
        rcases Memory.mem_write hc with rfl | hc
        · show k < a; omega
        · exact hd c hc

/-! ### Entry addresses -/

theorem entryAddr_inj {b : Buf} {i j : Nat} (h : entryAddr b i = entryAddr b j) : i = j := by
  simp only [entryAddr] at h; omega

@[simp] theorem entryAddr_eq_iff {b : Buf} {i j : Nat} : entryAddr b i = entryAddr b j ↔ i = j :=
  ⟨entryAddr_inj, fun h => h ▸ rfl⟩

/-- Entries of different buffers, or different entries of one, lie at different offsets (R62). -/
theorem entryAddr_ne {b b' : Buf} {i j : Nat} (hi : i < 256) (hj : j < 256) (h : b ≠ b' ∨ i ≠ j) :
    entryAddr b i ≠ entryAddr b' j := by
  intro he
  cases b <;> cases b' <;> simp only [entryAddr, Buf.base] at he <;> rcases h with h | h <;>
    first | exact h rfl | omega

theorem entryAddr_obuf_ge (i : Nat) : 0xC00 ≤ entryAddr .obuf i := by simp only [entryAddr, Buf.base]; omega

theorem entryAddr_entryOffset (b : Buf) {i : Nat} (hi : i < 256) : EntryOffset (entryAddr b i) := by
  cases b <;> simp only [EntryOffset, entryAddr, Buf.base] <;> omega

/-! ### Blocks of entries -/

theorem Memory.read_writeEntries_other {vals : List Byte} {m : Memory} {b : Buf} {i x : Nat}
    (hx : ∀ k < vals.length, x ≠ entryAddr b (i + k)) : (m.writeEntries b i vals).read x = m.read x := by
  induction vals generalizing m i with
  | nil => rfl
  | cons v rest ih =>
    have h0 : x ≠ entryAddr b i := by simpa using hx 0 (by simp)
    have hr : ∀ k < rest.length, x ≠ entryAddr b (i + 1 + k) := fun k hk => by
      have := hx (k + 1) (by simpa using hk)
      rwa [show i + (k + 1) = i + 1 + k by omega] at this
    rw [Memory.writeEntries, ih hr, Memory.read_write_other _ _ h0]

theorem Memory.read_writeEntries_same {vals : List Byte} {m : Memory} {b : Buf} {i k : Nat} (hk : k < vals.length) :
    (m.writeEntries b i vals).read (entryAddr b (i + k)) = vals[k]? := by
  induction vals generalizing m i k with
  | nil => simp at hk
  | cons v rest ih =>
    rw [Memory.writeEntries]
    cases k with
    | zero =>
      rw [Memory.read_writeEntries_other (fun j _ => by simp only [ne_eq, entryAddr_eq_iff]; omega)]
      simp
    | succ k =>
      rw [show i + (k + 1) = i + 1 + k by omega, ih (by simpa using hk)]
      simp

theorem Memory.mem_writeEntries {vals : List Byte} {m : Memory} {b : Buf} {i : Nat} {c : Host.Cell}
    (h : c ∈ m.writeEntries b i vals) : (∃ k < vals.length, c.1 = entryAddr b (i + k)) ∨ c ∈ m := by
  induction vals generalizing m i with
  | nil => exact .inr h
  | cons v rest ih =>
    rcases ih h with ⟨k, hk, hc⟩ | hc
    · exact .inl ⟨k + 1, by simpa using hk, by rw [hc]; congr 1; omega⟩
    · rcases Memory.mem_write hc with rfl | hc
      · exact .inl ⟨0, by simp, by simp⟩
      · exact .inr hc

/-- A block write keeps the canonical form. -/
theorem Memory.writeEntries_wf {m : Memory} (b : Buf) (i : Nat) (vals : List Byte) (h : m.wf) :
    (m.writeEntries b i vals).wf := by
  induction vals generalizing m i with
  | nil => exact h
  | cons v rest ih => exact ih _ (Memory.write_wf _ _ h)

/-- A block read answers exactly when every entry is written, with their values in order. -/
theorem Memory.readEntries_eq_some {m : Memory} {b : Buf} {i n : Nat} {vals : List Byte} :
    m.readEntries b i n = some vals ↔ vals.length = n ∧ ∀ k < n, m.read (entryAddr b (i + k)) = vals[k]? := by
  induction n generalizing i vals with
  | zero => simp [Memory.readEntries, eq_comm (a := []), List.length_eq_zero_iff]
  | succ n ih =>
    rw [Memory.readEntries]
    constructor
    · intro h
      split at h
      · rename_i v rest hv hrest
        obtain ⟨hl, hk⟩ := ih.1 hrest
        cases h
        refine ⟨by simp [hl], fun k hkn => ?_⟩
        cases k with
        | zero => simpa using hv
        | succ k =>
          rw [show i + (k + 1) = i + 1 + k by omega]
          simpa using hk k (by omega)
      · cases h
    · rintro ⟨hl, hk⟩
      cases vals with
      | nil => simp at hl
      | cons v rest =>
        have h0 : m.read (entryAddr b i) = some v := by simpa using hk 0 (by omega)
        have hr : m.readEntries b (i + 1) n = some rest := ih.2 ⟨by simpa using hl, fun k hkn => by
          rw [show i + 1 + k = i + (k + 1) by omega]
          simpa using hk (k + 1) (by omega)⟩
        simp [h0, hr]

theorem Memory.readEntries_eq_none {m : Memory} {b : Buf} {i n : Nat} :
    m.readEntries b i n = none ↔ ∃ k < n, m.read (entryAddr b (i + k)) = none := by
  induction n generalizing i with
  | zero => simp [Memory.readEntries]
  | succ n ih =>
    rw [Memory.readEntries]
    constructor
    · intro h
      cases hv : m.read (entryAddr b i) with
      | none => exact ⟨0, by omega, by simpa using hv⟩
      | some v =>
        cases hr : m.readEntries b (i + 1) n with
        | some rest => simp [hv, hr] at h
        | none =>
          obtain ⟨k, hk, hn⟩ := ih.1 hr
          exact ⟨k + 1, by omega, by rwa [show i + (k + 1) = i + 1 + k by omega]⟩
    · rintro ⟨k, hk, hn⟩
      cases k with
      | zero => simp at hn; simp [hn]
      | succ k =>
        have : m.readEntries b (i + 1) n = none :=
          ih.2 ⟨k, by omega, by rwa [show i + 1 + k = i + (k + 1) by omega]⟩
        simp [this]

/-! ### The state's entries -/

theorem State.entry_def (s : State) (b : Buf) (i : Nat) : s.entry b i = s.mem.read (entryAddr b i) := rfl

/-- Two states with the same memory have the same entries. -/
theorem State.entry_congr {s s' : State} (h : s'.mem = s.mem) (b : Buf) (i : Nat) : s'.entry b i = s.entry b i := by
  simp only [State.entry_def, h]

theorem State.valueInput_eq_some {s : State} {vals : List Byte} :
    s.valueInput = some vals ↔ vals.length = s.vlen.toNat ∧ Loaded s .vbuf vals := by
  rw [State.valueInput, Memory.readEntries_eq_some]
  constructor
  · rintro ⟨hl, h⟩; exact ⟨hl, fun k hk => by simpa [State.entry_def] using h k (by omega)⟩
  · rintro ⟨hl, h⟩; exact ⟨hl, fun k hk => by simpa [State.entry_def] using h k (by omega)⟩

theorem State.hrpInput_eq_some {s : State} {h : List Byte} :
    s.hrpInput = some h ↔ h.length = s.hlen.toNat ∧ Loaded s .hbuf h := by
  rw [State.hrpInput, Memory.readEntries_eq_some]
  constructor
  · rintro ⟨hl, h⟩; exact ⟨hl, fun k hk => by simpa [State.entry_def] using h k (by omega)⟩
  · rintro ⟨hl, h⟩; exact ⟨hl, fun k hk => by simpa [State.entry_def] using h k (by omega)⟩

theorem State.valueInput_eq_none {s : State} : s.valueInput = none ↔ ¬ WrittenUpTo s .vbuf s.vlen.toNat := by
  simp [State.valueInput, Memory.readEntries_eq_none, State.entry_def, Option.isSome_iff_ne_none]

theorem State.hrpInput_eq_none {s : State} : s.hrpInput = none ↔ ¬ WrittenUpTo s .hbuf s.hlen.toNat := by
  simp [State.hrpInput, Memory.readEntries_eq_none, State.entry_def, Option.isSome_iff_ne_none]

end Sys2Proof.Machine
end

