-- ==== Sys2Proof/Laws/Exec.lean ====
section
/-! SUPPORT. One lemma per shared operation of the commands, saying once everything it can do, and from them what each
command can do. -/

namespace Sys2Proof.Machine

/-! ### Ends of a step -/

@[simp] theorem finish_eq_next {code : ErrCode} {s t : State} : finish code s = .next t ↔ s.done code = t := by
  simp [finish]

@[simp] theorem finish_ne_fault {code : ErrCode} {s : State} {f : Fault} : finish code s ≠ .fault f := by simp [finish]

@[simp] theorem finish_ne_refused {code : ErrCode} {s : State} {r : Refusal} : finish code s ≠ .refused r := by
  simp [finish]

@[simp] theorem raise_ne_next {r : ProtocolReason} {s t : State} : raise r s ≠ .next t := by simp [raise]

@[simp] theorem raise_eq_fault {r : ProtocolReason} {s : State} {f : Fault} :
    raise r s = .fault f ↔ .protocol r s.markFaulted = f := by simp [raise]

@[simp] theorem raise_ne_refused {r : ProtocolReason} {s : State} {x : Refusal} : raise r s ≠ .refused x := by
  simp [raise]

/-! ### Input checks -/

@[simp] theorem tooLong_iff {n : Len} : tooLong n = true ↔ 256 < n.toNat := decide_eq_true_iff

theorem tooLong_eq_false {n : Len} : tooLong n = false ↔ n.toNat ≤ 256 := by
  rw [← Bool.not_eq_true, tooLong_iff]; omega

theorem toSymbols_of_all {vals : List Byte} (h : AllSymbols vals) : toSymbols vals = some (symbolsOf vals) := by
  simp only [toSymbols, symbolsOf]
  rw [if_pos]
  simpa using h

theorem toSymbols_eq_none {vals : List Byte} : toSymbols vals = none ↔ ¬ AllSymbols vals := by
  simp [toSymbols, AllSymbols]

theorem toSymbols_eq_some {vals : List Byte} {syms : List Symbol} :
    toSymbols vals = some syms ↔ AllSymbols vals ∧ symbolsOf vals = syms := by
  constructor
  · intro h
    by_cases ha : AllSymbols vals
    · rw [toSymbols_of_all ha] at h
      exact ⟨ha, by simpa using h⟩
    · rw [toSymbols_eq_none.2 ha] at h
      cases h
  · rintro ⟨ha, rfl⟩; exact toSymbols_of_all ha

@[simp] theorem symbolsOf_length (vals : List Byte) : (symbolsOf vals).length = vals.length := by simp [symbolsOf]

@[simp] theorem fromSymbols_length (syms : List Symbol) : (fromSymbols syms).length = syms.length := by
  simp [fromSymbols]

/-- 5-bit values survive the way through buffer entries. -/
@[simp] theorem symbolsOf_fromSymbols (syms : List Symbol) : symbolsOf (fromSymbols syms) = syms := by
  simp only [symbolsOf, fromSymbols, List.map_map]
  conv_rhs => rw [← List.map_id syms]
  refine List.map_congr_left fun v _ => ?_
  apply BitVec.eq_of_toNat_eq
  have := v.isLt
  simp only [Function.comp, BitVec.toNat_setWidth, id]
  omega

theorem allSymbols_fromSymbols (syms : List Symbol) : AllSymbols (fromSymbols syms) := by
  intro v hv
  simp only [fromSymbols, List.mem_map] at hv
  obtain ⟨x, _, rfl⟩ := hv
  have := x.isLt
  simp only [BitVec.toNat_setWidth]
  omega

/-! ### The inputs of CKGEN and CKVER -/

section
variable {s : State} {k : List Byte → List Symbol → Result}

theorem withChecksumInput_tooLong (h : 256 < s.hlen.toNat ∨ 256 < s.vlen.toNat) :
    withChecksumInput s k = finish .badLength s := by
  simp only [withChecksumInput]
  rw [if_pos]
  simpa [tooLong_iff] using h

theorem withChecksumInput_unwritten (hh : s.hlen.toNat ≤ 256) (hv : s.vlen.toNat ≤ 256)
    (h : ¬ (WrittenUpTo s .hbuf s.hlen.toNat ∧ WrittenUpTo s .vbuf s.vlen.toNat)) :
    withChecksumInput s k = raise .unwrittenEntry s := by
  simp only [withChecksumInput]
  rw [if_neg (by simp; omega)]
  split
  · rename_i hs vs h1 h2
    refine absurd ⟨?_, ?_⟩ h
    · by_contra hc; rw [State.hrpInput_eq_none.2 hc] at h1; cases h1
    · by_contra hc; rw [State.valueInput_eq_none.2 hc] at h2; cases h2
  · rfl

theorem withChecksumInput_loaded {h vals : List Byte} (hh : s.hlen.toNat ≤ 256) (hv : s.vlen.toNat ≤ 256)
    (hl : h.length = s.hlen.toNat) (hb : Loaded s .hbuf h) (vl : vals.length = s.vlen.toNat)
    (vb : Loaded s .vbuf vals) :
    withChecksumInput s k =
      match toSymbols vals with
      | none => finish .invalidValue s
      | some syms => k h syms := by
  simp only [withChecksumInput]
  rw [if_neg (by simp; omega), State.hrpInput_eq_some.2 ⟨hl, hb⟩, State.valueInput_eq_some.2 ⟨vl, vb⟩]
  all_goals rfl

/-- Everything the input stage of CKGEN and CKVER can do. -/
theorem withChecksumInput_cases (s : State) (k : List Byte → List Symbol → Result) :
    (withChecksumInput s k = finish .badLength s ∧ (256 < s.hlen.toNat ∨ 256 < s.vlen.toNat)) ∨
    (withChecksumInput s k = raise .unwrittenEntry s ∧ s.hlen.toNat ≤ 256 ∧ s.vlen.toNat ≤ 256 ∧
      ¬ (WrittenUpTo s .hbuf s.hlen.toNat ∧ WrittenUpTo s .vbuf s.vlen.toNat)) ∨
    (∃ h vals, s.hlen.toNat ≤ 256 ∧ s.vlen.toNat ≤ 256 ∧ s.hrpInput = some h ∧ s.valueInput = some vals ∧
      ((¬ AllSymbols vals ∧ withChecksumInput s k = finish .invalidValue s) ∨
        (AllSymbols vals ∧ withChecksumInput s k = k h (symbolsOf vals)))) := by
  by_cases h1 : 256 < s.hlen.toNat ∨ 256 < s.vlen.toNat
  · exact .inl ⟨withChecksumInput_tooLong h1, h1⟩
  have hh : s.hlen.toNat ≤ 256 := by omega
  have hv : s.vlen.toNat ≤ 256 := by omega
  refine .inr ?_
  by_cases h2 : WrittenUpTo s .hbuf s.hlen.toNat ∧ WrittenUpTo s .vbuf s.vlen.toNat
  · refine .inr ?_
    cases h3 : s.hrpInput with
    | none => exact absurd h2.1 (State.hrpInput_eq_none.1 h3)
    | some h =>
      cases h4 : s.valueInput with
      | none => exact absurd h2.2 (State.valueInput_eq_none.1 h4)
      | some vals =>
        obtain ⟨hl, hb⟩ := State.hrpInput_eq_some.1 h3
        obtain ⟨vl, vb⟩ := State.valueInput_eq_some.1 h4
        refine ⟨h, vals, hh, hv, rfl, rfl, ?_⟩
        rw [withChecksumInput_loaded hh hv hl hb vl vb]
        by_cases ha : AllSymbols vals
        · exact .inr ⟨ha, by rw [toSymbols_of_all ha]⟩
        · exact .inl ⟨ha, by rw [toSymbols_eq_none.2 ha]⟩
  · exact .inl ⟨withChecksumInput_unwritten hh hv h2, hh, hv, h2⟩

end

/-! ### POLYMOD -/

theorem execPolymod_cases (s : State) :
    (execPolymod s = finish .badLength s ∧ 256 < s.vlen.toNat) ∨
    (execPolymod s = raise .unwrittenEntry s ∧ s.vlen.toNat ≤ 256 ∧ ¬ WrittenUpTo s .vbuf s.vlen.toNat) ∨
    (∃ vals, s.vlen.toNat ≤ 256 ∧ s.valueInput = some vals ∧
      ((¬ AllSymbols vals ∧ execPolymod s = finish .invalidValue s) ∨
        (AllSymbols vals ∧ execPolymod s = finish .ok (s.setAcc (polymod (symbolsOf vals)))))) := by
  simp only [execPolymod]
  by_cases h : 256 < s.vlen.toNat
  · exact .inl ⟨by rw [if_pos (tooLong_iff.2 h)], h⟩
  have hv : s.vlen.toNat ≤ 256 := by omega
  rw [if_neg (by simpa using hv)]
  cases h1 : s.valueInput with
  | none => exact .inr (.inl ⟨rfl, hv, State.valueInput_eq_none.1 h1⟩)
  | some vals =>
    refine .inr (.inr ⟨vals, hv, rfl, ?_⟩)
    by_cases ha : AllSymbols vals
    · exact .inr ⟨ha, by simp [toSymbols_of_all ha]⟩
    · exact .inl ⟨ha, by simp [toSymbols_eq_none.2 ha]⟩

/-! ### CKGEN and CKVER -/

theorem execCkgen_invalid (s : State) : execCkgen .invalid s = finish .illegalCommand s := rfl

theorem execCkgen_of_constant {enc : Variant} {k : Acc} (hk : checksumConstant enc = some k) (s : State) :
    execCkgen enc s =
      withChecksumInput s (fun h d =>
        finish .ok ((s.setOutput (fromSymbols (checksumGroups (checksumWord k h d)))).setAcc (checksumWord k h d))) := by
  simp only [execCkgen, hk]

theorem execCkver_eq (s : State) :
    execCkver s =
      withChecksumInput s (fun h v =>
        if v.length < 6 then finish .checksumMismatch (s.setVariant .invalid)
        else if matchVariant (polymod (expand h v)) = .invalid then
          finish .checksumMismatch ((s.setAcc (polymod (expand h v))).setVariant .invalid)
        else finish .ok ((s.setAcc (polymod (expand h v))).setVariant (matchVariant (polymod (expand h v))))) := by
  unfold execCkver
  congr 1
  funext h v
  split
  · rfl
  · dsimp only
    cases matchVariant (polymod (expand h v)) <;> rfl

theorem matchVariant_bech32 : matchVariant 0x00000001 = .bech32 := by decide
theorem matchVariant_bech32m : matchVariant 0x2bc830a3 = .bech32m := by decide

theorem matchVariant_eq_invalid {p : Acc} : matchVariant p = .invalid ↔ p ≠ 0x00000001 ∧ p ≠ 0x2bc830a3 := by
  simp only [matchVariant, checksumConstant, Option.some.injEq]
  split
  · rename_i h; simp [← h]
  · split
    · rename_i h; simp [← h]
    · rename_i h1 h2; exact ⟨fun _ => ⟨fun h => h1 h.symm, fun h => h2 h.symm⟩, fun _ => rfl⟩

/-! ### CONVERT -/

theorem storeRegrouped_cases (out : List Byte) (s : State) :
    (storeRegrouped out s = finish .badLength s ∧ 256 < out.length) ∨
    (storeRegrouped out s = finish .ok (s.setOutput out) ∧ out.length ≤ 256) := by
  unfold storeRegrouped
  by_cases h : 256 < out.length
  · exact .inl ⟨if_pos h, h⟩
  · exact .inr ⟨if_neg h, by omega⟩

theorem execConvert_illegal {f t : BitVec 4} (h : (legalWidth f && legalWidth t) = false) (pad : Bool) (s : State) :
    execConvert f t pad s = finish .illegalCommand s := by simp only [execConvert, h]; rfl

theorem execConvert_cases {f t : BitVec 4} (h : (legalWidth f && legalWidth t) = true) (pad : Bool) (s : State) :
    (execConvert f t pad s = finish .badLength s ∧ 256 < s.vlen.toNat) ∨
    (execConvert f t pad s = raise .unwrittenEntry s ∧ s.vlen.toNat ≤ 256 ∧ ¬ WrittenUpTo s .vbuf s.vlen.toNat) ∨
    (∃ vals, s.vlen.toNat ≤ 256 ∧ s.valueInput = some vals ∧
      ((convertBits vals f.toNat t.toNat pad = .invalidValue ∧ execConvert f t pad s = finish .invalidValue s) ∨
        (convertBits vals f.toNat t.toNat pad = .invalidPadding ∧ execConvert f t pad s = finish .invalidPadding s) ∨
        (∃ out, convertBits vals f.toNat t.toNat pad = .ok out ∧ execConvert f t pad s = storeRegrouped out s))) := by
  simp only [execConvert, h]
  rw [if_neg (by simp)]
  by_cases hl : 256 < s.vlen.toNat
  · exact .inl ⟨by rw [if_pos (tooLong_iff.2 hl)], hl⟩
  have hv : s.vlen.toNat ≤ 256 := by omega
  rw [if_neg (by simpa using hv)]
  cases h1 : s.valueInput with
  | none => exact .inr (.inl ⟨rfl, hv, State.valueInput_eq_none.1 h1⟩)
  | some vals =>
    refine .inr (.inr ⟨vals, hv, rfl, ?_⟩)
    cases h2 : convertBits vals f.toNat t.toNat pad with
    | ok out => exact .inr (.inr ⟨out, rfl, by simp [h2]⟩)
    | invalidValue => exact .inl ⟨rfl, by simp [h2]⟩
    | invalidPadding => exact .inr (.inl ⟨rfl, by simp [h2]⟩)

/-! ### LUTENC and LUTDEC -/

theorem execLutenc_cases (v : Byte) (s : State) :
    (execLutenc v s = finish .invalidValue s ∧ 31 < v.toNat) ∨
    (execLutenc v s = finish .ok (s.setLutr (charAt (v.setWidth 5))) ∧ v.toNat ≤ 31) := by
  simp only [execLutenc]
  split
  · exact .inl ⟨rfl, ‹_›⟩
  · exact .inr ⟨rfl, by omega⟩

theorem execLutdec_cases (ch : Byte) (s : State) :
    (execLutdec ch s = finish .invalidCharacter s ∧ indexOf ch = none) ∨
    (∃ r, execLutdec ch s = finish .ok (s.setLutr (r.setWidth 8)) ∧ indexOf ch = some r) := by
  simp only [execLutdec]
  cases h : indexOf ch with
  | none => exact .inl ⟨rfl, rfl⟩
  | some r => exact .inr ⟨r, rfl, rfl⟩

/-! ### All commands -/

/-- Everything a command can answer, once: it raises UnwrittenEntry, or fails with a code and changes nothing else, or is a
CKVER whose verification gave Invalid, or completes with OK and its own results. -/
theorem exec_cases (i : Instr) (s : State) :
    exec i s = raise .unwrittenEntry s ∨
    (∃ code, code ≠ .ok ∧ code ≠ .checksumMismatch ∧ exec i s = finish code s) ∨
    (i = .ckver ∧ ∃ u, ((u = s ∧ s.vlen.toNat < 6) ∨ ∃ c, u = s.setAcc c ∧ 6 ≤ s.vlen.toNat) ∧
      exec i s = finish .checksumMismatch (u.setVariant .invalid)) ∨
    (i = .polymod ∧ ∃ c, exec i s = finish .ok (s.setAcc c)) ∨
    (∃ enc word, i = .ckgen enc ∧
      exec i s = finish .ok ((s.setOutput (fromSymbols (checksumGroups word))).setAcc word)) ∨
    (i = .ckver ∧ ∃ c v, exec i s = finish .ok ((s.setAcc c).setVariant v)) ∨
    (∃ f t pad out, i = .convert f t pad ∧ out.length ≤ 256 ∧ exec i s = finish .ok (s.setOutput out)) ∨
    (∃ c, ((∃ v, i = .lutenc v ∧ v.toNat ≤ 31 ∧ c = charAt (v.setWidth 5)) ∨
        (∃ ch r, i = .lutdec ch ∧ indexOf ch = some r ∧ c = r.setWidth 8)) ∧ exec i s = finish .ok (s.setLutr c)) := by
  cases i with
  | polymod =>
    rcases execPolymod_cases s with ⟨h, _⟩ | ⟨h, _⟩ | ⟨vals, _, _, ⟨_, h⟩ | ⟨_, h⟩⟩
    · exact .inr (.inl ⟨_, by decide, by decide, h⟩)
    · exact .inl h
    · exact .inr (.inl ⟨_, by decide, by decide, h⟩)
    · exact .inr (.inr (.inr (.inl ⟨rfl, _, h⟩)))
  | ckgen enc =>
    cases hk : checksumConstant enc with
    | none =>
      have : enc = .invalid := by cases enc <;> simp [checksumConstant] at hk ⊢
      subst this
      exact .inr (.inl ⟨_, by decide, by decide, execCkgen_invalid s⟩)
    | some k =>
      have he : exec (.ckgen enc) s = _ := execCkgen_of_constant hk s
      rw [he]
      rcases withChecksumInput_cases s (fun h d =>
        finish .ok ((s.setOutput (fromSymbols (checksumGroups (checksumWord k h d)))).setAcc (checksumWord k h d)))
        with ⟨h, _⟩ | ⟨h, _⟩ | ⟨hr, vals, _, _, _, _, ⟨_, h⟩ | ⟨_, h⟩⟩ <;> rw [h]
      · exact .inr (.inl ⟨_, by decide, by decide, rfl⟩)
      · exact .inl rfl
      · exact .inr (.inl ⟨_, by decide, by decide, rfl⟩)
      · exact .inr (.inr (.inr (.inr (.inl ⟨enc, _, rfl, rfl⟩))))
  | ckver =>
    have he : exec .ckver s = _ := execCkver_eq s
    rw [he]
    rcases withChecksumInput_cases s (fun h v =>
        if v.length < 6 then finish .checksumMismatch (s.setVariant .invalid)
        else if matchVariant (polymod (expand h v)) = .invalid then
          finish .checksumMismatch ((s.setAcc (polymod (expand h v))).setVariant .invalid)
        else finish .ok ((s.setAcc (polymod (expand h v))).setVariant (matchVariant (polymod (expand h v)))))
        with ⟨h, _⟩ | ⟨h, _⟩ | ⟨hr, vals, _, _, _, hvals, ⟨_, h⟩ | ⟨_, h⟩⟩ <;> rw [h]
    · exact .inr (.inl ⟨_, by decide, by decide, rfl⟩)
    · exact .inl rfl
    · exact .inr (.inl ⟨_, by decide, by decide, rfl⟩)
    · have hlen : vals.length = s.vlen.toNat := (State.valueInput_eq_some.1 hvals).1
      split
      · rename_i hlt
        exact .inr (.inr (.inl ⟨rfl, s, .inl ⟨rfl, by simp at hlt; omega⟩, rfl⟩))
      · rename_i hge
        split
        · exact .inr (.inr (.inl ⟨rfl, _, .inr ⟨_, rfl, by simp at hge; omega⟩, rfl⟩))
        · exact .inr (.inr (.inr (.inr (.inr (.inl ⟨rfl, _, _, rfl⟩)))))
  | convert f t pad =>
    cases hw : (legalWidth f && legalWidth t) with
    | false => exact .inr (.inl ⟨_, by decide, by decide, execConvert_illegal hw pad s⟩)
    | true =>
      rcases execConvert_cases hw pad s with ⟨h, _⟩ | ⟨h, _⟩ | ⟨vals, _, _, ⟨_, h⟩ | ⟨_, h⟩ | ⟨out, _, h⟩⟩
      · exact .inr (.inl ⟨_, by decide, by decide, h⟩)
      · exact .inl h
      · exact .inr (.inl ⟨_, by decide, by decide, h⟩)
      · exact .inr (.inl ⟨_, by decide, by decide, h⟩)
      · rcases storeRegrouped_cases out s with ⟨h', _⟩ | ⟨h', hl⟩
        · exact .inr (.inl ⟨_, by decide, by decide, h.trans h'⟩)
        · exact .inr (.inr (.inr (.inr (.inr (.inr (.inl ⟨f, t, pad, out, rfl, hl, h.trans h'⟩))))))
  | lutenc v =>
    rcases execLutenc_cases v s with ⟨h, _⟩ | ⟨h, hv⟩
    · exact .inr (.inl ⟨_, by decide, by decide, h⟩)
    · exact .inr (.inr (.inr (.inr (.inr (.inr (.inr ⟨_, .inl ⟨v, rfl, hv, rfl⟩, h⟩))))))
  | lutdec ch =>
    rcases execLutdec_cases ch s with ⟨h, _⟩ | ⟨r, h, hr⟩
    · exact .inr (.inl ⟨_, by decide, by decide, h⟩)
    · exact .inr (.inr (.inr (.inr (.inr (.inr (.inr ⟨_, .inr ⟨ch, r, rfl, hr, rfl⟩, h⟩))))))

/-- The outcome of a well-formed command by what it reads: too long a length, an unwritten entry, or the command's own
result. -/
theorem exec_outcomes (i : Instr) (s : State) (hw : i.wellFormed = true) :
    (LengthTooLong i s ∧ exec i s = finish .badLength s) ∨
    (¬ LengthTooLong i s ∧ ¬ InputsWritten i s ∧ exec i s = raise .unwrittenEntry s) ∨
    (¬ LengthTooLong i s ∧ InputsWritten i s ∧
      ((i = .polymod ∧ ∃ vals, s.valueInput = some vals ∧
        ((¬ AllSymbols vals ∧ exec i s = finish .invalidValue s) ∨
         (AllSymbols vals ∧ exec i s = finish .ok (s.setAcc (polymod (symbolsOf vals)))))) ∨
       (∃ enc k, i = .ckgen enc ∧ checksumConstant enc = some k ∧ ∃ h vals, s.hrpInput = some h ∧ s.valueInput = some vals ∧
        ((¬ AllSymbols vals ∧ exec i s = finish .invalidValue s) ∨
         (AllSymbols vals ∧ exec i s = finish .ok ((s.setOutput (fromSymbols (checksumGroups (checksumWord k h (symbolsOf vals))))).setAcc (checksumWord k h (symbolsOf vals)))))) ∨
       (i = .ckver ∧ ∃ h vals, s.hrpInput = some h ∧ s.valueInput = some vals ∧
        ((¬ AllSymbols vals ∧ exec i s = finish .invalidValue s) ∨
         (AllSymbols vals ∧ exec i s = 
            if vals.length < 6 then finish .checksumMismatch (s.setVariant .invalid)
            else if matchVariant (polymod (expand h (symbolsOf vals))) = .invalid then
              finish .checksumMismatch ((s.setAcc (polymod (expand h (symbolsOf vals)))).setVariant .invalid)
            else finish .ok ((s.setAcc (polymod (expand h (symbolsOf vals)))).setVariant (matchVariant (polymod (expand h (symbolsOf vals)))))))) ∨
       (∃ f t pad, i = .convert f t pad ∧ ∃ vals, s.valueInput = some vals ∧
        ((convertBits vals f.toNat t.toNat pad = .invalidValue ∧ exec i s = finish .invalidValue s) ∨
         (convertBits vals f.toNat t.toNat pad = .invalidPadding ∧ exec i s = finish .invalidPadding s) ∨
         (∃ out, convertBits vals f.toNat t.toNat pad = .ok out ∧ 256 < out.length ∧ exec i s = finish .badLength s) ∨
         (∃ out, convertBits vals f.toNat t.toNat pad = .ok out ∧ out.length ≤ 256 ∧ exec i s = finish .ok (s.setOutput out)))) ∨
       (∃ v, i = .lutenc v ∧ ((31 < v.toNat ∧ exec i s = finish .invalidValue s) ∨ (v.toNat ≤ 31 ∧ exec i s = finish .ok (s.setLutr (charAt (v.setWidth 5)))))) ∨
       (∃ ch, i = .lutdec ch ∧ ((indexOf ch = none ∧ exec i s = finish .invalidCharacter s) ∨ (∃ r, indexOf ch = some r ∧ exec i s = finish .ok (s.setLutr (r.setWidth 8)))))))  := by
  have hV : ∀ {vals}, s.valueInput = some vals → WrittenUpTo s .vbuf s.vlen.toNat := by
    intro vals hv; by_contra hc; rw [State.valueInput_eq_none.2 hc] at hv; cases hv
  have hH : ∀ {vals}, s.hrpInput = some vals → WrittenUpTo s .hbuf s.hlen.toNat := by
    intro vals hv; by_contra hc; rw [State.hrpInput_eq_none.2 hc] at hv; cases hv
  cases i with
  | polymod =>
    rcases execPolymod_cases s with ⟨h, hl⟩ | ⟨h, hl, hu⟩ | ⟨vals, hl, hv, h⟩
    · exact .inl ⟨.inr ⟨rfl, hl⟩, h⟩
    · refine .inr (.inl ⟨?_, fun hi => hu (hi.2 rfl), h⟩)
      rintro (⟨h, -⟩ | ⟨-, h⟩); cases h; omega
    · refine .inr (.inr ⟨?_, ⟨fun h => (by cases h), fun _ => hV hv⟩, .inl ⟨rfl, vals, hv, h⟩⟩)
      rintro (⟨h, -⟩ | ⟨-, h⟩); cases h; omega
  | ckgen enc =>
    cases hk : checksumConstant enc with
    | none => cases enc <;> simp [checksumConstant, Instr.wellFormed] at hk hw
    | some k =>
      have he : exec (.ckgen enc) s = _ := execCkgen_of_constant hk s
      rcases withChecksumInput_cases s (fun h d =>
        finish .ok ((s.setOutput (fromSymbols (checksumGroups (checksumWord k h d)))).setAcc (checksumWord k h d)))
        with ⟨h, hl⟩ | ⟨h, hl, hl', hu⟩ | ⟨hr, vals, hl, hl', hh, hv, h⟩
      · exact .inl ⟨hl.elim (fun h => .inl ⟨rfl, h⟩) (fun h => .inr ⟨rfl, h⟩), he.trans h⟩
      · refine .inr (.inl ⟨?_, fun hi => hu ⟨hi.1 rfl, hi.2 rfl⟩, he.trans h⟩)
        rintro (⟨-, h⟩ | ⟨-, h⟩) <;> omega
      · refine .inr (.inr ⟨?_, ⟨fun _ => hH hh, fun _ => hV hv⟩, .inr (.inl ⟨enc, k, rfl, hk, hr, vals, hh, hv, ?_⟩)⟩)
        · rintro (⟨-, h⟩ | ⟨-, h⟩) <;> omega
        · rw [he]; exact h
  | ckver =>
    have he : exec .ckver s = _ := execCkver_eq s
    rcases withChecksumInput_cases s (fun h v =>
        if v.length < 6 then finish .checksumMismatch (s.setVariant .invalid)
        else if matchVariant (polymod (expand h v)) = .invalid then
          finish .checksumMismatch ((s.setAcc (polymod (expand h v))).setVariant .invalid)
        else finish .ok ((s.setAcc (polymod (expand h v))).setVariant (matchVariant (polymod (expand h v)))))
        with ⟨h, hl⟩ | ⟨h, hl, hl', hu⟩ | ⟨hr, vals, hl, hl', hh, hv, h⟩
    · exact .inl ⟨hl.elim (fun h => .inl ⟨rfl, h⟩) (fun h => .inr ⟨rfl, h⟩), he.trans h⟩
    · refine .inr (.inl ⟨?_, fun hi => hu ⟨hi.1 rfl, hi.2 rfl⟩, he.trans h⟩)
      rintro (⟨-, h⟩ | ⟨-, h⟩) <;> omega
    · refine .inr (.inr ⟨?_, ⟨fun _ => hH hh, fun _ => hV hv⟩, .inr (.inr (.inl ⟨rfl, hr, vals, hh, hv, ?_⟩))⟩)
      · rintro (⟨-, h⟩ | ⟨-, h⟩) <;> omega
      · rw [he]; simpa using h
  | convert f t pad =>
    rcases execConvert_cases hw pad s with ⟨h, hl⟩ | ⟨h, hl, hu⟩ | ⟨vals, hl, hv, h⟩
    · exact .inl ⟨.inr ⟨rfl, hl⟩, h⟩
    · refine .inr (.inl ⟨?_, fun hi => hu (hi.2 rfl), h⟩)
      rintro (⟨h, -⟩ | ⟨-, h⟩); cases h; omega
    · refine .inr (.inr ⟨?_, ⟨fun h => (by cases h), fun _ => hV hv⟩, .inr (.inr (.inr (.inl ⟨f, t, pad, rfl, vals, hv, ?_⟩)))⟩)
      · rintro (⟨h, -⟩ | ⟨-, h⟩); cases h; omega
      · rcases h with ⟨hc, h⟩ | ⟨hc, h⟩ | ⟨out, hc, h⟩
        · exact .inl ⟨hc, h⟩
        · exact .inr (.inl ⟨hc, h⟩)
        · rcases storeRegrouped_cases out s with ⟨h', ho⟩ | ⟨h', ho⟩
          · exact .inr (.inr (.inl ⟨out, hc, ho, h.trans h'⟩))
          · exact .inr (.inr (.inr ⟨out, hc, ho, h.trans h'⟩))
  | lutenc v =>
    refine .inr (.inr ⟨?_, ⟨fun h => (by cases h), fun h => (by cases h)⟩, .inr (.inr (.inr (.inr (.inl ⟨v, rfl, ?_⟩))))⟩)
    · rintro (⟨h, -⟩ | ⟨h, -⟩) <;> cases h
    · rcases execLutenc_cases v s with ⟨h, hv⟩ | ⟨h, hv⟩
      · exact .inl ⟨hv, h⟩
      · exact .inr ⟨hv, h⟩
  | lutdec ch =>
    refine .inr (.inr ⟨?_, ⟨fun h => (by cases h), fun h => (by cases h)⟩, .inr (.inr (.inr (.inr (.inr ⟨ch, rfl, ?_⟩))))⟩)
    · rintro (⟨h, -⟩ | ⟨h, -⟩) <;> cases h
    · rcases execLutdec_cases ch s with ⟨h, hv⟩ | ⟨r, h, hv⟩
      · exact .inl ⟨hv, h⟩
      · exact .inr ⟨r, hv, h⟩

end Sys2Proof.Machine
end

