-- ==== Sys2Proof/Laws/Step.lean ====
section
/-! SUPPORT. What a host transaction, the engine's completion step and a step can do, each said once. -/

namespace Sys2Proof.Machine

/-! ### The status word -/

@[simp] theorem State.busy_iff {s : State} : s.busy = true ↔ s.pcmd ≠ none := by
  simp [State.busy, Option.isSome_iff_ne_none]

theorem State.busy_eq_false {s : State} : s.busy = false ↔ s.pcmd = none := by
  simp [State.busy]

/-- Bit 0 of the STATUS word is BUSY (R25). -/
@[simp] theorem busyBit_statusWord (s : State) : busyBit s.statusWord = s.busy := by
  simp only [busyBit, State.statusWord]
  rw [BitVec.getLsbD_append]
  simp

/-- Bits [7:4] of the STATUS word are ERR (R25). -/
@[simp] theorem errBits_statusWord (s : State) : errBits s.statusWord = s.err.code := by
  simp only [errBits, State.statusWord]
  ext i hi
  simp only [BitVec.getElem_extractLsb', BitVec.getLsbD_append, BitVec.getLsbD_ofNat]
  rw [if_neg (by omega), if_neg (by omega), if_pos (by omega)]
  simp [BitVec.getLsbD_eq_getElem, hi]

/-- Bits [9:8] of the STATUS word are VARIANT (R25). -/
@[simp] theorem variantBits_statusWord (s : State) : variantBits s.statusWord = s.variant.code := by
  simp only [variantBits, State.statusWord]
  ext i hi
  simp only [BitVec.getElem_extractLsb', BitVec.getLsbD_append]
  rw [if_neg (by omega), if_neg (by omega), if_neg (by omega), if_pos (by omega)]
  rw [show 8 + i - 1 - 3 - 4 = i by omega, BitVec.getLsbD_eq_getElem hi]

theorem ErrCode.code_inj {a b : ErrCode} (h : a.code = b.code) : a = b := by
  revert h; cases a <;> cases b <;> decide

@[simp] theorem ErrCode.code_eq_iff {a b : ErrCode} : a.code = b.code ↔ a = b := ⟨ErrCode.code_inj, fun h => h ▸ rfl⟩

@[simp] theorem variantOfCode_code (v : Variant) : variantOfCode v.code = v := by cases v <;> rfl

/-! ### The window -/

@[simp] theorem aligned_iff {a : Offset} {width : Nat} : aligned a width = true ↔ width = 4 ∧ a.toNat % 4 = 0 := by
  simp only [aligned, Bool.and_eq_true, decide_eq_true_eq, and_congr_right_iff]
  intro _
  rw [← BitVec.toNat_inj]
  simp [BitVec.extractLsb'_toNat]

@[simp] theorem target_regOffset (r : Reg) : target (regOffset r) = .reg r := by cases r <;> decide

/-- The target of an offset on numbers (R62). -/
theorem target_eq (a : Offset) :
    target a =
      match a.toNat / 1024 with
      | 1 => .entry .hbuf (BitVec.ofNat 8 (a.toNat / 4))
      | 2 => .entry .vbuf (BitVec.ofNat 8 (a.toNat / 4))
      | 3 => .entry .obuf (BitVec.ofNat 8 (a.toNat / 4))
      | _ =>
        match a.toNat / 4 % 256 with
        | 0 => .reg .cmd
        | 1 => .reg .status
        | 2 => .reg .hlen
        | 3 => .reg .vlen
        | 4 => .reg .olen
        | 5 => .reg .acc
        | 6 => .reg .lutr
        | _ => .unmapped := by
  have h1 : (a.extractLsb' 10 2).toNat = a.toNat / 1024 := by
    rw [BitVec.extractLsb'_toNat, Nat.shiftRight_eq_div_pow, Nat.mod_eq_of_lt (by have := a.isLt; omega)]
  have h2 : (a.extractLsb' 2 8).toNat = a.toNat / 4 % 256 := by
    rw [BitVec.extractLsb'_toNat, Nat.shiftRight_eq_div_pow]
  have h3 : a.extractLsb' 2 8 = BitVec.ofNat 8 (a.toNat / 4) := by
    apply BitVec.eq_of_toNat_eq; rw [h2, BitVec.toNat_ofNat]
  simp only [target, h1, h2]
  rw [h3]
  all_goals rfl

theorem target_of_entryAddr {a : Offset} {b : Buf} {i : Nat} (hi : i < 256) (ha : a.toNat = entryAddr b i) :
    target a = .entry b (BitVec.ofNat 8 i) := by
  rw [target_eq, ha]
  cases b
  · rw [show entryAddr .hbuf i / 1024 = 1 by simp only [entryAddr, Buf.base]; omega]
    simp only [entryAddr, Buf.base]
    congr 1; apply BitVec.eq_of_toNat_eq; simp; omega
  · rw [show entryAddr .vbuf i / 1024 = 2 by simp only [entryAddr, Buf.base]; omega]
    simp only [entryAddr, Buf.base]
    congr 1; apply BitVec.eq_of_toNat_eq; simp; omega
  · rw [show entryAddr .obuf i / 1024 = 3 by simp only [entryAddr, Buf.base]; omega]
    simp only [entryAddr, Buf.base]
    congr 1; apply BitVec.eq_of_toNat_eq; simp; omega

theorem entryOffset_toNat (b : Buf) {i : Nat} (hi : i < 256) : (entryOffset b i).toNat = entryAddr b i := by
  cases b <;> simp only [entryOffset, entryAddr, Buf.base, BitVec.toNat_ofNat] <;> omega

/-! ### Transactions -/

section
variable {s : State} {a : Offset} {width : Nat} {w : Word}

theorem busRead_busy (h : s.pcmd ≠ none) :
    busRead a width s = if width = 4 ∧ a = statusOffset then .ok s.statusWord else .error .busyAccess := by
  simp only [busRead, State.busy_iff.2 h, if_true]

theorem busRead_idle_bad (h : s.pcmd = none) (hb : ¬ (width = 4 ∧ a.toNat % 4 = 0)) :
    busRead a width s = .error .badAccess := by
  simp only [busRead, State.busy_eq_false.2 h]
  rw [if_neg (by simp), if_neg (by simpa using hb)]

theorem busRead_idle (h : s.pcmd = none) (ha : a.toNat % 4 = 0) :
    busRead a 4 s =
      match target a with
      | .unmapped => .error .unmapped
      | .reg r => .ok (readReg r s)
      | .entry b i =>
        match s.entry b i.toNat with
        | none => .error .unwrittenEntry
        | some v => .ok (v.setWidth 32) := by
  simp only [busRead, State.busy_eq_false.2 h]
  rw [if_neg (by simp), if_pos (by simpa using ha)]
  all_goals rfl

theorem busWrite_busy (h : s.pcmd ≠ none) : busWrite a width w s = .error .busyAccess := by
  simp only [busWrite, State.busy_iff.2 h, if_true]

theorem busWrite_idle_bad (h : s.pcmd = none) (hb : ¬ (width = 4 ∧ a.toNat % 4 = 0)) :
    busWrite a width w s = .error .badAccess := by
  simp only [busWrite, State.busy_eq_false.2 h]
  rw [if_neg (by simp), if_neg (by simpa using hb)]

theorem busWrite_idle (h : s.pcmd = none) (ha : a.toNat % 4 = 0) :
    busWrite a 4 w s =
      match target a with
      | .unmapped => .error .unmapped
      | .reg r => .ok (writeReg r w s)
      | .entry b i => .ok (writeBuf b i.toNat w s) := by
  simp only [busWrite, State.busy_eq_false.2 h]
  rw [if_neg (by simp), if_pos (by simpa using ha)]
  all_goals rfl

/-- A write that is performed: the machine is idle, the access legal, and the target's own write is done. -/
theorem busWrite_eq_ok {t : State} (h : busWrite a width w s = .ok t) :
    s.pcmd = none ∧ width = 4 ∧ a.toNat % 4 = 0 ∧
      ((∃ r, target a = .reg r ∧ t = writeReg r w s) ∨
        (∃ b i, target a = .entry b i ∧ t = writeBuf b i.toNat w s)) := by
  by_cases hp : s.pcmd = none
  · by_cases hb : width = 4 ∧ a.toNat % 4 = 0
    · obtain ⟨rfl, ha⟩ := hb
      rw [busWrite_idle hp ha] at h
      cases ht : target a with
      | unmapped => simp [ht] at h
      | reg r => simp [ht] at h; exact ⟨hp, rfl, ha, .inl ⟨r, rfl, h.symm⟩⟩
      | entry b i => simp [ht] at h; exact ⟨hp, rfl, ha, .inr ⟨b, i, rfl, h.symm⟩⟩
    · rw [busWrite_idle_bad hp hb] at h; cases h
  · rw [busWrite_busy hp] at h; cases h

end

/-- Everything a host step that goes on can do. -/
theorem hostStep_cases {op : HostOp} {s t : State} (h : hostStep op s = .next t) :
    (∃ a width w, op = .read a width ∧ t = s.advance.setRdata w) ∨
    (∃ a w r, op = .write a 4 w ∧ s.pcmd = none ∧ target a = .reg r ∧ t = writeReg r w s.advance) ∨
    (∃ a w b i, op = .write a 4 w ∧ s.pcmd = none ∧ target a = .entry b i ∧ t = writeBuf b i.toNat w s.advance) ∨
    (op = .poll ∧ s.pcmd ≠ none ∧ t = s.pollAgain.setRdata s.statusWord) ∨
    (op = .poll ∧ s.pcmd = none ∧ t = s.advance.setRdata s.statusWord) ∨
    (op = .reset ∧ t = s.advance.resetEvent) := by
  cases op with
  | read a width =>
    simp only [hostStep] at h
    split at h
    · rename_i w _; cases h; exact .inl ⟨a, width, w, rfl, rfl⟩
    · simp at h
  | write a width w =>
    simp only [hostStep] at h
    split at h
    · rename_i u hu
      cases h
      obtain ⟨hp, rfl, _, ⟨r, hr, rfl⟩ | ⟨b, i, hb, rfl⟩⟩ := busWrite_eq_ok hu
      · exact .inr (.inl ⟨a, w, r, rfl, by simpa using hp, hr, rfl⟩)
      · exact .inr (.inr (.inl ⟨a, w, b, i, rfl, by simpa using hp, hb, rfl⟩))
    · simp at h
  | poll =>
    simp only [hostStep, busyBit_statusWord] at h
    split at h
    · rename_i hb; cases h; exact .inr (.inr (.inr (.inl ⟨rfl, State.busy_iff.1 hb, rfl⟩)))
    · rename_i hb; cases h
      exact .inr (.inr (.inr (.inr (.inl ⟨rfl, State.busy_eq_false.1 (Bool.not_eq_true _ ▸ hb), rfl⟩))))
  | reset => cases h; exact .inr (.inr (.inr (.inr (.inr ⟨rfl, rfl⟩))))

/-- A host step never refuses, and when it faults it raises a protocol fault. -/
theorem hostStep_stops {op : HostOp} {s : State} :
    (∃ t, hostStep op s = .next t) ∨ (∃ r, hostStep op s = raise r s) := by
  cases op with
  | read a width =>
    simp only [hostStep]
    cases busRead a width s with
    | ok w => exact .inl ⟨_, rfl⟩
    | error r => exact .inr ⟨r, rfl⟩
  | write a width w =>
    simp only [hostStep]
    cases busWrite a width w s.advance with
    | ok t => exact .inl ⟨t, rfl⟩
    | error r => exact .inr ⟨r, rfl⟩
  | poll => simp only [hostStep]; split <;> exact .inl ⟨_, rfl⟩
  | reset => exact .inl ⟨_, rfl⟩

/-! ### The engine -/

theorem engineComplete_ok {w : Word} {i : Instr} (h : decode w = .ok i) (s : State) : engineComplete w s = exec i s := by
  simp only [engineComplete, h]

theorem engineComplete_error {w : Word} {r : Reject} (h : decode w = .error r) (s : State) :
    engineComplete w s = finish .illegalCommand s := by
  simp only [engineComplete, h]

/-- A completed command leaves the host and FAULTED alone and empties PCMD. -/
theorem exec_keeps_host (i : Instr) {s t : State} (h : exec i s = .next t) : t.host = s.host ∧ t.wait = 0 ∧ t.pcmd = none ∧ t.faulted = s.faulted := by
  rcases exec_cases i s with h' | ⟨code, hc, hc2, h'⟩ | ⟨rfl, u, hu, h'⟩ | ⟨rfl, c, h'⟩ | ⟨enc, word, rfl, h'⟩ |
    ⟨rfl, c, v, h'⟩ | ⟨f, g, pad, out, rfl, hl, h'⟩ | ⟨c, hi, h'⟩ <;> rw [h'] at h <;>
    simp only [finish_eq_next, raise_ne_next] at h <;> subst h <;> first | exact ⟨rfl, rfl, rfl, rfl⟩ | skip
  rcases hu with ⟨rfl, _⟩ | ⟨c, rfl, _⟩ <;> exact ⟨rfl, rfl, rfl, rfl⟩

/-- So does the completion step. -/
theorem engineComplete_keeps_host (w : Word) {s t : State} (h : engineComplete w s = .next t) : t.host = s.host ∧ t.wait = 0 ∧ t.pcmd = none ∧ t.faulted = s.faulted := by
  cases hd : decode w with
  | error r => rw [engineComplete_error hd] at h; simp at h; subst h; exact ⟨rfl, rfl, rfl, rfl⟩
  | ok i => rw [engineComplete_ok hd] at h; exact exec_keeps_host i h

theorem engineTurn_iff {s : State} : engineTurn s = true ↔ s.wait = 0 ∨ s.host = [] := by
  simp [engineTurn, List.isEmpty_iff]

/-! ### The step -/

theorem step_faulted {s : State} (h : s.faulted = true) : step s = .fault (.halted s) := by
  simp only [step, h, if_true]

theorem step_due {s : State} {w : Word} (h : Due s w) : step s = engineComplete w s := by
  obtain ⟨hf, hp, ht⟩ := h
  simp only [step, hf, hp]
  rw [if_neg (by simp)]
  split
  · rename_i w' hw hh; cases hw; rfl
  · rename_i w' op rest hw hh; cases hw; rw [if_pos (engineTurn_iff.2 ht)]
  · rename_i hw hh; cases hw
  · rename_i hw hh; cases hw

theorem step_host {s : State} {op : HostOp} {rest : List HostOp} (hf : s.faulted = false) (hh : s.host = op :: rest)
    (hp : s.pcmd = none ∨ s.wait ≠ 0) : step s = hostStep op s := by
  have ht : s.pcmd ≠ none → engineTurn s = false := fun h => by
    rw [← Bool.not_eq_true, engineTurn_iff, hh]
    rcases hp with hp | hp
    · exact absurd hp h
    · simp [hp]
  simp only [step, hf, hh]
  rw [if_neg (by simp)]
  cases hc : s.pcmd with
  | none => rfl
  | some w => simp [ht (by simp [hc])]

theorem step_idle {s : State} (hs : Ready s) (hh : s.host = []) : step s = .next s := by
  simp [step, hs.1, hs.2, hh]

/-- Everything a step that goes on can do: the engine completes, nothing happens, or the host moves. -/
theorem step_cases {s t : State} (h : step s = .next t) :
    s.faulted = false ∧
      ((∃ w, Due s w ∧ engineComplete w s = .next t) ∨ (Ready s ∧ s.host = [] ∧ t = s) ∨
        (∃ op rest, s.host = op :: rest ∧ (s.pcmd = none ∨ s.wait ≠ 0) ∧ hostStep op s = .next t)) := by
  cases hf : s.faulted with
  | true => rw [step_faulted hf] at h; cases h
  | false =>
    refine ⟨rfl, ?_⟩
    cases hp : s.pcmd with
    | none =>
      cases hh : s.host with
      | nil =>
        rw [step_idle ⟨hf, hp⟩ hh] at h
        cases h
        exact .inr (.inl ⟨⟨hf, hp⟩, rfl, rfl⟩)
      | cons op rest =>
        rw [step_host hf hh (.inl hp)] at h
        exact .inr (.inr ⟨op, rest, rfl, .inl rfl, h⟩)
    | some w =>
      by_cases hd : s.wait = 0 ∨ s.host = []
      · have hdue : Due s w := ⟨hf, hp, hd⟩
        rw [step_due hdue] at h
        exact .inl ⟨w, hdue, h⟩
      · rw [not_or] at hd
        obtain ⟨hw, hne⟩ := hd
        obtain ⟨op, rest, hh⟩ := List.exists_cons_of_ne_nil hne
        rw [step_host hf hh (.inr hw)] at h
        exact .inr (.inr ⟨op, rest, hh, .inr hw, h⟩)

/-! ### Entries through the window -/

section
variable {s : State} {a : Offset} {w : Word} {rest : List HostOp} {b : Buf} {i : Nat}

theorem entryAddr_mod_four (b : Buf) (i : Nat) : entryAddr b i % 4 = 0 := by
  cases b <;> simp only [entryAddr, Buf.base] <;> omega

/-- A host read of a buffer entry (R64). -/
theorem step_read_entry (hs : Ready s) (hh : s.host = .read a 4 :: rest) (hi : i < 256)
    (ha : a.toNat = entryAddr b i) :
    step s =
      match s.entry b i with
      | none => raise .unwrittenEntry s
      | some v => .next (s.advance.setRdata (v.setWidth 32)) := by
  have hb : busRead a 4 s = match s.entry b i with
      | none => .error .unwrittenEntry
      | some v => .ok (v.setWidth 32) := by
    rw [busRead_idle hs.2 (by rw [ha]; exact entryAddr_mod_four b i), target_of_entryAddr hi ha]
    simp only [BitVec.toNat_ofNat, Nat.mod_eq_of_lt (show i < 2 ^ 8 from hi)]
  rw [step_host hs.1 hh (.inl hs.2)]
  simp only [hostStep]
  rw [hb]
  cases s.entry b i <;> rfl

/-- A host write of a buffer entry (R64). -/
theorem step_write_entry (hs : Ready s) (hh : s.host = .write a 4 w :: rest) (hi : i < 256)
    (ha : a.toNat = entryAddr b i) : step s = .next (writeBuf b i w s.advance) := by
  have hb : busWrite a 4 w s.advance = .ok (writeBuf b i w s.advance) := by
    rw [busWrite_idle (s := s.advance) hs.2 (by rw [ha]; exact entryAddr_mod_four b i), target_of_entryAddr hi ha]
    simp only [BitVec.toNat_ofNat, Nat.mod_eq_of_lt (show i < 2 ^ 8 from hi)]
  rw [step_host hs.1 hh (.inl hs.2)]
  simp only [hostStep]
  rw [hb]

/-- A host read of a register (R65). -/
theorem step_read_reg (hs : Ready s) {r : Reg} (hh : s.host = .read (regOffset r) 4 :: rest) :
    step s = .next (s.advance.setRdata (readReg r s)) := by
  have hb : busRead (regOffset r) 4 s = .ok (readReg r s) := by
    rw [busRead_idle hs.2 (by cases r <;> decide), target_regOffset]
  rw [step_host hs.1 hh (.inl hs.2)]
  simp only [hostStep]
  rw [hb]

/-- A host write of a register (R65). -/
theorem step_write_reg (hs : Ready s) {r : Reg} (hh : s.host = .write (regOffset r) 4 w :: rest) :
    step s = .next (writeReg r w s.advance) := by
  have hb : busWrite (regOffset r) 4 w s.advance = .ok (writeReg r w s.advance) := by
    rw [busWrite_idle (s := s.advance) hs.2 (by cases r <;> decide), target_regOffset]
  rw [step_host hs.1 hh (.inl hs.2)]
  simp only [hostStep]
  rw [hb]

end

/-! ### Runs -/

@[simp] theorem runSteps_zero (s : State) : runSteps 0 s = .next s := rfl

theorem runSteps_succ {s t : State} (h : step s = .next t) (n : Nat) : runSteps (n + 1) s = runSteps n t := by
  simp only [runSteps, h]

theorem runSteps_add {s t : State} {n : Nat} (h : runSteps n s = .next t) (k : Nat) :
    runSteps (n + k) s = runSteps k t := by
  induction n generalizing s with
  | zero => cases h; rw [Nat.zero_add]
  | succ n ih =>
    cases hs : step s with
    | next u =>
      rw [runSteps_succ hs] at h
      rw [show n + 1 + k = (n + k) + 1 by omega, runSteps_succ hs]
      exact ih h
    | fault r => simp [runSteps, hs] at h
    | refused r => simp [runSteps, hs] at h

/-- While the completion step is `n` host steps away, `n` steps of a poll only read STATUS. -/
theorem runSteps_poll (n : Nat) : ∀ (s : State) (w : Word) (rest : List HostOp), s.faulted = false → s.pcmd = some w → s.host = .poll :: rest → s.wait = n →
    runSteps n s = .next { s with wait := 0, rdata := if n = 0 then s.rdata else some s.statusWord } := by
  induction n with
  | zero => intro s w rest hf hp hh hw; rw [runSteps_zero]; cases s; simp_all
  | succ n ih =>
    intro s w rest hf hp hh hw
    have hst : step s = .next (s.pollAgain.setRdata s.statusWord) := by
      rw [step_host hf hh (.inr (by omega))]
      simp only [hostStep, busyBit_statusWord, State.busy_iff.2 (show s.pcmd ≠ none by simp [hp]), if_true]
    rw [runSteps_succ hst, ih (s.pollAgain.setRdata s.statusWord) w rest hf hp hh (by simp [hw])]
    by_cases hn : n = 0
    · subst hn; simp [State.pollAgain, State.setRdata]
    · simp [hn, State.pollAgain, State.setRdata, State.statusWord, State.busy]

/-- `runSteps` is the host interface's own run of the machine. -/
theorem run_core_eq (n : Nat) (s : State) : Host.Core.run core n s = runSteps n s := by
  induction n generalizing s with
  | zero => rfl
  | succ n ih =>
    simp only [Host.Core.run, runSteps]
    have hc : core.step s = step s := rfl
    rw [hc]
    cases step s with
    | next t => exact ih t
    | fault r => rfl
    | refused r => rfl

end Sys2Proof.Machine
end

