-- ==== Sys2Proof/Laws/HostProgram.lean ====
section
/-! SUPPORT. What each statement of a host program does (spec/30_encoding.md R101, R102), said once, over the part of the
state that belongs to the block. -/

namespace Sys2Proof.Machine

/-- The registers and buffers of the block, without the host's own fields. -/
structure Block where
  hlen : Len
  vlen : Len
  olen : Len
  acc : Acc
  lutr : Byte
  mem : Memory
  err : ErrCode
  variant : Variant

/-- The block's part of a state. -/
def State.block (s : State) : Block := ⟨s.hlen, s.vlen, s.olen, s.acc, s.lutr, s.mem, s.err, s.variant⟩

/-- The machine between two statements of a host program. -/
def Idle (s : State) : Prop := Ready s ∧ s.host = []

/-- One operation whose first step ends it. -/
theorem perform_of_step {op : HostOp} {s t : State} (h : step (s.setHost [op]) = .next t) (ht : t.host = []) :
    perform op s = .next (t, ()) := by
  simp only [perform]
  rw [show s.wait + 2 = (s.wait + 1) + 1 by omega, drain]
  rw [if_neg (by simp [State.setHost]), h]
  simp only [drain]
  rw [if_pos ht]

@[simp] theorem andThen_next {α β : Type} (s : State) (a : α) (k : α → State → Run β) : andThen (.next (s, a)) k = k a s := rfl

theorem performAll_append (a b : List HostOp) (s : State) :
    performAll (a ++ b) s = andThen (performAll a s) (fun _ s' => performAll b s') := by
  induction a generalizing s with
  | nil => rfl
  | cons op a ih =>
    simp only [List.cons_append, performAll]
    cases perform op s with
    | next x => obtain ⟨s', u⟩ := x; simp only [andThen_next]; exact ih s'
    | fault r => rfl
    | refused r => rfl

/-- A host write of an HBUF or VBUF entry (R64). -/
theorem perform_wrEntry {s : State} (hs : Idle s) {b : Buf} {i : Nat} (hb : b ≠ .obuf) (hi : i < 256) (v : Byte) :
    ∃ s', perform (wrEntry b i v) s = .next (s', ()) ∧ Idle s' ∧ s'.block = { s.block with mem := s.mem.write (entryAddr b i) v } := by
  have h := step_write_entry (s := s.setHost [wrEntry b i v]) (a := entryOffset b i) (w := v.setWidth 32) (rest := []) (b := b) (i := i) hs.1 rfl hi (entryOffset_toNat b hi)
  have hv : (v.setWidth 32).setWidth 8 = v := by
    apply BitVec.eq_of_toNat_eq; have := v.isLt; simp; try omega
  cases b with
  | obuf => exact absurd rfl hb
  | hbuf =>
    refine ⟨_, perform_of_step h rfl, ⟨hs.1, rfl⟩, ?_⟩
    simp only [writeBuf, hv]; rfl
  | vbuf =>
    refine ⟨_, perform_of_step h rfl, ⟨hs.1, rfl⟩, ?_⟩
    simp only [writeBuf, hv]; rfl

theorem perform_wrVlen {s : State} (hs : Idle s) (w : Word) :
    ∃ s', perform (wrReg .vlen w) s = .next (s', ()) ∧ Idle s' ∧ s'.block = { s.block with vlen := w.setWidth 9 } := by
  have h := step_write_reg (s := s.setHost [wrReg .vlen w]) (r := .vlen) (w := w) (rest := []) hs.1 rfl
  exact ⟨_, perform_of_step h rfl, ⟨hs.1, rfl⟩, rfl⟩

theorem perform_wrHlen {s : State} (hs : Idle s) (w : Word) :
    ∃ s', perform (wrReg .hlen w) s = .next (s', ()) ∧ Idle s' ∧ s'.block = { s.block with hlen := w.setWidth 9 } := by
  have h := step_write_reg (s := s.setHost [wrReg .hlen w]) (r := .hlen) (w := w) (rest := []) hs.1 rfl
  exact ⟨_, perform_of_step h rfl, ⟨hs.1, rfl⟩, rfl⟩

/-- Filling a buffer (R102). -/
theorem performAll_fillOps (vals : List Byte) : ∀ {s : State} (_ : Idle s) {b : Buf} {i : Nat} (_ : b ≠ .obuf) (_ : i + vals.length ≤ 256),
    ∃ s', performAll (fillOps b i vals) s = .next (s', ()) ∧ Idle s' ∧ s'.block = { s.block with mem := s.mem.writeEntries b i vals } := by
  induction vals with
  | nil => intro s hs b i hb hi; exact ⟨s, rfl, hs, rfl⟩
  | cons v vals ih =>
    intro s hs b i hb hi
    simp only [List.length_cons] at hi
    obtain ⟨s1, h1, i1, a1⟩ := perform_wrEntry hs hb (show i < 256 by omega) v
    obtain ⟨s2, h2, i2, a2⟩ := ih i1 hb (show i + 1 + vals.length ≤ 256 by omega)
    refine ⟨s2, ?_, i2, ?_⟩
    · simp only [fillOps, performAll, h1, andThen_next, h2]
    · rw [a2, a1]
      have : s1.mem = s.mem.write (entryAddr b i) v := congrArg Block.mem a1
      rw [this]; rfl

theorem setWidth_ofNat_len (n : Nat) (h : n ≤ 256) : (BitVec.ofNat 32 n).setWidth 9 = BitVec.ofNat 9 n := by
  apply BitVec.eq_of_toNat_eq; simp; try omega

/-- `ldvals` (R102). -/
theorem performAll_ldvalsOps {s : State} (hs : Idle s) {vals : List Byte} (hl : vals.length ≤ 256) :
    ∃ s', performAll (ldvalsOps vals) s = .next (s', ()) ∧ Idle s' ∧ s'.block = { s.block with mem := s.mem.writeEntries .vbuf 0 vals, vlen := BitVec.ofNat 9 vals.length } := by
  obtain ⟨s1, h1, i1, a1⟩ := performAll_fillOps vals hs (b := .vbuf) (i := 0) (by decide) (by omega)
  obtain ⟨s2, h2, i2, a2⟩ := perform_wrVlen i1 (BitVec.ofNat 32 vals.length)
  refine ⟨s2, ?_, i2, ?_⟩
  · rw [ldvalsOps, performAll_append, h1]; simp only [andThen_next, performAll, h2]
  · rw [a2, a1]; simp only [setWidth_ofNat_len _ hl]

/-- `ldhrp` (R102). -/
theorem performAll_ldhrpOps {s : State} (hs : Idle s) {vals : List Byte} (hl : vals.length ≤ 256) :
    ∃ s', performAll (ldhrpOps vals) s = .next (s', ()) ∧ Idle s' ∧ s'.block = { s.block with mem := s.mem.writeEntries .hbuf 0 vals, hlen := BitVec.ofNat 9 vals.length } := by
  obtain ⟨s1, h1, i1, a1⟩ := performAll_fillOps vals hs (b := .hbuf) (i := 0) (by decide) (by omega)
  obtain ⟨s2, h2, i2, a2⟩ := perform_wrHlen i1 (BitVec.ofNat 32 vals.length)
  refine ⟨s2, ?_, i2, ?_⟩
  · rw [ldhrpOps, performAll_append, h1]; simp only [andThen_next, performAll, h2]
  · rw [a2, a1]; simp only [setWidth_ofNat_len _ hl]

/-- A register read (R65). -/
theorem rdAt_regOffset {s : State} (hs : Idle s) (r : Reg) :
    ∃ s', rdAt (regOffset r) s = .next (s', readReg r s) ∧ Idle s' ∧ s'.block = s.block := by
  have h := step_read_reg (s := s.setHost [.read (regOffset r) 4]) (r := r) (rest := []) hs.1 rfl
  have hr : readReg r (s.setHost [.read (regOffset r) 4]) = readReg r s := by
    cases r <;> rfl
  rw [hr] at h
  have hp := perform_of_step h rfl
  rw [rdAt, hp]
  exact ⟨_, rfl, ⟨hs.1, rfl⟩, rfl⟩

/-- A buffer read (R64). -/
theorem rdAt_entryOffset {s : State} (hs : Idle s) {b : Buf} {i : Nat} {v : Byte} (hi : i < 256) (hv : s.entry b i = some v) :
    ∃ s', rdAt (entryOffset b i) s = .next (s', v.setWidth 32) ∧ Idle s' ∧ s'.block = s.block := by
  have h := step_read_entry (s := s.setHost [.read (entryOffset b i) 4]) (rest := []) hs.1 rfl hi (entryOffset_toNat b hi)
  rw [show (s.setHost [.read (entryOffset b i) 4]).entry b i = some v from hv] at h
  have hp := perform_of_step h rfl
  rw [rdAt, hp]
  exact ⟨_, rfl, ⟨hs.1, rfl⟩, rfl⟩

theorem entry_of_block {s s' : State} (h : s'.block = s.block) (b : Buf) (i : Nat) : s'.entry b i = s.entry b i := by
  have : s'.mem = s.mem := congrArg Block.mem h
  rw [State.entry_def, State.entry_def, this]

/-- Reading OBUF from an index on. -/
theorem rdOut_eq (vals : List Byte) : ∀ {s : State} (_ : Idle s) {i : Nat} (_ : i + vals.length ≤ 256)
    (_ : ∀ k < vals.length, s.entry .obuf (i + k) = vals[k]?),
    ∃ s', rdOut i vals.length s = .next (s', vals) ∧ Idle s' ∧ s'.block = s.block := by
  induction vals with
  | nil => intro s hs i _ _; exact ⟨s, rfl, hs, rfl⟩
  | cons v vals ih =>
    intro s hs i hi hl
    simp only [List.length_cons] at hi
    have h0 := hl 0 (by simp)
    simp only [Nat.add_zero, List.getElem?_cons_zero] at h0
    obtain ⟨s1, h1, i1, a1⟩ := rdAt_entryOffset hs (show i < 256 by omega) h0
    obtain ⟨s2, h2, i2, a2⟩ := ih i1 (i := i + 1) (by omega) (by
      intro k hk
      rw [entry_of_block a1]
      have := hl (k + 1) (by simpa using hk)
      rw [show i + 1 + k = i + (k + 1) by omega, this]; simp)
    refine ⟨s2, ?_, i2, a2.trans a1⟩
    have hv : (v.setWidth 32).setWidth 8 = v := by
      apply BitVec.eq_of_toNat_eq; have := v.isLt; simp; try omega
    simp only [List.length_cons, rdOut, h1, andThen_next, h2, hv]

/-- `rdout` (R102). -/
theorem rdout_eq {s : State} (hs : Idle s) {vals : List Byte} (hl : vals.length ≤ 256) (ho : s.olen = BitVec.ofNat 9 vals.length)
    (hb : Loaded s .obuf vals) : ∃ s', rdout s = .next (s', vals) ∧ Idle s' ∧ s'.block = s.block := by
  obtain ⟨s1, h1, i1, a1⟩ := rdAt_regOffset hs .olen
  obtain ⟨s2, h2, i2, a2⟩ := rdOut_eq vals i1 (i := 0) (by omega) (by
    intro k hk; rw [entry_of_block a1, Nat.zero_add]; exact hb k hk)
  refine ⟨s2, ?_, i2, a2.trans a1⟩
  have hn : (readReg .olen s).toNat = vals.length := by
    simp only [readReg, ho]; simp; try omega
  rw [rdout, h1]
  simp only [andThen_next, hn, h2]

/-- A poll that meets a completion step `n` host steps away. -/
theorem drain_poll (n : Nat) : ∀ {s : State} {w : Word} {t : State}, s.faulted = false → s.pcmd = some w → s.host = [.poll] → s.wait = n →
    engineComplete w { s with wait := 0, rdata := if n = 0 then s.rdata else some s.statusWord } = .next t →
    drain (n + 2) s = .next ({ t with host := [], rdata := some t.statusWord }, ()) := by
  induction n with
  | zero =>
    intro s w t hf hp hh hw he
    have hd : Due s w := ⟨hf, hp, .inl hw⟩
    have h1 := step_due hd
    have : { s with wait := 0, rdata := if 0 = 0 then s.rdata else some s.statusWord } = s := by cases s; simp_all
    rw [this] at he
    rw [he] at h1
    obtain ⟨t1, t2, t3, t4⟩ := engineComplete_keeps_host w he
    have h5 : step t = .next (t.advance.setRdata t.statusWord) := by
      rw [step_host (t4.trans hf) (t1.trans hh) (.inl t3)]
      simp only [hostStep, busyBit_statusWord, State.busy_eq_false.2 t3]
      rfl
    simp only [drain]
    rw [if_neg (by simp [hh]), h1]
    dsimp only
    rw [if_neg (by simp [t1, hh]), h5]
    simp [State.advance, State.setRdata, t1, t2, hh]
  | succ n ih =>
    intro s w t hf hp hh hw he
    have hst : step s = .next (s.pollAgain.setRdata s.statusWord) := by
      rw [step_host hf hh (.inr (by omega))]
      simp only [hostStep, busyBit_statusWord, State.busy_iff.2 (show s.pcmd ≠ none by simp [hp]), if_true]
    rw [show n + 1 + 2 = (n + 2) + 1 by omega, drain, if_neg (by simp [hh]), hst]
    dsimp only
    refine ih (s := s.pollAgain.setRdata s.statusWord) hf hp hh (by simp [hw]) ?_
    rw [← he]
    congr 1
    by_cases hn : n = 0
    · subst hn; simp [State.pollAgain, State.setRdata]
    · simp [hn, State.pollAgain, State.setRdata, State.statusWord, State.busy]

/-- `issue` (R102) of a command whose outcome has a property of the block, whatever the host's own fields hold. -/
theorem issue_of_exec {s : State} (hs : Idle s) {i : Instr} (hd : decode (encode i) = .ok i) {P : Block → Prop}
    (h : ∀ u : State, u.block = s.block → ∃ t, exec i u = .next t ∧ P (t.block)) :
    ∃ s', issue i s = .next (s', ()) ∧ Idle s' ∧ P (s'.block) := by
  have h1 := step_write_reg (s := s.setHost [wrReg .cmd (encode i)]) (r := .cmd) (w := encode i) (rest := []) hs.1 rfl
  have p1 := perform_of_step (op := wrReg .cmd (encode i)) (s := s) h1 rfl
  set s1 := writeReg .cmd (encode i) (s.setHost [wrReg .cmd (encode i)]).advance with hs1
  obtain ⟨t, he, hP⟩ := h { s1.setHost [.poll] with wait := 0, rdata := if s1.wait = 0 then s1.rdata else some s1.statusWord } rfl
  obtain ⟨x1, x2, x3, x4⟩ := exec_keeps_host i he
  have he' : engineComplete (encode i) { s1.setHost [.poll] with wait := 0, rdata := if s1.wait = 0 then s1.rdata else some s1.statusWord } = .next t := by
    rw [engineComplete_ok hd]; exact he
  have h2 := drain_poll (s1.setHost [.poll]).wait (s := s1.setHost [.poll]) (w := encode i) (t := t) hs.1.1 rfl rfl rfl he'
  have h3 : issue i s = .next ({ t with host := [], rdata := some t.statusWord }, ()) := by
    rw [issue, issueOps]
    simp only [performAll]
    rw [p1]
    simp only [andThen_next]
    rw [perform]
    have : drain (s1.wait + 2) (s1.setHost [.poll]) = _ := h2
    rw [this]; rfl
  exact ⟨_, h3, ⟨⟨x4.trans hs.1.1, x3⟩, rfl⟩, hP⟩

end Sys2Proof.Machine
end

