-- ==== Sys2Proof/Laws/Lookup.lean ====
section
/-! SUPPORT. What the alphabet's search finds (spec/40_alphabet.md R110 to R112), said once. -/

namespace Sys2Proof.Machine

/-- What is found stands at the index found. -/
theorem findByte_some {c : Byte} {l : List Byte} {n : Nat} (h : findByte c l = some n) : l[n]? = some c := by
  induction l generalizing n with
  | nil => simp [findByte] at h
  | cons x rest ih =>
    simp only [findByte] at h
    split at h
    · cases h; simp_all
    · cases hr : findByte c rest with
      | none => simp [hr] at h
      | some m => simp [hr] at h; subst h; simpa using ih hr

/-- What is not found is not in the list. -/
theorem findByte_none {c : Byte} {l : List Byte} (h : findByte c l = none) : c ∉ l := by
  induction l with
  | nil => simp
  | cons x rest ih =>
    simp only [findByte] at h
    split at h
    · cases h
    · rename_i hx
      have : findByte c rest = none := by simpa using h
      simp only [List.mem_cons, not_or]
      exact ⟨fun h => hx h.symm, ih this⟩

theorem charset_nodup : charset.Nodup := by decide

theorem charset_length : charset.length = 32 := rfl

end Sys2Proof.Machine
end

