-- ==== Sys2Proof/Laws/PerInstr.lean ====
section
/-! SUPPORT. Statements about every command as syntax, one lemma per constructor. -/

namespace Sys2Proof.Laws.OpField

/-- The low four bits of a command's word are its opcode (30_encoding.md R92), and the word has no bit above bit 15
(R91). -/
def Statement (i : Instr) : Prop := opField (encode i) = i.opcode ∧ (encode i).toNat < 2 ^ 16

theorem polymod : Statement .polymod := by unfold Statement; decide

theorem ckgen (enc : Variant) : Statement (.ckgen enc) := by unfold Statement; cases enc <;> decide

theorem ckver : Statement .ckver := by unfold Statement; decide

theorem convert (fromBits toBits : BitVec 4) (pad : Bool) : Statement (.convert fromBits toBits pad) := by
  have hf := fromBits.isLt
  have ht := toBits.isLt
  have hp : pad.toNat < 2 := by cases pad <;> decide
  refine ⟨?_, by rw [encode_convert_toNat]; omega⟩
  apply BitVec.eq_of_toNat_eq
  rw [opField_toNat, encode_convert_toNat, show (Instr.convert fromBits toBits pad).opcode.toNat = 4 from rfl]
  omega

theorem lutenc (v : Byte) : Statement (.lutenc v) := by
  have hv := v.isLt
  refine ⟨?_, by rw [encode_lutenc_toNat]; omega⟩
  apply BitVec.eq_of_toNat_eq
  rw [opField_toNat, encode_lutenc_toNat, show (Instr.lutenc v).opcode.toNat = 5 from rfl]
  omega

theorem lutdec (ch : Byte) : Statement (.lutdec ch) := by
  have hv := ch.isLt
  refine ⟨?_, by rw [encode_lutdec_toNat]; omega⟩
  apply BitVec.eq_of_toNat_eq
  rw [opField_toNat, encode_lutdec_toNat, show (Instr.lutdec ch).opcode.toNat = 6 from rfl]
  omega

end Sys2Proof.Laws.OpField
end

