-- ==== Sys2Proof/Laws/Polymod.lean ====
section
/-! SUPPORT. One step of the polymod is linear over exclusive or, and what follows for a fold of it
(spec/41_polymod.md R131). -/

namespace Sys2Proof.Machine

theorem selectGen_xor (a b : BitVec 5) (i : Nat) (g : Acc) : selectGen (a ^^^ b) i g = selectGen a i g ^^^ selectGen b i g := by
  simp only [selectGen, BitVec.getLsbD_xor]
  cases a.getLsbD i <;> cases b.getLsbD i <;> simp

theorem reduction_xor (a b : BitVec 5) : reduction (a ^^^ b) = reduction a ^^^ reduction b := by
  simp only [reduction, selectGen_xor]
  ac_rfl

theorem pmStep_xor (a b : Acc) (v w : Symbol) : pmStep (a ^^^ b) (v ^^^ w) = pmStep a v ^^^ pmStep b w := by
  have h1 : (a ^^^ b) <<< 5 = (a <<< 5) ^^^ (b <<< 5) := BitVec.shiftLeft_xor_distrib ..
  have h2 : (a ^^^ b).extractLsb' 25 5 = a.extractLsb' 25 5 ^^^ b.extractLsb' 25 5 := BitVec.extractLsb'_xor ..
  have h3 : (v ^^^ w).setWidth 30 = v.setWidth 30 ^^^ w.setWidth 30 := BitVec.setWidth_xor ..
  simp only [pmStep, h1, h2, h3, reduction_xor]
  ac_rfl

/-- Two runs of equal length, combined. -/
theorem foldl_pmStep_xor : ∀ (a b : List Symbol) (x y : Acc), a.length = b.length →
    a.foldl pmStep x ^^^ b.foldl pmStep y = (List.zipWith (· ^^^ ·) a b).foldl pmStep (x ^^^ y) := by
  intro a
  induction a with
  | nil => intro b x y h; cases b <;> simp_all
  | cons v a ih =>
    intro b x y h
    cases b with
    | nil => simp at h
    | cons w b =>
      simp only [List.foldl_cons, List.zipWith_cons_cons]
      rw [ih b _ _ (by simpa using h), pmStep_xor]

end Sys2Proof.Machine
end

