-- ==== Sys2Proof/Laws/Regroup.lean ====
section
/-! SUPPORT. The bit stream of spec/43_regroup.md R180 and what the loops of R182 compute on it, each said once. -/

namespace Sys2Proof.Machine

/-! ### The number of a bit list -/

theorem bitsValue_foldl (bs : List Bool) (n : Nat) :
    bs.foldl (fun n b => 2 * n + b.toNat) n = n * 2 ^ bs.length + bitsValue bs := by
  induction bs generalizing n with
  | nil => simp [bitsValue]
  | cons b bs ih =>
    rw [bitsValue, List.foldl_cons, List.foldl_cons, ih, ih (2 * 0 + b.toNat), List.length_cons, Nat.pow_succ]
    ring

theorem bitsValue_append (a b : List Bool) : bitsValue (a ++ b) = bitsValue a * 2 ^ b.length + bitsValue b := by
  rw [bitsValue, List.foldl_append, bitsValue_foldl]; rfl

theorem bitsValue_lt (bs : List Bool) : bitsValue bs < 2 ^ bs.length := by
  induction bs with
  | nil => decide
  | cons b bs ih =>
    have := bitsValue_append [b] bs
    simp only [List.singleton_append] at this
    rw [this, List.length_cons, Nat.pow_succ]
    cases b <;> simp [bitsValue] at * <;> omega

theorem bitsValue_zeros (n : Nat) : bitsValue (List.replicate n false) = 0 := by
  induction n with
  | zero => rfl
  | succ n ih => 
    have := bitsValue_append [false] (List.replicate n false)
    rw [List.replicate_succ]; simp only [List.singleton_append] at this; rw [this, ih]; simp [bitsValue]

theorem bitsValue_eq_zero {bs : List Bool} : bitsValue bs = 0 ↔ true ∉ bs := by
  induction bs with
  | nil => simp [bitsValue]
  | cons b bs ih =>
    have := bitsValue_append [b] bs
    simp only [List.singleton_append] at this
    rw [this]
    cases b
    · simp [bitsValue] at *; exact ih
    · simp [bitsValue]

/-! ### The bits of a value -/

@[simp] theorem bitsOf_length (f : Nat) (v : Byte) : (bitsOf f v).length = f := by simp [bitsOf]

/-- The list whose number a value is, is the value's bits. -/
theorem bitsOf_eq {t : Nat} {v : Byte} {x : List Bool} (hl : x.length = t) (hv : v.toNat = bitsValue x) : bitsOf t v = x := by
  subst hl
  have key : ∀ (x : List Bool) (n : Nat), (List.range x.length).map (fun j => (n * 2 ^ x.length + bitsValue x).testBit (x.length - 1 - j)) = x := by
    intro x
    induction x with
    | nil => intro n; rfl
    | cons b bs ih =>
      intro n
      have h1 := bitsValue_append [b] bs
      simp only [List.singleton_append] at h1
      have hb : bitsValue [b] = b.toNat := by simp [bitsValue]
      have hlt := bitsValue_lt bs
      rw [List.length_cons, List.range_succ_eq_map, List.map_cons, List.map_map, h1, hb]
      have e : n * 2 ^ (bs.length + 1) + (b.toNat * 2 ^ bs.length + bitsValue bs) = (2 * n + b.toNat) * 2 ^ bs.length + bitsValue bs := by
        rw [Nat.pow_succ]; ring
      rw [e]
      congr 1
      · have : (2 * n + b.toNat) * 2 ^ bs.length + bitsValue bs = 2 ^ bs.length * (2 * n + b.toNat) + bitsValue bs := by ring
        rw [this, Nat.two_pow_add_eq_or_of_lt hlt]
        simp only [Nat.testBit_or, Nat.testBit_two_pow_mul]
        rw [Nat.testBit_lt_two_pow (x := bitsValue bs) (by simpa using hlt)]
        cases b <;> simp
      · have := ih (2 * n + b.toNat)
        refine Eq.trans ?_ this
        refine List.map_congr_left fun j hj => ?_
        simp only [Function.comp]
        congr 1
        omega
  have := key x 0
  simp only [Nat.zero_mul, Nat.zero_add] at this
  rw [bitsOf, hv]; exact this

/-- The bits of a value that fits give the value back. -/
theorem bitsValue_bitsOf {f : Nat} {v : Byte} (h : v.toNat < 2 ^ f) : bitsValue (bitsOf f v) = v.toNat := by
  induction f generalizing v with
  | zero => simp at h; simp [bitsOf, bitsValue, h]
  | succ f ih =>
    have h2 : bitsOf (f+1) v = v.toNat.testBit f :: bitsOf f (BitVec.ofNat 8 (v.toNat % 2 ^ f)) := by
      simp only [bitsOf]
      rw [List.range_succ_eq_map, List.map_cons, List.map_map]
      congr 1
      refine List.map_congr_left fun j hj => ?_
      have hj' : j < f := by simpa using hj
      have : v.toNat % 2 ^ f < 2 ^ 8 := lt_of_le_of_lt (Nat.mod_le _ _) v.isLt
      simp only [Function.comp, BitVec.toNat_ofNat, Nat.mod_eq_of_lt this, Nat.testBit_mod_two_pow]
      rw [show f + 1 - 1 - (j + 1) = f - 1 - j by omega]
      simp; omega
    have hm : v.toNat % 2 ^ f < 2 ^ 8 := lt_of_le_of_lt (Nat.mod_le _ _) v.isLt
    have h3 := bitsValue_append [v.toNat.testBit f] (bitsOf f (BitVec.ofNat 8 (v.toNat % 2 ^ f)))
    simp only [List.singleton_append] at h3
    rw [h2, h3, ih (by simp only [BitVec.toNat_ofNat, Nat.mod_eq_of_lt hm]; exact Nat.mod_lt _ (by positivity)), bitsOf_length]
    simp only [BitVec.toNat_ofNat, Nat.mod_eq_of_lt hm]
    have hb : bitsValue [v.toNat.testBit f] = v.toNat / 2 ^ f := by
      have h1 : v.toNat / 2 ^ f < 2 := by
        rw [Nat.div_lt_iff_lt_mul (by positivity)]; rw [Nat.pow_succ] at h; omega
      simp only [bitsValue, List.foldl_cons, List.foldl_nil, Nat.testBit_eq_decide_div_mod_eq]
      rw [Nat.mod_eq_of_lt h1]
      interval_cases v.toNat / 2 ^ f <;> rfl
    rw [hb]
    exact Nat.div_add_mod' v.toNat (2 ^ f)

/-! ### The stream and its groups -/

theorem bitStream_length (f : Nat) (d : List Byte) : (bitStream f d).length = d.length * f := by
  induction d with
  | nil => simp [bitStream]
  | cons v d ih =>
    simp only [bitStream, List.flatMap_cons, List.length_append, bitsOf_length, List.length_cons] at *
    rw [ih]; ring

theorem bitStream_append (f : Nat) (a b : List Byte) : bitStream f (a ++ b) = bitStream f a ++ bitStream f b := by
  simp [bitStream]

theorem bitStream_cons (f : Nat) (v : Byte) (b : List Byte) : bitStream f (v :: b) = bitsOf f v ++ bitStream f b := by
  simp [bitStream]

@[simp] theorem fullGroups_length (t n : Nat) (bs : List Bool) : (fullGroups t n bs).length = n := by
  induction n generalizing bs with
  | zero => rfl
  | succ n ih => simp [fullGroups, ih]

theorem fullGroups_add (t n m : Nat) (bs : List Bool) :
    fullGroups t (n + m) bs = fullGroups t n bs ++ fullGroups t m (bs.drop (n * t)) := by
  induction n generalizing bs with
  | zero => simp [fullGroups]
  | succ n ih =>
    rw [show n + 1 + m = (n + m) + 1 by omega]
    simp only [fullGroups, ih, List.cons_append, List.drop_drop]
    rw [show t + n * t = (n + 1) * t by ring]

theorem fullGroups_append {t n : Nat} {bs x : List Bool} (h : n * t ≤ bs.length) :
    fullGroups t n (bs ++ x) = fullGroups t n bs := by
  induction n generalizing bs with
  | zero => rfl
  | succ n ih =>
    have h1 : t ≤ bs.length := by rw [Nat.add_mul] at h; omega
    simp only [fullGroups]
    rw [List.take_append_of_le_length h1, List.drop_append_of_le_length h1, ih]
    rw [List.length_drop]; rw [Nat.add_mul] at h; omega

/-- Cutting a stream into groups and laying the groups out again gives its first bits. -/
theorem bitStream_fullGroups {t n : Nat} {bs : List Bool} (ht : t ≤ 8) (h : n * t ≤ bs.length) :
    bitStream t (fullGroups t n bs) = bs.take (n * t) := by
  induction n generalizing bs with
  | zero => simp [fullGroups, bitStream]
  | succ n ih =>
    have h1 : t ≤ bs.length := by rw [Nat.add_mul] at h; omega
    have hlt := bitsValue_lt (bs.take t)
    rw [List.length_take, Nat.min_eq_left h1] at hlt
    have h8 : bitsValue (bs.take t) < 2 ^ 8 := lt_of_lt_of_le hlt (Nat.pow_le_pow_right (by omega) ht)
    rw [fullGroups, bitStream_cons, ih (by rw [List.length_drop]; rw [Nat.add_mul] at h; omega)]
    rw [bitsOf_eq (x := bs.take t) (by simp [h1]) (by simp only [BitVec.toNat_ofNat]; omega)]
    rw [show (n + 1) * t = t + n * t by ring, List.take_add]

/-- Cutting a sequence's own stream at its own width gives the sequence. -/
theorem fullGroups_bitStream {f : Nat} {d : List Byte} (h : ∀ v ∈ d, v.toNat < 2 ^ f) :
    fullGroups f d.length (bitStream f d) = d := by
  induction d with
  | nil => rfl
  | cons v d ih =>
    rw [List.length_cons, fullGroups, bitStream_cons]
    rw [List.take_left' (bitsOf_length f v), List.drop_left' (bitsOf_length f v), ih fun x hx => h x (by simp [hx])]
    rw [bitsValue_bitsOf (h v (by simp))]
    simp

theorem fullGroups_lt {t n : Nat} {bs : List Bool} : ∀ v ∈ fullGroups t n bs, v.toNat < 2 ^ t := by
  induction n generalizing bs with
  | zero => simp [fullGroups]
  | succ n ih =>
    intro v hv
    simp only [fullGroups, List.mem_cons] at hv
    rcases hv with rfl | hv
    · have := bitsValue_lt (bs.take t)
      rw [List.length_take] at this
      simp only [BitVec.toNat_ofNat]
      refine lt_of_le_of_lt (Nat.mod_le _ _) (lt_of_lt_of_le this (Nat.pow_le_pow_right (by omega) (Nat.min_le_left _ _)))
    · exact ih v hv

/-! ### The loops -/

/-- Everything the inner loop does: `u` is the list of the bits still to be emitted. -/
theorem emitGroups_eq {t : Nat} (ht : 1 ≤ t) (fuel : Nat) : ∀ (r : RegroupState) (u : List Bool), r.bits ≤ fuel → u.length = r.bits →
    r.acc % 2 ^ r.bits = bitsValue u →
    emitGroups t fuel r = { acc := r.acc, bits := r.bits % t, out := r.out ++ fullGroups t (r.bits / t) u } := by
  induction fuel with
  | zero =>
    intro r u hf hu hv
    have h0 : r.bits = 0 := by omega
    cases r
    simp only at h0
    simp [emitGroups, h0, fullGroups]
  | succ fuel ih =>
    intro r u hf hu hv
    simp only [emitGroups]
    by_cases hb : t ≤ r.bits
    · rw [if_pos hb]
      have hsplit : bitsValue u = bitsValue (u.take t) * 2 ^ (r.bits - t) + bitsValue (u.drop t) := by
        conv_lhs => rw [← List.take_append_drop t u]
        rw [bitsValue_append, List.length_drop, hu]
      have hdlt := bitsValue_lt (u.drop t)
      rw [List.length_drop, hu] at hdlt
      have htlt := bitsValue_lt (u.take t)
      rw [List.length_take, hu, Nat.min_eq_left hb] at htlt
      have hpow : 2 ^ r.bits = 2 ^ t * 2 ^ (r.bits - t) := by rw [← Nat.pow_add]; congr 1; omega
      have hacc : r.acc = (r.acc / 2 ^ r.bits * 2 ^ t + bitsValue (u.take t)) * 2 ^ (r.bits - t) + bitsValue (u.drop t) := by
        have := Nat.div_add_mod' r.acc (2 ^ r.bits)
        rw [hv, hsplit, hpow] at this
        rw [hpow]
        rw [Nat.add_mul, Nat.mul_assoc]; omega
      have hemit : (r.acc >>> (r.bits - t)) &&& maxGroup t = bitsValue (u.take t) := by
        rw [maxGroup, Nat.and_two_pow_sub_one_eq_mod, Nat.shiftRight_eq_div_pow]
        conv_lhs => rw [hacc]
        rw [Nat.mul_comm _ (2 ^ (r.bits - t)), Nat.mul_add_div (by positivity), Nat.div_eq_of_lt hdlt, Nat.add_zero,
          Nat.mul_comm _ (2 ^ t), Nat.mul_add_mod, Nat.mod_eq_of_lt htlt]
      have hv' : r.acc % 2 ^ (r.bits - t) = bitsValue (u.drop t) := by
        conv_lhs => rw [hacc]
        rw [Nat.mul_comm _ (2 ^ (r.bits - t)), Nat.mul_add_mod, Nat.mod_eq_of_lt hdlt]
      rw [ih _ (u.drop t) (by simp; omega) (by simp [hu]) hv']
      simp only [hemit]
      have hd : r.bits / t = (r.bits - t) / t + 1 := by
        conv_lhs => rw [show r.bits = (r.bits - t) + t by omega]
        rw [Nat.add_div_right _ (by omega)]
      have hm : (r.bits - t) % t = r.bits % t := by
        conv_rhs => rw [show r.bits = (r.bits - t) + t by omega]
        rw [Nat.add_mod_right]
      rw [hd, hm]
      simp [fullGroups]
    · rw [if_neg hb]
      have hd : r.bits / t = 0 := Nat.div_eq_of_lt (by omega)
      have hm : r.bits % t = r.bits := Nat.mod_eq_of_lt (by omega)
      rw [hd, hm]
      simp [fullGroups]

/-- Everything the outer loop does. -/
theorem regroupAll_eq {f t : Nat} (ht : 1 ≤ t) {d : List Byte} (h : ∀ v ∈ d, v.toNat < 2 ^ f) :
    regroupAll f t d = { acc := bitsValue (bitStream f d), bits := (bitStream f d).length % t,
                         out := fullGroups t ((bitStream f d).length / t) (bitStream f d) } := by
  induction d using List.reverseRecOn with
  | nil => simp [regroupAll, bitStream, bitsValue, fullGroups]
  | append_singleton d v ih =>
    have ih := ih fun x hx => h x (by simp [hx])
    have hv := h v (by simp)
    rw [regroupAll, List.foldl_append]
    rw [show d.foldl (regroupStep f t) _ = regroupAll f t d from rfl, ih]
    simp only [List.foldl_cons, List.foldl_nil, regroupStep]
    set bs := bitStream f d with hbs
    have hstr : bitStream f (d ++ [v]) = bs ++ bitsOf f v := by rw [bitStream_append, bitStream_cons, hbs]; simp [bitStream]
    have hacc : (bitsValue bs <<< f) ||| v.toNat = bitsValue (bs ++ bitsOf f v) := by
      rw [bitsValue_append, bitsOf_length, bitsValue_bitsOf hv, Nat.shiftLeft_eq, Nat.mul_comm, Nat.two_pow_add_eq_or_of_lt hv]
    have hdm := Nat.div_add_mod' bs.length t
    have hul : (bs.drop (bs.length / t * t) ++ bitsOf f v).length = bs.length % t + f := by
      rw [List.length_append, List.length_drop, bitsOf_length]; omega
    rw [hacc, emitGroups_eq ht _ _ (bs.drop (bs.length / t * t) ++ bitsOf f v) (by simp) (by simpa using hul)]
    · rw [hstr]
      congr 1
      · simp only [List.length_append, bitsOf_length]
        rw [Nat.add_mod, Nat.mod_mod, ← Nat.add_mod]
      · simp only
        have hle : bs.length / t * t ≤ bs.length := by omega
        have h1 : (bs ++ bitsOf f v).length / t = bs.length / t + (bs.length % t + f) / t := by
          rw [List.length_append, bitsOf_length]
          conv_lhs => rw [← hdm, Nat.add_assoc, Nat.mul_comm, Nat.mul_add_div (by omega)]
        rw [h1, fullGroups_add, fullGroups_append hle, List.drop_append_of_le_length hle]
    · simp only
      have hcut : bs ++ bitsOf f v = bs.take (bs.length / t * t) ++ (bs.drop (bs.length / t * t) ++ bitsOf f v) := by
        rw [← List.append_assoc, List.take_append_drop]
      have hlt := bitsValue_lt (bs.drop (bs.length / t * t) ++ bitsOf f v)
      rw [hul] at hlt
      conv_lhs => rw [hcut]
      rw [bitsValue_append, hul, Nat.mul_comm, Nat.mul_add_mod, Nat.mod_eq_of_lt hlt]

/-- The last group is the leftover bits with zero bits on the right. -/
theorem lastGroup_eq {t : Nat} {r : RegroupState} {u : List Bool} (hb : r.bits < t) (hu : u.length = r.bits)
    (hv : r.acc % 2 ^ r.bits = bitsValue u) :
    lastGroup t r = bitsValue (u ++ List.replicate (t - r.bits) false) := by
  have hlt := bitsValue_lt u
  rw [hu] at hlt
  rw [lastGroup, maxGroup, Nat.and_two_pow_sub_one_eq_mod, Nat.shiftLeft_eq, bitsValue_append, bitsValue_zeros, List.length_replicate,
    Nat.add_zero, ← hv]
  have : 2 ^ t = 2 ^ r.bits * 2 ^ (t - r.bits) := by rw [← Nat.pow_add]; congr 1; omega
  rw [this, Nat.mul_mod_mul_right]

end Sys2Proof.Machine
end

