-- ==== Sys2Proof/Tests/Slice0.lean ====
section
/-! SUPPORT. The model's own tests: the well-formedness checks, written-out command words, two small steps per command with
results from spec/95_test_vectors.md, and a state that meets the hypotheses of every statement. -/

namespace Sys2Proof.Tests

open Sys2Proof.Machine

/-! ### Well-formedness: each check refuses an ill-formed term (30_encoding.md R99) -/

theorem test_wf_ckgen_invalid : (Instr.ckgen .invalid).wellFormed = false := by decide

theorem test_wf_convert_from_zero : (Instr.convert 0 5 true).wellFormed = false := by decide

theorem test_wf_convert_from_nine : (Instr.convert 9 5 true).wellFormed = false := by decide

theorem test_wf_convert_to_zero : (Instr.convert 8 0 false).wellFormed = false := by decide

theorem test_wf_convert_to_nine : (Instr.convert 8 9 false).wellFormed = false := by decide

/-! ### Words written out from the patterns of 30_encoding.md R91 -/

/-- Format N, OP = 0001. -/
theorem test_decode_polymod : decode 0b00000000000000000000000000000001#32 = .ok .polymod := by decide

/-- Format E, ee = 01 and 10, OP = 0010. -/
theorem test_decode_ckgen :
    decode 0b00000000000000000000000000010010#32 = .ok (.ckgen .bech32) ∧
    decode 0b00000000000000000000000000100010#32 = .ok (.ckgen .bech32m) := by decide

/-- Format N, OP = 0011. -/
theorem test_decode_ckver : decode 0b00000000000000000000000000000011#32 = .ok .ckver := by decide

/-- Format C, tttt = 0101, ffff = 1000, p = 1, and tttt = 1000, ffff = 0101, p = 0, OP = 0100. -/
theorem test_decode_convert :
    decode 0b00000000000000000101100000010100#32 = .ok (.convert 8 5 true) ∧
    decode 0b00000000000000001000010100000100#32 = .ok (.convert 5 8 false) := by decide

/-- Format V, oooooooo = 00001010, OP = 0101. -/
theorem test_decode_lutenc : decode 0b00000000000000000000101000000101#32 = .ok (.lutenc 10) := by decide

/-- Format V, oooooooo = 01001100 (`L`), OP = 0110. -/
theorem test_decode_lutdec : decode 0b00000000000000000100110000000110#32 = .ok (.lutdec 0x4c) := by decide

/-- Reserved opcodes, must-be-zero bits, ENC 0 and 3, FROM and TO 0 and 9 are refused by name (R99). -/
theorem test_decode_rejects :
    decode 0x00000000 = .error .reservedOpcode ∧ decode 0x00000007 = .error .reservedOpcode ∧
    decode 0x00000011 = .error .reservedBits ∧ decode 0x00000002 = .error .reservedVariant ∧
    decode 0x00000032 = .error .reservedVariant ∧ decode 0x00005914 = .error .illegalWidth ∧
    decode 0x00000814 = .error .illegalWidth ∧ decode 0x00005834 = .error .reservedBits ∧
    decode 0x00010a05 = .error .reservedBits := by decide

theorem test_decodeTableWord :
    decodeTableWord 32 0x00005814 = some (.convert 8 5 true) ∧ decodeTableWord 32 0x00000002 = none := by decide

/-! ### Small states -/

/-- A machine that holds `h` in HBUF and `vals` in VBUF, with their lengths. -/
def holding (h vals : List Byte) : State :=
  { State.reset with
    hlen := BitVec.ofNat 9 h.length, vlen := BitVec.ofNat 9 vals.length,
    mem := Memory.writeEntries (Memory.writeEntries [] .hbuf 0 h) .vbuf 0 vals }

/-- A machine with nothing written and both lengths `n`. -/
def lengths (n : Nat) : State := { State.reset with hlen := BitVec.ofNat 9 n, vlen := BitVec.ofNat 9 n }

/-- A machine with a pending command `w` that is `n` host steps from completion. -/
def pending (w : Word) (n : Nat) (ops : List HostOp) : State := { State.reset with pcmd := some w, wait := n, host := ops }

/-- An idle machine whose host still has `ops` to do. -/
def hosting (ops : List HostOp) : State := { State.reset with host := ops }

theorem holding_vbuf (h : List Byte) (vals : List Byte) : Loaded (holding h vals) .vbuf vals := by
  intro k hk
  have := Memory.read_writeEntries_same (m := Memory.writeEntries [] .hbuf 0 h) (b := .vbuf) (i := 0) hk
  rwa [Nat.zero_add] at this

theorem holding_hbuf {h vals : List Byte} (hh : h.length ≤ 256) (hv : vals.length ≤ 256) :
    Loaded (holding h vals) .hbuf h := by
  intro k hk
  have h1 := Memory.read_writeEntries_same (m := []) (b := .hbuf) (i := 0) hk
  rw [Nat.zero_add] at h1
  refine Eq.trans (Memory.read_writeEntries_other fun j hj => ?_) h1
  rw [Nat.zero_add]
  exact entryAddr_ne (by omega) (by omega) (.inl (by decide))

/-- STATUS, ACC and LUTR after a step, or none where it stops. -/
def after (r : Result) : Option (Word × Acc × Byte) :=
  match r with
  | .next t => some (t.statusWord, t.acc, t.lutr)
  | _ => none

/-- STATUS.ERR after a step. -/
def errAfter (r : Result) : Option ErrCode :=
  match r with
  | .next t => some t.err
  | _ => none

theorem next_of_errAfter {r : Result} {e : ErrCode} (h : errAfter r = some e) : ∃ t, r = .next t ∧ t.err = e := by
  cases r with
  | next t => exact ⟨t, rfl, by simpa [errAfter] using h⟩
  | fault f => cases h
  | refused f => cases h

/-- OLEN and the first `n` entries of OBUF after a step. -/
def outputAfter (n : Nat) (r : Result) : Option (Nat × List Byte) :=
  match r with
  | .next t => (t.mem.readEntries .obuf 0 n).map (fun vals => (t.olen.toNat, vals))
  | _ => none

/-- The reason of a protocol fault. -/
def faultOf (r : Result) : Option ProtocolReason :=
  match r with
  | .fault (.protocol reason _) => some reason
  | _ => none

/-- The word a host read returned. -/
def readAfter (r : Result) : Option Word :=
  match r with
  | .next t => t.rdata
  | _ => none

/-! ### One step of each command (95_test_vectors.md V10 to V16) -/

/-- V13: six zeros; the sixth step is the first that reduces. -/
theorem test_polymod_zeros :
    after (step ((holding [] [0, 0, 0, 0, 0, 0]).withFetchWord 32 0x00000001)) = some (0x00000000, 0x3b6a57b2, 0) := by
  decide +kernel

/-- V13: [5, 32] is INVALID_VALUE and leaves ACC. -/
theorem test_polymod_range :
    after (step ((holding [] [5, 32]).withFetchWord 32 0x00000001)) = some (0x00000040, 1, 0) := by decide +kernel

/-- V14: "a" with Bech32m. -/
theorem test_ckgen_bech32m :
    outputAfter 6 (step ((holding [0x61] []).withFetchWord 32 0x00000022)) = some (6, [31, 0, 9, 19, 17, 29]) := by
  decide +kernel

/-- V14: "bc" with [0] and Bech32m leaves the checksum word in ACC. -/
theorem test_ckgen_acc :
    after (step ((holding [0x62, 0x63] [0]).withFetchWord 32 0x00000022)) = some (0x00000000, 0x21e890de, 0) := by
  decide +kernel

/-- V15: "a" with its Bech32m checksum. -/
theorem test_ckver_bech32m :
    after (step ((holding [0x61] [31, 0, 9, 19, 17, 29]).withFetchWord 32 0x00000003)) =
      some (0x00000200, 0x2bc830a3, 0) := by decide +kernel

/-- V15: five values are CHECKSUM_MISMATCH and leave ACC. -/
theorem test_ckver_short :
    after (step ((holding [0x61] [10, 28, 25, 31, 20]).withFetchWord 32 0x00000003)) = some (0x00000020, 1, 0) := by
  decide +kernel

/-- V16: [0xff] from 8 to 5 bits, padded. -/
theorem test_convert_pad :
    outputAfter 2 (step ((holding [] [0xff]).withFetchWord 32 0x00005814)) = some (2, [31, 28]) := by decide +kernel

/-- V16: [31, 29] from 5 to 8 bits leaves a one bit over. -/
theorem test_convert_nopad :
    after (step ((holding [] [31, 29]).withFetchWord 32 0x00008504)) = some (0x00000030, 1, 0) := by decide +kernel

/-- V10: value 10 is `2`. -/
theorem test_lutenc : after (step (State.reset.withFetchWord 32 0x00000a05)) = some (0x00000000, 1, 0x32) := by
  decide +kernel

/-- V10: value 32 is INVALID_VALUE. -/
theorem test_lutenc_range : after (step (State.reset.withFetchWord 32 0x00002005)) = some (0x00000040, 1, 0) := by
  decide +kernel

/-- V11: `L` is 31. -/
theorem test_lutdec : after (step (State.reset.withFetchWord 32 0x00004c06)) = some (0x00000000, 1, 31) := by
  decide +kernel

/-- V11: 0xe1 is not folded and not a member. -/
theorem test_lutdec_miss : after (step (State.reset.withFetchWord 32 0x0000e106)) = some (0x00000010, 1, 0) := by
  decide +kernel

/-- V14: ENC = 3 is ILLEGAL_COMMAND, though nothing is written and the lengths are too long. -/
theorem test_illegal : after (step ((lengths 300).withFetchWord 32 0x00000032)) = some (0x00000060, 1, 0) := by
  decide +kernel

/-- 60_exceptions.md R247: an unwritten entry faults. -/
theorem test_unwritten : faultOf (step ((lengths 1).withFetchWord 32 0x00000001)) = some .unwrittenEntry := by
  decide +kernel

/-- 20_memory.md R62, R63: offset 0x3FC is unmapped, 0xFFC is OBUF[255]. -/
theorem test_window_edges :
    faultOf (step (hosting [.read 0x3FC 4])) = some .unmapped ∧
    faultOf (step (hosting [.read 0xFFC 4])) = some .unwrittenEntry := by decide +kernel

/-- 20_memory.md R65: the low nine bits of a length are stored. -/
theorem test_hlen_write :
    readAfter (runSteps 2 (hosting [.write 0x008 4 0xFFFFFF2C, .read 0x008 4])) = some 300 := by decide +kernel

/-! ### Witnesses: for every statement with hypotheses, a state and operands that meet all of them

Each clause has its own, at a boundary of its range. -/

/-- Both buffers full: 256 characters and 256 values. -/
def full : State := holding (List.replicate 256 0x61) (List.replicate 256 31)

theorem full_lengths : full.hlen.toNat = 256 ∧ full.vlen.toNat = 256 := by decide +kernel

theorem full_vbuf : Loaded full .vbuf (List.replicate 256 31) := holding_vbuf _ _

theorem full_hbuf : Loaded full .hbuf (List.replicate 256 0x61) := holding_hbuf (Nat.le_of_eq List.length_replicate) (Nat.le_of_eq List.length_replicate)

theorem full_symbols : AllSymbols (List.replicate 256 31) := by
  intro v hv
  rw [List.eq_of_mem_replicate hv]
  decide

theorem isSome_replicate {n k : Nat} (x : Byte) (h : k < n) : ((List.replicate n x)[k]?).isSome = true := by simp [h]

theorem full_written : WrittenUpTo full .hbuf full.hlen.toNat ∧ WrittenUpTo full .vbuf full.vlen.toNat := by
  rw [full_lengths.1, full_lengths.2]
  constructor
  · intro k hk
    rw [full_hbuf k (by rw [List.length_replicate]; exact hk)]
    exact isSome_replicate _ hk
  · intro k hk
    rw [full_vbuf k (by rw [List.length_replicate]; exact hk)]
    exact isSome_replicate _ hk

theorem not_decoded {w : Word} {r : Reject} (h : decode w = .error r) : ∀ i, decode w ≠ .ok i := by
  intro i hi
  rw [h] at hi
  cases hi

/-! Encoding -/

theorem witness_DecodeOfEncodeIsIdentity :
    (Instr.convert 1 8 true).wellFormed = true ∧ (Instr.convert 8 1 false).wellFormed = true ∧
    (Instr.ckgen .bech32m).wellFormed = true ∧ (Instr.lutdec 0xff).wellFormed = true := by decide

theorem witness_DecodedWordEncodesBack :
    decode 0x00008114 = .ok (.convert 1 8 true) ∧ decode 0x0000ff05 = .ok (.lutenc 0xff) := by decide

theorem witness_ExactlyTheLegalWordsDecode :
    (Ready (hosting [.write 0x000 4 0xffffffff]) ∧
      (hosting [.write 0x000 4 0xffffffff]).host = .write 0x000 4 0xffffffff :: []) ∧
    ((∀ i, decode 0xffffffff ≠ .ok i) ∧ Due (pending 0xffffffff 0 []) 0xffffffff) :=
  ⟨by decide, not_decoded (r := .reservedOpcode) (by decide), by decide⟩

/-! The step -/

theorem witness_StepRunsDecodedCommandOrHost :
    (Due (pending 1 0 [.poll]) 1 ∧ decode 1 = .ok .polymod) ∧ (Due (pending 1 1 []) 1 ∧ decode 1 = .ok .polymod) ∧
    ((pending 1 1 [.poll]).faulted = false ∧ (pending 1 1 [.poll]).pcmd = some 1 ∧ (pending 1 1 [.poll]).wait ≠ 0 ∧
      (pending 1 1 [.poll]).host = .poll :: []) ∧
    (Ready (hosting [.reset]) ∧ (hosting [.reset]).host = .reset :: []) ∧
    (Ready State.reset ∧ State.reset.host = []) := by decide

theorem witness_ResetEventRestoresResetValues :
    ((hosting [.reset]).faulted = false ∧ (hosting [.reset]).host = .reset :: [] ∧ (hosting [.reset]).pcmd = none) ∧
    ((pending 1 1 [.reset]).faulted = false ∧ (pending 1 1 [.reset]).host = .reset :: [] ∧
      (pending 1 1 [.reset]).wait ≠ 0) := by decide

/-! The commands -/

/-- The clauses that every command with an input has: too long (257), unwritten (256), full and in range (256). -/
theorem witness_inputs :
    256 < (lengths 257).vlen.toNat ∧ 256 < (lengths 257).hlen.toNat ∧
    ((lengths 256).vlen.toNat ≤ 256 ∧ (lengths 256).hlen.toNat ≤ 256 ∧
      ¬ WrittenUpTo (lengths 256) .vbuf (lengths 256).vlen.toNat ∧
      ¬ (WrittenUpTo (lengths 256) .hbuf (lengths 256).hlen.toNat ∧
        WrittenUpTo (lengths 256) .vbuf (lengths 256).vlen.toNat)) ∧
    (full.vlen.toNat ≤ 256 ∧ full.hlen.toNat ≤ 256 ∧ (List.replicate 256 (31 : Byte)).length = full.vlen.toNat ∧
      Loaded full .vbuf (List.replicate 256 31) ∧ (List.replicate 256 (0x61 : Byte)).length = full.hlen.toNat ∧
      Loaded full .hbuf (List.replicate 256 0x61) ∧ AllSymbols (List.replicate 256 31)) := by
  have hv : ¬ WrittenUpTo (lengths 256) .vbuf (lengths 256).vlen.toNat := fun h => by
    have := h 0 (by decide)
    revert this
    decide
  refine ⟨by decide, by decide, ⟨by decide, by decide, hv, fun h => hv h.2⟩, ?_⟩
  exact ⟨full_lengths.2.le, full_lengths.1.le, by rw [full_lengths.2, List.length_replicate], full_vbuf,
    by rw [full_lengths.1, List.length_replicate], full_hbuf, full_symbols⟩

/-- A value out of range (32), loaded, with an HRP. -/
theorem witness_outOfRange :
    (holding [0x61] [32]).vlen.toNat ≤ 256 ∧ (holding [0x61] [32]).hlen.toNat ≤ 256 ∧
    [32].length = (holding [0x61] [32]).vlen.toNat ∧ Loaded (holding [0x61] [32]) .vbuf [32] ∧
    [0x61].length = (holding [0x61] [32]).hlen.toNat ∧ Loaded (holding [0x61] [32]) .hbuf [0x61] ∧
    ¬ AllSymbols [32] := by decide

theorem witness_PolymodComputesPolymodOfVbuf_illegal :
    (0x00000011 : Word).extractLsb' 0 4 = 1 ∧ (0x00000011 : Word) ≠ 0x00000001 := by decide

theorem witness_CkgenWritesChecksum_illegal :
    (0x00000002 : Word).extractLsb' 0 4 = 2 ∧ (0x00000002 : Word) ≠ 0x00000012 ∧ (0x00000002 : Word) ≠ 0x00000022 := by
  decide

theorem witness_CkgenWritesChecksum_variants :
    ((Variant.bech32 = .bech32 ∧ (1 : Acc) = 0x00000001) ∨ (Variant.bech32 = .bech32m ∧ (1 : Acc) = 0x2bc830a3)) ∧
    ((Variant.bech32m = .bech32 ∧ (0x2bc830a3 : Acc) = 0x00000001) ∨
      (Variant.bech32m = .bech32m ∧ (0x2bc830a3 : Acc) = 0x2bc830a3)) := by decide

theorem witness_CkverReportsVariant_illegal :
    (0x80000003 : Word).extractLsb' 0 4 = 3 ∧ (0x80000003 : Word) ≠ 0x00000003 := by decide

/-- Five values are too few, six are enough. -/
theorem witness_CkverReportsVariant_short :
    (AllSymbols [10, 28, 25, 31, 20] ∧ ([10, 28, 25, 31, 20] : List Byte).length < 6 ∧
      ([10, 28, 25, 31, 20] : List Byte).length = (holding [0x61] [10, 28, 25, 31, 20]).vlen.toNat ∧
      Loaded (holding [0x61] [10, 28, 25, 31, 20]) .vbuf [10, 28, 25, 31, 20] ∧
      Loaded (holding [0x61] [10, 28, 25, 31, 20]) .hbuf [0x61]) ∧
    (AllSymbols [10, 28, 25, 31, 20, 31] ∧ 6 ≤ ([10, 28, 25, 31, 20, 31] : List Byte).length ∧
      ([10, 28, 25, 31, 20, 31] : List Byte).length = (holding [0x61] [10, 28, 25, 31, 20, 31]).vlen.toNat ∧
      Loaded (holding [0x61] [10, 28, 25, 31, 20, 31]) .vbuf [10, 28, 25, 31, 20, 31] ∧
      Loaded (holding [0x61] [10, 28, 25, 31, 20, 31]) .hbuf [0x61]) := by decide +kernel

/-- The three outcomes of the constant comparison (V15). -/
theorem witness_CkverReportsVariant_constants :
    polymod (expand [0x61] (symbolsOf [10, 28, 25, 31, 20, 31])) = 0x00000001 ∧
    polymod (expand [0x61] (symbolsOf [31, 0, 9, 19, 17, 29])) = 0x2bc830a3 ∧
    polymod (expand [0x61] (symbolsOf [10, 28, 25, 31, 20, 0])) ≠ 0x00000001 ∧
    polymod (expand [0x61] (symbolsOf [10, 28, 25, 31, 20, 0])) ≠ 0x2bc830a3 := by decide +kernel

/-- FROM = 0, FROM = 9, TO = 0, TO = 9, bit 5 and bit 16. -/
theorem witness_ConvertStoresRegroupedBits_illegal :
    ((0x00005014 : Word).extractLsb' 0 4 = 4 ∧ ((0x00005014 : Word).extractLsb' 8 4).toNat = 0) ∧
    8 < ((0x00005914 : Word).extractLsb' 8 4).toNat ∧ ((0x00000814 : Word).extractLsb' 12 4).toNat = 0 ∧
    8 < ((0x00009814 : Word).extractLsb' 12 4).toNat ∧ (0x00005834 : Word).extractLsb' 5 3 ≠ 0 ∧
    (0x00015814 : Word).extractLsb' 16 16 ≠ 0 := by decide

theorem witness_ConvertStoresRegroupedBits_widths :
    (1 ≤ (1 : BitVec 4).toNat ∧ (1 : BitVec 4).toNat ≤ 8 ∧ 1 ≤ (8 : BitVec 4).toNat ∧ (8 : BitVec 4).toNat ≤ 8) := by
  decide

/-- Each outcome of the regrouper, on loaded values; 33 bytes to single bits are 264 values, 32 bytes are 256. -/
theorem witness_ConvertStoresRegroupedBits_outcomes :
    convertBits [32] 5 8 false = .invalidValue ∧ convertBits [31, 29] 5 8 false = .invalidPadding ∧
    (∃ out, convertBits (List.replicate 33 0) 8 1 true = .ok out ∧ 256 < out.length) ∧
    (∃ out, convertBits (List.replicate 32 0) 8 1 true = .ok out ∧ out.length ≤ 256) ∧
    (∀ n : Nat, n = 32 ∨ n = 33 → (holding [] (List.replicate n 0)).vlen.toNat ≤ 256 ∧
      (List.replicate n (0 : Byte)).length = (holding [] (List.replicate n 0)).vlen.toNat ∧
      Loaded (holding [] (List.replicate n 0)) .vbuf (List.replicate n 0)) := by
  refine ⟨by decide +kernel, by decide +kernel, ⟨List.replicate 264 0, by decide +kernel, by rw [List.length_replicate]; omega⟩,
    ⟨List.replicate 256 0, by decide +kernel, Nat.le_of_eq List.length_replicate⟩, ?_⟩
  rintro n (rfl | rfl)
  · exact ⟨by decide +kernel, by decide +kernel, holding_vbuf _ _⟩
  · exact ⟨by decide +kernel, by decide +kernel, holding_vbuf _ _⟩

theorem witness_LutencReturnsCharacter :
    31 < (32 : Byte).toNat ∧ (31 : Byte).toNat ≤ 31 ∧
    ((0x00000a15 : Word).extractLsb' 0 4 = 5 ∧ (0x00000a15 : Word).extractLsb' 4 4 ≠ 0) := by decide

theorem witness_LutdecReturnsValue :
    lower 0x31 ∉ charset ∧ charset[31]? = some (lower 0x4c) ∧ charset[0]? = some (lower 0x51) ∧
    ((0x00014c06 : Word).extractLsb' 0 4 = 6 ∧ (0x00014c06 : Word).extractLsb' 16 16 ≠ 0) := by decide

/-! Rules over all commands -/

theorem witness_CommandCompletesExactlyWhenInputsWritten :
    (Instr.wellFormed .ckver = true ∧ LengthTooLong .ckver (lengths 257)) ∧ InputsWritten .ckver full ∧
    (¬ LengthTooLong .ckver (lengths 256) ∧ ¬ InputsWritten .ckver (lengths 256)) := by
  refine ⟨by decide, ⟨fun _ => full_written.1, fun _ => full_written.2⟩, by decide, fun h => ?_⟩
  exact witness_inputs.2.2.1.2.2.1 (h.2 rfl)

theorem witness_BadLengthExactlyForLongSequences :
    (∃ t, exec .polymod (lengths 257) = .next t ∧ t.err = .badLength) ∧
    (∃ t, exec (.convert 8 1 true) (holding [] (List.replicate 33 0)) = .next t ∧ t.err = .badLength) ∧
    (∃ t, exec .polymod (holding [] [0]) = .next t ∧ t.err ≠ .badLength) := by
  refine ⟨⟨_, rfl, rfl⟩, ?_, ⟨_, rfl, by decide⟩⟩
  exact next_of_errAfter (by decide +kernel)

theorem witness_ValuesAreCheckedAfterReading :
    (Instr.wellFormed .polymod = true ∧ Instr.readsValues .polymod = true ∧ ¬ LengthTooLong .polymod (lengths 256) ∧
      ¬ WrittenUpTo (lengths 256) .vbuf (lengths 256).vlen.toNat) ∧
    (¬ LengthTooLong .polymod (holding [] [31, 32]) ∧
      ([31, 32] : List Byte).length = (holding [] [31, 32]).vlen.toNat ∧ Loaded (holding [] [31, 32]) .vbuf [31, 32] ∧
      InputsWritten .polymod (holding [] [31, 32])) :=
  ⟨⟨by decide, by decide, by decide, witness_inputs.2.2.1.2.2.1⟩, by decide⟩

theorem witness_FailureChangesOnlyStatus :
    (∃ t, exec .polymod (lengths 257) = .next t ∧ t.err ≠ .ok) ∧
    (∃ t, exec .ckver (lengths 0) = .next t ∧ t.err = .checksumMismatch ∧ (lengths 0).vlen.toNat < 6) ∧
    (∃ t, exec .ckver (holding [] [0, 0, 0, 0, 0, 0]) = .next t ∧ t.err = .checksumMismatch) :=
  ⟨⟨_, rfl, by decide⟩, ⟨_, rfl, rfl, by decide⟩, ⟨_, rfl, rfl⟩⟩

theorem witness_CommandFrame :
    (∃ t, exec (.ckgen .bech32) (holding [] []) = .next t ∧ t.err = .ok) ∧
    (∃ t, exec (.convert 8 5 true) (holding [] [0xff]) = .next t ∧ t.err = .ok) ∧
    (∃ t, exec (.lutdec 0x31) State.reset = .next t ∧ t.err ≠ .ok) :=
  ⟨⟨_, rfl, rfl⟩, ⟨_, rfl, rfl⟩, ⟨_, rfl, by decide⟩⟩

theorem witness_OnlyCkverOrResetChangesVariant :
    (∃ t, step ((holding [0x61] [10, 28, 25, 31, 20, 31]).placeCommand 3) = .next t ∧
      t.variant ≠ ((holding [0x61] [10, 28, 25, 31, 20, 31]).placeCommand 3).variant) ∧
    (∃ t, step { (hosting [.reset]) with variant := .bech32 } = .next t ∧ t.variant ≠ .bech32) :=
  ⟨⟨_, rfl, by decide +kernel⟩, ⟨_, rfl, by decide⟩⟩

theorem witness_OnlyTheHostChangesInputs :
    (∃ t, step (hosting [.write 0x008 4 5]) = .next t ∧ t.hlen ≠ (hosting [.write 0x008 4 5]).hlen) ∧
    (∃ t, step { (hosting [.reset]) with vlen := 1 } = .next t ∧ t.vlen ≠ 1) ∧
    (∃ t, step (hosting [.write 0xBFC 4 5]) = .next t ∧
      t.entry .vbuf 255 ≠ (hosting [.write 0xBFC 4 5]).entry .vbuf 255) :=
  ⟨⟨_, rfl, by decide⟩, ⟨_, rfl, by decide⟩, ⟨_, rfl, by decide +kernel⟩⟩

theorem witness_ResultDependsOnlyOnInputs :
    SameInputs .polymod (holding [] [1]) { (holding [0x61] [1]) with acc := 7 } ∧
    (∃ t, exec .polymod (holding [] [1]) = .next t ∧ t.err = .ok) ∧
    (∃ t, exec .polymod { (holding [0x61] [1]) with acc := 7 } = .next t) :=
  ⟨by decide, ⟨_, rfl, rfl⟩, ⟨_, rfl⟩⟩

/-! The host window -/

theorem witness_WindowMapIsAsWritten :
    (0x018 : Offset).toNat % 4 = 0 ∧ ((0x01C : Offset).toNat % 4 = 0 ∧ 0x01C ≤ (0x01C : Offset).toNat) ∧
    ((0x3FC : Offset).toNat % 4 = 0 ∧ (0x3FC : Offset).toNat ≤ 0x3FC) := by decide

theorem witness_RegisterAccess :
    (Ready (hosting [.read 0x018 4]) ∧ (hosting [.read 0x018 4]).host = .read 0x018 4 :: [] ∧
      ((0x018 : Offset) = 0x018 ∧ 0 = (hosting [.read 0x018 4]).lutr.toNat)) ∧
    (∀ a ∈ [(0x000 : Offset), 0x004, 0x008, 0x00C, 0x010, 0x014, 0x018],
      Ready (hosting [.write a 4 0xffffffff]) ∧
      (hosting [.write a 4 0xffffffff]).host = .write a 4 0xffffffff :: []) :=
  ⟨by decide, fun _ _ => ⟨⟨rfl, rfl⟩, rfl⟩⟩

theorem witness_CmdWriteStartsCommand :
    ((hosting [.write 0x000 4 0]).faulted = false ∧ (hosting [.write 0x000 4 0]).host = .write 0x000 4 0 :: [] ∧
      (hosting [.write 0x000 4 0]).pcmd = none) ∧
    ((pending 1 1 [.write 0x000 4 0]).faulted = false ∧ (pending 1 1 [.write 0x000 4 0]).pcmd ≠ none ∧
      (pending 1 1 [.write 0x000 4 0]).wait ≠ 0) ∧
    Due (pending 1 0 []) 1 ∧
    (Ready (hosting [.read 0x000 4]) ∧ (hosting [.read 0x000 4]).host = .read 0x000 4 :: []) := by decide

/-- The last entry of each buffer, unwritten and written, read and written. -/
theorem witness_BufferEntryAccess :
    255 < 256 ∧ (0x7FC : Offset).toNat = entryAddr .hbuf 255 ∧ (0xBFC : Offset).toNat = entryAddr .vbuf 255 ∧
    (0xFFC : Offset).toNat = entryAddr .obuf 255 ∧
    (Ready (hosting [.read 0xFFC 4]) ∧ (hosting [.read 0xFFC 4]).entry .obuf 255 = none) ∧
    (Ready { (hosting [.read 0xFFC 4]) with mem := [(0xFFC, 7)] } ∧
      State.entry { (hosting [.read 0xFFC 4]) with mem := [(0xFFC, 7)] } .obuf 255 = some 7) ∧
    (Ready (hosting [.write 0xBFC 4 5]) ∧ Buf.vbuf ≠ .obuf) := by decide +kernel

theorem witness_WrittenEntryReadsBack :
    (Buf.vbuf ≠ .obuf ∧ (0xBFC : Offset).toNat = entryAddr .vbuf 255 ∧
      Ready (hosting [.write 0xBFC 4 5, .read 0xBFC 4]) ∧
      (hosting [.write 0xBFC 4 5, .read 0xBFC 4]).host = .write 0xBFC 4 5 :: .read 0xBFC 4 :: []) ∧
    (¬ (Buf.vbuf = .obuf ∧ 255 = 0) ∧ (0xC00 : Offset).toNat = entryAddr .obuf 0 ∧
      State.entry { (hosting [.write 0xBFC 4 5, .read 0xC00 4]) with mem := [(0xC00, 7)] } .obuf 0 = some 7) := by
  decide +kernel

theorem witness_BadOrUnmappedAccessFaults :
    (Ready (hosting [.read 0x004 2]) ∧ (2 ≠ 4 ∨ (0x004 : Offset).toNat % 4 ≠ 0)) ∧
    (Ready (hosting [.write 0x005 4 0]) ∧ (0x005 : Offset).toNat % 4 ≠ 0) ∧
    (Ready (hosting [.read 0x01C 4]) ∧ (0x01C : Offset).toNat % 4 = 0 ∧ 0x01C ≤ (0x01C : Offset).toNat ∧
      (0x01C : Offset).toNat ≤ 0x3FC) ∧
    ((0x3FC : Offset).toNat % 4 = 0 ∧ 0x01C ≤ (0x3FC : Offset).toNat ∧ (0x3FC : Offset).toNat ≤ 0x3FC) := by decide

theorem witness_OnlyStatusReadsWhileBusy :
    ((pending 1 1 [.read 0x004 4]).faulted = false ∧ (pending 1 1 [.read 0x004 4]).pcmd = some 1 ∧
      (pending 1 1 [.read 0x004 4]).wait ≠ 0 ∧ (pending 1 1 [.read 0x004 4]).host = .read 0x004 4 :: []) ∧
    ((pending 1 1 [.read 0x008 4]).host = .read 0x008 4 :: [] ∧ ¬ ((0x008 : Offset) = 0x004 ∧ 4 = 4)) ∧
    (pending 1 1 [.write 0x004 4 0]).host = .write 0x004 4 0 :: [] := by decide

theorem witness_FaultIsFinalAndChangesNothingElse :
    ((lengths 1).faulted = false ∧ ∃ f, step ((lengths 1).placeCommand 1) = .fault f) ∧
    State.reset.markFaulted.faulted = true ∧ (∃ t, step State.reset = .next t) :=
  ⟨⟨rfl, _, rfl⟩, rfl, ⟨_, rfl⟩⟩

theorem witness_EngineStopsOnlyOnUnwrittenInput :
    Due ((lengths 1).placeCommand 1) 1 ∧ ∃ f, step ((lengths 1).placeCommand 1) = .fault f := ⟨by decide, _, rfl⟩

theorem witness_ReadsHaveNoSideEffects :
    ((hosting [.read 0x004 4]).pcmd = none ∧ (hosting [.read 0x004 4]).host = .read 0x004 4 :: [] ∧
      ∃ t, step (hosting [.read 0x004 4]) = .next t) ∧
    ((pending 1 1 [.poll]).wait ≠ 0 ∧ (pending 1 1 [.poll]).host = .poll :: [] ∧
      ∃ t, step (pending 1 1 [.poll]) = .next t) :=
  ⟨⟨rfl, rfl, _, rfl⟩, by decide, rfl, _, rfl⟩

/-! The invariant -/

/-- A state with a result in OBUF meets the invariant: one entry, and the last index read back. -/
theorem witness_inv : Inv { (hosting [.read 0xC00 4]) with mem := [(0xC00, 7)], olen := 1 } where
  canonical := by decide
  inWindow := by decide
  outputLength := by decide
  outputWritten := by decide
  lookupResult := by decide
  noWaitWhenIdle := by decide

theorem witness_EveryStepKeepsInvariant :
    Inv { (hosting [.read 0xC00 4]) with mem := [(0xC00, 7)], olen := 1 } ∧
    ∃ t, step { (hosting [.read 0xC00 4]) with mem := [(0xC00, 7)], olen := 1 } = .next t := ⟨witness_inv, _, rfl⟩

theorem witness_ResultEntriesAreReadable :
    Inv { (hosting [.read 0xC00 4]) with mem := [(0xC00, 7)], olen := 1 } ∧
    Ready { (hosting [.read 0xC00 4]) with mem := [(0xC00, 7)], olen := 1 } ∧
    (0 < (1 : Len).toNat ∧ (0xC00 : Offset).toNat = entryAddr .obuf 0) := ⟨witness_inv, by decide, by decide⟩

/-! Issue and poll -/

theorem witness_PolledCommandCompletesAfterLatency :
    Ready (hosting [.write 0x000 4 0x00000a05, .poll]) ∧
    (hosting [.write 0x000 4 0x00000a05, .poll]).host = .write 0x000 4 0x00000a05 :: .poll :: [] ∧
    ∃ t, engineComplete 0x00000a05
      { (hosting [.write 0x000 4 0x00000a05, .poll]) with
        pcmd := some 0x00000a05, host := .poll :: [], issued := 1, wait := 0,
        rdata := if Config.latency 0 = 0 then none
          else some (State.statusWord { (hosting [.write 0x000 4 0x00000a05, .poll]) with pcmd := some 0x00000a05 }) } =
      .next t := ⟨by decide, rfl, _, rfl⟩

theorem witness_PolledCommandRunsSafely :
    Instr.wellFormed .ckver = true ∧ Ready { (holding [0x61] [31]) with host := issueOps (encode .ckver) } ∧
    InputsWritten .ckver { (holding [0x61] [31]) with host := issueOps (encode .ckver) } :=
  ⟨rfl, ⟨rfl, rfl⟩, by decide⟩

/-! The arithmetic -/

theorem witness_PolymodIsAffine : ([1, 2] : List Symbol).length = ([31, 0] : List Symbol).length := by decide

theorem witness_ChecksumPacksPolymod :
    (Variant.bech32 = .bech32 ∧ (1 : Acc) = 0x00000001) ∧
    (Variant.bech32m = .bech32m ∧ (0x2bc830a3 : Acc) = 0x2bc830a3) := by decide

theorem witness_VerifierAcceptsGeneratedChecksum :
    createChecksum .bech32 [0x61] [] = some [10, 28, 25, 31, 20, 31] := by decide +kernel

theorem witness_GeneratedChecksumVerifiesOnTheEngine :
    ∃ t, exec (.ckgen .bech32) (holding [0x61] []) = .next t ∧ t.err = .ok ∧
      (holding [0x61] [10, 28, 25, 31, 20, 31]).hlen = (holding [0x61] []).hlen ∧
      (∀ k < (holding [0x61] []).hlen.toNat,
        (holding [0x61] [10, 28, 25, 31, 20, 31]).entry .hbuf k = (holding [0x61] []).entry .hbuf k) ∧
      (holding [0x61] [10, 28, 25, 31, 20, 31]).vlen.toNat = (holding [0x61] []).vlen.toNat + 6 ∧
      (holding [0x61] [10, 28, 25, 31, 20, 31]).vlen.toNat ≤ 256 ∧
      (∀ k < (holding [0x61] []).vlen.toNat,
        (holding [0x61] [10, 28, 25, 31, 20, 31]).entry .vbuf k = (holding [0x61] []).entry .vbuf k) ∧
      (∀ i < 6, (holding [0x61] [10, 28, 25, 31, 20, 31]).entry .vbuf ((holding [0x61] []).vlen.toNat + i) =
        t.entry .obuf i) := by
  refine ⟨_, rfl, rfl, ?_⟩
  decide +kernel

theorem witness_IndexOfInvertsAlphabet : 0x7B ≤ (0x7B : Byte).toNat := by decide

theorem witness_LookupRoundTrip : (31 : Byte).toNat ≤ 31 := by decide

/-- One value of eight bits to five: one full group, three bits left; and the two failures without padding. -/
theorem witness_RegroupingCutsTheBitStream :
    (∀ v ∈ ([0xff] : List Byte), v.toNat < 2 ^ 8) ∧ 0 < (bitStream 8 [0xff]).length % 5 ∧
    (bitStream 8 [0xff, 0xff, 0xff, 0xff, 0xff]).length % 5 = 0 ∧
    true ∈ (bitStream 8 [0xff]).drop (1 * 5) ∧ 5 ≤ (bitStream 5 [0]).length % 8 ∧
    ((bitStream 8 [0]).length % 5 < 8 ∧ true ∉ (bitStream 8 [0]).drop (1 * 5)) := by decide +kernel

theorem witness_RegroupingOutputLength :
    convertBits [0xff] 8 5 true = .ok [31, 28] ∧ convertBits [31, 28] 5 8 false = .ok [0xff] := by decide +kernel

theorem witness_FiveToEightFailsByLength :
    (AllSymbols [0] ∧ ([0] : List Byte).length % 8 = 1) ∧ (AllSymbols [0, 0, 0] ∧ ([0, 0, 0] : List Byte).length % 8 = 3) ∧
    (AllSymbols [0, 0, 0, 0, 0, 0] ∧ ([0, 0, 0, 0, 0, 0] : List Byte).length % 8 = 6) := by decide

theorem witness_RegroupingRoundTrip : convertBits [0xff] 8 5 true = .ok [31, 28] := by decide +kernel

/-! The facade -/

/-- An encodable input, and the only refused variant. -/
theorem witness_EncodedLengthIsBounded :
    facadeEncode .bech32m [0x61] [] = .encoded [0x61, 0x31, 0x6c, 0x71, 0x66, 0x6e, 0x33, 0x61] ∧
    facadeEncode .invalid [0x61] [] = .refused := by decide +kernel

/-- "a" with an empty payload is "a12uel5l" (V1). -/
theorem witness_DecodeOfEncodedString :
    facadeEncode .bech32 [0x61] [] = .encoded [0x61, 0x31, 0x32, 0x75, 0x65, 0x6c, 0x35, 0x6c] := by decide +kernel

theorem witness_DecodingIgnoresCase :
    facadeDecode [0x61, 0x31, 0x32, 0x75, 0x65, 0x6c, 0x35, 0x6c] = .decoded .bech32 [0x61] [] := by decide +kernel

theorem witness_DecodeRejectsBadStrings :
    90 < (List.replicate 91 (0x61 : Byte)).length ∧ (List.replicate 7 (0x61 : Byte)).length < 8 ∧
    (8 ≤ (0x41 :: List.replicate 7 (0x61 : Byte)).length ∧ (0x41 :: List.replicate 7 (0x61 : Byte)).length ≤ 90 ∧
      (∀ c ∈ 0x41 :: List.replicate 7 (0x61 : Byte), 33 ≤ c.toNat ∧ c.toNat ≤ 126) ∧
      (∃ c ∈ 0x41 :: List.replicate 7 (0x61 : Byte), 0x41 ≤ c.toNat ∧ c.toNat ≤ 0x5A) ∧
      (∃ c ∈ 0x41 :: List.replicate 7 (0x61 : Byte), 0x61 ≤ c.toNat ∧ c.toNat ≤ 0x7A)) := by decide +kernel

theorem witness_EncodeProgramComputesEncode : Ready State.reset ∧ State.reset.host = [] := by decide

theorem witness_DecodeProgramComputesDecode : Ready State.reset ∧ State.reset.host = [] := by decide

end Sys2Proof.Tests
end

section
/-! PROOF. The family 10_state.md: the CMD write (R24) and FAULTED (R39). First what an unfaulted step can answer, said
once, and that no step that goes on touches FAULTED; then the two statements. -/

namespace Sys2Proof.Machine

/-! ### How a step stops -/

/-- The completion step of a command goes on or raises UnwrittenEntry; it stops in no other way. -/
theorem exec_stops (i : Instr) (s : State) :
    (∃ t, exec i s = .next t) ∨ exec i s = raise .unwrittenEntry s := by
  rcases exec_cases i s with h | ⟨_, _, _, h⟩ | ⟨_, _, _, h⟩ | ⟨_, _, h⟩ | ⟨_, _, _, h⟩ | ⟨_, _, _, h⟩ |
    ⟨_, _, _, _, _, _, h⟩ | ⟨_, _, h⟩
  · exact .inr h
  all_goals exact .inl ⟨_, h⟩

theorem engineComplete_stops (w : Word) (s : State) :
    (∃ t, engineComplete w s = .next t) ∨ engineComplete w s = raise .unwrittenEntry s := by
  cases hd : decode w with
  | error r => exact .inl ⟨_, engineComplete_error hd s⟩
  | ok i => rw [engineComplete_ok hd]; exact exec_stops i s

/-- Whose turn it is on an unfaulted machine: the engine's, nobody's, or the host's. -/
theorem step_eq_of_unfaulted {s : State} (hf : s.faulted = false) :
    (∃ w, Due s w ∧ step s = engineComplete w s) ∨ (Ready s ∧ s.host = [] ∧ step s = .next s) ∨
      (∃ op rest, s.host = op :: rest ∧ (s.pcmd = none ∨ s.wait ≠ 0) ∧ step s = hostStep op s) := by
  cases hh : s.host with
  | nil =>
    cases hp : s.pcmd with
    | none => exact .inr (.inl ⟨⟨hf, hp⟩, rfl, step_idle ⟨hf, hp⟩ hh⟩)
    | some w => exact .inl ⟨w, ⟨hf, hp, .inr hh⟩, step_due ⟨hf, hp, .inr hh⟩⟩
  | cons op rest =>
    by_cases hw : s.pcmd = none ∨ s.wait ≠ 0
    · exact .inr (.inr ⟨op, rest, rfl, hw, step_host hf hh hw⟩)
    · obtain ⟨hp, hw⟩ : s.pcmd ≠ none ∧ s.wait = 0 := by simpa using hw
      obtain ⟨w, hp⟩ := Option.ne_none_iff_exists'.1 hp
      exact .inl ⟨w, ⟨hf, hp, .inl hw⟩, step_due ⟨hf, hp, .inl hw⟩⟩

/-- An unfaulted step goes on or raises a protocol fault: it never refuses and is never `halted` (R244). -/
theorem step_stops {s : State} (hf : s.faulted = false) :
    (∃ t, step s = .next t) ∨ ∃ r, step s = raise r s := by
  rcases step_eq_of_unfaulted hf with ⟨w, _, h⟩ | ⟨_, _, h⟩ | ⟨op, _, _, _, h⟩
  · rw [h]; exact (engineComplete_stops w s).imp_right fun h => ⟨_, h⟩
  · exact .inl ⟨s, h⟩
  · rw [h]; exact hostStep_stops

/-! ### A step that goes on leaves FAULTED alone -/

@[simp] theorem writeReg_faulted (r : Reg) (w : Word) (s : State) : (writeReg r w s).faulted = s.faulted := by
  cases r <;> rfl

@[simp] theorem writeBuf_faulted (b : Buf) (i : Nat) (w : Word) (s : State) :
    (writeBuf b i w s).faulted = s.faulted := by
  cases b <;> rfl

theorem hostStep_keeps_faulted {op : HostOp} {s t : State} (h : hostStep op s = .next t) : t.faulted = s.faulted := by
  rcases hostStep_cases h with ⟨_, _, _, _, rfl⟩ | ⟨_, _, _, _, _, _, rfl⟩ | ⟨_, _, _, _, _, _, _, rfl⟩ |
    ⟨_, _, rfl⟩ | ⟨_, _, rfl⟩ | ⟨_, rfl⟩ <;> simp

theorem step_keeps_faulted {s t : State} (h : step s = .next t) : t.faulted = s.faulted := by
  obtain ⟨_, ⟨w, _, he⟩ | ⟨_, _, rfl⟩ | ⟨op, _, _, _, ho⟩⟩ := step_cases h
  · obtain ⟨_, _, _, hf⟩ := engineComplete_keeps_host w he
    exact hf
  · rfl
  · exact hostStep_keeps_faulted ho

/-- Settles O30: an unfaulted step that stops raises a protocol fault, a faulted machine is halted, and a step that goes
on keeps FAULTED, which was clear. -/
theorem faultIsFinalAndChangesNothingElse : Obligations.FaultIsFinalAndChangesNothingElse := by
  refine ⟨fun s f hf h => ?_, fun s hf => ⟨step_faulted hf, hf⟩, fun s t h => ?_⟩
  · rcases step_stops hf with ⟨t, ht⟩ | ⟨r, hr⟩
    · rw [ht] at h; cases h
    · rw [hr, raise_eq_fault] at h
      exact ⟨r, h.symm, step_faulted rfl⟩
  · obtain ⟨hf, _⟩ := step_cases h
    exact ⟨hf, (step_keeps_faulted h).trans hf⟩

/-! ### The CMD register -/

/-- What a host step does to the host's own fields, as a record update. -/
theorem State.advance_eq {s : State} {op : HostOp} {rest : List HostOp} (hh : s.host = op :: rest) :
    s.advance = { s with host := rest, wait := s.wait - 1 } := by
  simp [State.advance, hh]

/-- Every write while a command is pending and not due is the busy hazard (R280). -/
theorem step_write_busy {s : State} {a : Offset} {width : Nat} {w : Word} {rest : List HostOp}
    (hf : s.faulted = false) (hp : s.pcmd ≠ none) (hw : s.wait ≠ 0) (hh : s.host = .write a width w :: rest) :
    step s = raise .busyAccess s := by
  rw [step_host hf hh (.inr hw)]
  simp only [hostStep, busWrite_busy (s := s.advance) hp]

/-- Settles O25: the register write rule at CMD latches the word, the busy hazard refuses a second one, a due command
completes, and the register read rule at CMD returns 0. -/
theorem cmdWriteStartsCommand : Obligations.CmdWriteStartsCommand := by
  refine ⟨fun s w rest hf hh => ⟨fun hp => ?_, fun hp hw => step_write_busy hf hp hw hh⟩,
    fun s w hd => step_due hd, fun s rest hs hh => ?_⟩
  · rw [step_write_reg ⟨hf, hp⟩ (r := .cmd) hh, State.advance_eq hh]
    rfl
  · rw [step_read_reg hs (r := .cmd) hh, State.advance_eq hh]
    rfl

end Sys2Proof.Machine
end

section
/-! PROOF. The family 20_memory.md: the window map (R62), registers (R65) and buffer entries (R64) through it. -/

namespace Sys2Proof.Machine

/-! ### The window map -/

theorem target_of_toNat_eq_regOffset {a : Offset} {r : Reg} (h : a.toNat = (regOffset r).toNat) :
    target a = .reg r := by
  rw [BitVec.eq_of_toNat_eq h, target_regOffset]

/-- Word 7 and the words after it, up to the first buffer, hold no register (R63). -/
theorem target_unmapped {a : Offset} (hlo : 0x01C ≤ a.toNat) (hhi : a.toNat ≤ 0x3FC) : target a = .unmapped := by
  obtain ⟨k, hk⟩ : ∃ k, a.toNat / 4 % 256 = k + 7 := ⟨a.toNat / 4 % 256 - 7, by omega⟩
  rw [target_eq, show a.toNat / 1024 = 0 by omega, hk]
  rfl

@[simp] theorem target_entryOffset (b : Buf) (i : BitVec 8) : target (entryOffset b i.toNat) = .entry b i := by
  rw [target_of_entryAddr i.isLt (entryOffset_toNat b i.isLt), BitVec.ofNat_toNat, BitVec.setWidth_eq]

/-- Settles O22: the offsets of the table are `regOffset` and `entryOffset`, whose targets are known, and the words
between them are unmapped. -/
theorem windowMapIsAsWritten : Obligations.WindowMapIsAsWritten :=
  ⟨fun _ _ =>
    ⟨target_of_toNat_eq_regOffset (r := .cmd), target_of_toNat_eq_regOffset (r := .status),
      target_of_toNat_eq_regOffset (r := .hlen), target_of_toNat_eq_regOffset (r := .vlen),
      target_of_toNat_eq_regOffset (r := .olen), target_of_toNat_eq_regOffset (r := .acc),
      target_of_toNat_eq_regOffset (r := .lutr), target_unmapped⟩,
    fun i => ⟨target_entryOffset .hbuf i, target_entryOffset .vbuf i, target_entryOffset .obuf i⟩⟩

/-! ### Registers -/

/-- The STATUS word on numbers: BUSY, then ERR from bit 4, then VARIANT from bit 8 (R25). -/
theorem statusWord_toNat (s : State) :
    s.statusWord.toNat = s.busy.toNat + 16 * s.err.code.toNat + 256 * s.variant.code.toNat := by
  simp only [State.statusWord, toNat_append_eq, BitVec.toNat_ofBool, BitVec.toNat_ofNat]
  omega

/-- A host read of a register on numbers (R65): the word returned is the register's number, the block is unchanged. -/
theorem step_read_reg_toNat {s : State} {rest : List HostOp} {n : Nat} (hs : Ready s) (r : Reg)
    (hh : s.host = .read (regOffset r) 4 :: rest) (hn : (readReg r s).toNat = n) :
    step s = .next { s with rdata := some (BitVec.ofNat 32 n), host := rest, wait := s.wait - 1 } := by
  rw [step_read_reg hs hh, State.advance_eq hh, ← hn, BitVec.ofNat_toNat, BitVec.setWidth_eq]
  rfl

/-- A host write of a register that leaves the block as it is (R65). -/
theorem step_write_reg_ignored {s : State} {w : Word} {rest : List HostOp} (hs : Ready s) (r : Reg)
    (hh : s.host = .write (regOffset r) 4 w :: rest) (hr : ∀ u, writeReg r w u = u) :
    step s = .next { s with host := rest, wait := s.wait - 1 } := by
  rw [step_write_reg hs hh, hr, State.advance_eq hh]

/-- Settles O24: the register read rule with the number of each register, and the register write rule. -/
theorem registerAccess : Obligations.RegisterAccess := by
  refine ⟨fun s a rest hs hh n hn => ?_, fun s a w rest hs hh => ⟨?_, ?_, ?_, ?_⟩⟩
  · rcases hn with ⟨rfl, rfl⟩ | ⟨rfl, rfl⟩ | ⟨rfl, rfl⟩ | ⟨rfl, rfl⟩ | ⟨rfl, rfl⟩ | ⟨rfl, rfl⟩ | ⟨rfl, rfl⟩
    · exact step_read_reg_toNat hs .cmd hh rfl
    · exact step_read_reg_toNat hs .status hh (by simp [readReg, statusWord_toNat, State.busy_eq_false.2 hs.2])
    · exact step_read_reg_toNat hs .hlen hh (BitVec.toNat_setWidth_of_le (by decide))
    · exact step_read_reg_toNat hs .vlen hh (BitVec.toNat_setWidth_of_le (by decide))
    · exact step_read_reg_toNat hs .olen hh (BitVec.toNat_setWidth_of_le (by decide))
    · exact step_read_reg_toNat hs .acc hh (BitVec.toNat_setWidth_of_le (by decide))
    · exact step_read_reg_toNat hs .lutr hh (BitVec.toNat_setWidth_of_le (by decide))
  · rintro rfl
    refine ⟨_, step_write_reg hs (r := .cmd) hh, ?_⟩
    rw [State.advance_eq hh]
    rfl
  · rintro rfl
    rw [step_write_reg hs (r := .hlen) hh, State.advance_eq hh, ← BitVec.setWidth_eq_extractLsb' (by decide)]
    rfl
  · rintro rfl
    rw [step_write_reg hs (r := .vlen) hh, State.advance_eq hh, ← BitVec.setWidth_eq_extractLsb' (by decide)]
    rfl
  · rintro (rfl | rfl | rfl | rfl)
    · exact step_write_reg_ignored hs .status hh fun _ => rfl
    · exact step_write_reg_ignored hs .olen hh fun _ => rfl
    · exact step_write_reg_ignored hs .acc hh fun _ => rfl
    · exact step_write_reg_ignored hs .lutr hh fun _ => rfl

/-! ### Buffer entries -/

/-- HBUF and VBUF take a host write: the low eight bits are stored (R64). -/
theorem writeBuf_eq_setEntry {b : Buf} (hb : b ≠ .obuf) (i : Nat) (w : Word) (s : State) :
    writeBuf b i w s = s.setEntry b i (w.extractLsb' 0 8) := by
  rw [← BitVec.setWidth_eq_extractLsb' (by decide)]
  cases b with
  | obuf => exact absurd rfl hb
  | hbuf => rfl
  | vbuf => rfl

@[simp] theorem State.entry_setEntry_same (s : State) (b : Buf) (i : Nat) (v : Byte) :
    (s.setEntry b i v).entry b i = some v :=
  Memory.read_write_same s.mem (entryAddr b i) v

theorem State.readByte_setEntry_other (s : State) {b : Buf} {i x : Nat} (v : Byte) (hx : x ≠ entryAddr b i) :
    (s.setEntry b i v).readByte x = s.readByte x :=
  Memory.read_write_other s.mem v hx

/-- Settles O26: the entry read rule in its two cases, and the entry write rule, which OBUF ignores and which for the
other two buffers is one memory write. -/
theorem bufferEntryAccess : Obligations.BufferEntryAccess := by
  refine fun s b i a hi ha hs => ⟨fun rest hh => ⟨fun hv => ?_, fun v hv => ?_⟩,
    fun w rest hh => ⟨?_, fun hb => ?_⟩⟩
  · rw [step_read_entry hs hh hi ha, hv]
    rfl
  · rw [step_read_entry hs hh hi ha, hv, State.advance_eq hh, BitVec.ofNat_toNat]
    rfl
  · rintro rfl
    rw [step_write_entry hs hh hi ha, State.advance_eq hh]
    rfl
  · refine ⟨s.advance.setEntry b i (w.extractLsb' 0 8), ?_, ?_, ?_, fun x hx => ?_⟩
    · rw [step_write_entry hs hh hi ha, writeBuf_eq_setEntry hb]
    · rw [State.advance_eq hh]
      rfl
    · exact State.entry_setEntry_same ..
    · exact State.readByte_setEntry_other s.advance _ hx

end Sys2Proof.Machine
end

section
/-! PROOF. The family 30_encoding.md: which words are legal (R99), and what becomes of an illegal one (R246). -/

namespace Sys2Proof

/-! ### Which words each format accepts (R99) -/

theorem zeroBits_eq_true {w : Word} {hi lo : Nat} : zeroBits w hi lo = true ↔ w.extractLsb' lo (hi - lo + 1) = 0 :=
  beq_iff_eq

/-- A check that refuses the word unless `c` holds, as every format makes it. -/
theorem check_accepts {c : Prop} [Decidable c] {r : Reject} {e : Except Reject Instr} :
    (∃ j, (if c then e else .error r) = .ok j) ↔ c ∧ ∃ j, e = .ok j := by
  split <;> simp [*]

theorem decodeN_accepts {w : Word} {i : Instr} : (∃ j, decodeN w i = .ok j) ↔ w.extractLsb' 4 28 = 0 := by
  simp [decodeN, check_accepts, zeroBits_eq_true]

theorem decodeE_accepts {w : Word} :
    (∃ j, decodeE w = .ok j) ↔ w.extractLsb' 6 26 = 0 ∧ (w.extractLsb' 4 2 = 1 ∨ w.extractLsb' 4 2 = 2) := by
  have henc (k : BitVec 2) : w.extractLsb' 4 2 = k ↔ (encField w).toNat = k.toNat := BitVec.toNat_inj.symm
  rw [decodeE, check_accepts, zeroBits_eq_true, henc, henc]
  refine and_congr_right fun _ => ?_
  split <;> simp_all

theorem decodeC_accepts {w : Word} :
    (∃ j, decodeC w = .ok j) ↔ w.extractLsb' 16 16 = 0 ∧ w.extractLsb' 5 3 = 0 ∧
      1 ≤ (w.extractLsb' 8 4).toNat ∧ (w.extractLsb' 8 4).toNat ≤ 8 ∧
      1 ≤ (w.extractLsb' 12 4).toNat ∧ (w.extractLsb' 12 4).toNat ≤ 8 := by
  simp [decodeC, check_accepts, zeroBits_eq_true, fromField, toField, and_assoc]

theorem decodeV_accepts {w : Word} {mk : Byte → Instr} :
    (∃ j, decodeV w mk = .ok j) ↔ w.extractLsb' 16 16 = 0 ∧ w.extractLsb' 4 4 = 0 := by
  simp [decodeV, check_accepts, zeroBits_eq_true]

end Sys2Proof

namespace Sys2Proof.Machine

/-! ### An illegal word (R246) -/

/-- A due word that decodes to nothing finishes with ILLEGAL_COMMAND. -/
theorem step_due_illegal {s : State} {w : Word} (hw : ∀ i, decode w ≠ .ok i) (hd : Due s w) :
    step s = finish .illegalCommand s := by
  rw [step_due hd]
  cases h : decode w with
  | error r => exact engineComplete_error h s
  | ok i => exact absurd h (hw i)

/-- Settles O3: the opcode selects the format, which accepts its own words, and an opcode in no row of R92 is refused; a
CMD write is the register write rule; the completion of an illegal word is `step_due_illegal`. -/
theorem exactlyTheLegalWordsDecode : Obligations.ExactlyTheLegalWordsDecode := by
  refine fun w => ⟨?_, fun s rest hs hh => ⟨_, step_write_reg hs (r := .cmd) hh, rfl⟩,
    fun s hw hd => step_due_illegal hw hd⟩
  have hop (k : BitVec 4) : w.extractLsb' 0 4 = k ↔ (opField w).toNat = k.toNat := BitVec.toNat_inj.symm
  simp only [hop, decode]
  split
  · simp [*, decodeN_accepts]
  · simp [*, decodeE_accepts]
  · simp [*, decodeN_accepts]
  · simp [*, decodeC_accepts]
  · simp [*, decodeV_accepts]
  · simp [*, decodeV_accepts]
  · simp_all

end Sys2Proof.Machine
end

section
/-! PROOF. The family 40_alphabet.md: `indexOf` as the inverse of the alphabet (R110, R112), then the words and the
outcomes of LUTENC (R113) and LUTDEC (R115). -/

namespace Sys2Proof

/-! ### The words of format V -/

/-- A word of format V on numbers: the opcode and, from bit 8, the operand (R91, R97). -/
theorem decodeV_of_toNat {w : Word} {op : Nat} {v : Byte} (mk : Byte → Instr) (hop : op < 16)
    (hw : w.toNat = op + 256 * v.toNat) : decodeV w mk = .ok (mk v) := by
  have hv := v.isLt
  have hopnd : opndField w = v := BitVec.eq_of_toNat_eq (by rw [opndField_toNat]; omega)
  exact decodeV_eq_ok.2 ⟨by omega, by omega, by rw [hopnd]⟩

theorem decode_of_opField_five {w : Word} (h : (opField w).toNat = 5) : decode w = decodeV w .lutenc := by
  simp only [decode, h]

theorem decode_of_opField_six {w : Word} (h : (opField w).toNat = 6) : decode w = decodeV w .lutdec := by
  simp only [decode, h]

theorem decode_eq_lutenc {w : Word} {v : Byte} : decode w = .ok (.lutenc v) ↔ w.toNat = 5 + 256 * v.toNat := by
  constructor
  · intro h
    simpa using decode_cases h
  · intro hw
    rw [decode_of_opField_five (by rw [opField_toNat]; omega), decodeV_of_toNat _ (by decide) hw]

theorem decode_eq_lutdec {w : Word} {ch : Byte} : decode w = .ok (.lutdec ch) ↔ w.toNat = 6 + 256 * ch.toNat := by
  constructor
  · intro h
    simpa using decode_cases h
  · intro hw
    rw [decode_of_opField_six (by rw [opField_toNat]; omega), decodeV_of_toNat _ (by decide) hw]

end Sys2Proof

namespace Sys2Proof.Machine

/-- A word that format V decodes, with a must-be-zero bit set, completes with ILLEGAL_COMMAND (R246). -/
theorem engineComplete_formatV_illegal {w : Word} {mk : Byte → Instr} (hd : decode w = decodeV w mk)
    (hbits : w.extractLsb' 4 4 ≠ 0 ∨ w.extractLsb' 16 16 ≠ 0) (s : State) :
    engineComplete w s = finish .illegalCommand s := by
  cases h : decode w with
  | error r => exact engineComplete_error h s
  | ok i =>
    obtain ⟨hhi, hlo⟩ := decodeV_accepts.1 ⟨i, hd.symm.trans h⟩
    exact absurd hbits (by simp [hhi, hlo])

/-! ### The alphabet and its inverse (R110 to R112) -/

theorem findByte_eq_none {c : Byte} {l : List Byte} : findByte c l = none ↔ c ∉ l := by
  refine ⟨findByte_none, fun hc => ?_⟩
  cases h : findByte c l with
  | none => rfl
  | some n => exact absurd (List.mem_of_getElem? (findByte_some h)) hc

/-- In a list without repetition the search finds the one index where the code stands. -/
theorem findByte_eq_some {c : Byte} {l : List Byte} {n : Nat} (hl : l.Nodup) :
    findByte c l = some n ↔ l[n]? = some c := by
  refine ⟨findByte_some, fun hn => ?_⟩
  cases h : findByte c l with
  | none => exact absurd (List.mem_of_getElem? hn) (findByte_none h)
  | some m =>
    have hm := findByte_some h
    have hlt : m < l.length := (List.getElem?_eq_some_iff.1 hm).1
    rw [(List.getElem?_inj hlt hl).1 (hm.trans hn.symm)]

/-- Every index of the alphabet is a 5-bit value. -/
theorem lt_of_charset_getElem? {n : Nat} {c : Byte} (h : charset[n]? = some c) : n < 32 := by
  have hlt := (List.getElem?_eq_some_iff.1 h).1
  rwa [charset_length] at hlt

theorem charset_getElem?_toNat (v : Symbol) : charset[v.toNat]? = some (charAt v) := by
  have hv : v.toNat < charset.length := v.isLt
  rw [charAt, List.getD_eq_getElem _ _ hv, List.getElem?_eq_getElem hv]

theorem indexOf_eq_none {ch : Byte} : indexOf ch = none ↔ lower ch ∉ charset := by
  simp only [indexOf, Option.map_eq_none_iff, findByte_eq_none]

/-- What `indexOf` returns for the character at index `n`. -/
theorem indexOf_of_charset_getElem? {ch : Byte} {n : Nat} (h : charset[n]? = some (lower ch)) :
    indexOf ch = some (BitVec.ofNat 5 n) := by
  rw [indexOf, (findByte_eq_some charset_nodup).2 h]
  rfl

theorem indexOf_eq_some {ch : Byte} {v : Symbol} : indexOf ch = some v ↔ charset[v.toNat]? = some (lower ch) := by
  constructor
  · intro h
    obtain ⟨n, hn, rfl⟩ := Option.map_eq_some_iff.1 h
    have hget := findByte_some hn
    rwa [BitVec.toNat_ofNat, Nat.mod_eq_of_lt (lt_of_charset_getElem? hget)]
  · intro h
    rw [indexOf_of_charset_getElem? h, BitVec.ofNat_toNat, BitVec.setWidth_eq]

/-- Above `Z` a code is its own lowercase form. -/
theorem lower_eq_self {c : Byte} (h : 0x5A < c.toNat) : lower c = c := by
  have hup : isUpper c = false := by simp [isUpper]; omega
  simp [lower, hup]

/-- The last letter of the alphabet by code is `z`. -/
theorem toNat_lt_of_mem_charset : ∀ c ∈ charset, c.toNat < 0x7B := by decide

theorem indexOf_eq_none_of_le {ch : Byte} (h : 0x7B ≤ ch.toNat) : indexOf ch = none := by
  rw [indexOf_eq_none, lower_eq_self (by omega)]
  intro hmem
  have hlt := toNat_lt_of_mem_charset ch hmem
  omega

/-- Settles O44: the tables are evaluated, the inverse is `indexOf_eq_some`, and no member's code lies above `z`. -/
theorem indexOfInvertsAlphabet : Obligations.IndexOfInvertsAlphabet :=
  ⟨rfl, by decide, fun _ _ => indexOf_eq_some, by decide +kernel, by decide, fun _ => indexOf_eq_none_of_le⟩

/-! ### LUTENC and LUTDEC -/

theorem execLutenc_of_lt {v : Byte} (hv : 31 < v.toNat) (s : State) : execLutenc v s = finish .invalidValue s :=
  if_pos hv

/-- A 5-bit operand gives the alphabet's character at that index (R113). -/
theorem execLutenc_of_le {v : Byte} (hv : v.toNat ≤ 31) (s : State) :
    ∃ c, charset[v.toNat]? = some c ∧ execLutenc v s = finish .ok (s.setLutr c) := by
  have hwidth : (v.setWidth 5).toNat = v.toNat := by rw [BitVec.toNat_setWidth]; omega
  exact ⟨_, hwidth ▸ charset_getElem?_toNat (v.setWidth 5), if_neg (by omega)⟩

theorem execLutdec_of_none {ch : Byte} (h : indexOf ch = none) (s : State) :
    execLutdec ch s = finish .invalidCharacter s := by
  simp only [execLutdec, h]

theorem execLutdec_of_some {ch : Byte} {r : Symbol} (h : indexOf ch = some r) (s : State) :
    execLutdec ch s = finish .ok (s.setLutr (r.setWidth 8)) := by
  simp only [execLutdec, h]

/-- Settles O12: a word of opcode 5 is read by format V, and the command compares its operand with 31. -/
theorem lutencReturnsCharacter : Obligations.LutencReturnsCharacter := by
  refine ⟨fun w v => decode_eq_lutenc, fun w s hop hbits => ?_,
    fun v s => ⟨fun hv => execLutenc_of_lt hv s, fun hv => execLutenc_of_le hv s⟩⟩
  exact engineComplete_formatV_illegal (decode_of_opField_five (congrArg BitVec.toNat hop)) hbits s

/-- Settles O13: a word of opcode 6 is read by format V, and the command's outcome is that of `indexOf`, by membership
of the lowercase form or by its index. -/
theorem lutdecReturnsValue : Obligations.LutdecReturnsValue := by
  refine ⟨fun w ch => decode_eq_lutdec, fun w s hop hbits => ?_,
    fun ch s => ⟨fun hch => execLutdec_of_none (indexOf_eq_none.2 hch) s, fun v hv => ?_⟩⟩
  · exact engineComplete_formatV_illegal (decode_of_opField_six (congrArg BitVec.toNat hop)) hbits s
  · have hwidth : (BitVec.ofNat 5 v).setWidth 8 = BitVec.ofNat 8 v :=
      BitVec.setWidth_ofNat_of_le_of_lt (by decide) (lt_of_charset_getElem? hv)
    rw [← hwidth]
    exact execLutdec_of_some (indexOf_of_charset_getElem? hv) s

end Sys2Proof.Machine
end

section
/-! PROOF. The family 41_polymod.md: the words (R91) and the outcomes of POLYMOD (R135), then one step of the polymod and
its fold on numbers (R131). -/

namespace Sys2Proof

/-! ### The word of POLYMOD -/

theorem decode_of_opField_one {w : Word} (h : (opField w).toNat = 1) : decode w = decodeN w .polymod := by
  simp only [decode, h]

theorem decode_eq_polymod {w : Word} : decode w = .ok .polymod ↔ w = 0x00000001 := by
  constructor
  · intro h
    have hw : w.toNat = 1 := by simpa using decode_cases h
    exact BitVec.eq_of_toNat_eq hw
  · rintro rfl
    rfl

end Sys2Proof

namespace Sys2Proof.Machine

/-- A word of format N that is not its one command completes with ILLEGAL_COMMAND (R246). -/
theorem engineComplete_formatN_illegal {w : Word} {i : Instr} (hd : decode w = decodeN w i) (hne : decode w ≠ .ok i)
    (s : State) : engineComplete w s = finish .illegalCommand s := by
  cases h : decode w with
  | error r => exact engineComplete_error h s
  | ok j =>
    obtain ⟨_, rfl⟩ := decodeN_eq_ok.1 (hd.symm.trans h)
    exact absurd h hne

/-! ### The outcomes of POLYMOD, in the order of its checks (R247) -/

section
variable {s : State} {vals : List Byte}

theorem execPolymod_tooLong (hv : 256 < s.vlen.toNat) : execPolymod s = finish .badLength s :=
  if_pos (tooLong_iff.2 hv)

theorem execPolymod_unwritten (hv : s.vlen.toNat ≤ 256) (hw : ¬ WrittenUpTo s .vbuf s.vlen.toNat) :
    execPolymod s = raise .unwrittenEntry s := by
  simp [execPolymod, tooLong_eq_false.2 hv, State.valueInput_eq_none.2 hw]

theorem execPolymod_invalidValue (hv : s.vlen.toNat ≤ 256) (hin : s.valueInput = some vals) (ha : ¬ AllSymbols vals) :
    execPolymod s = finish .invalidValue s := by
  simp [execPolymod, tooLong_eq_false.2 hv, hin, toSymbols_eq_none.2 ha]

theorem execPolymod_symbols (hv : s.vlen.toNat ≤ 256) (hin : s.valueInput = some vals) (ha : AllSymbols vals) :
    execPolymod s = finish .ok (s.setAcc (polymod (symbolsOf vals))) := by
  simp [execPolymod, tooLong_eq_false.2 hv, hin, toSymbols_of_all ha]

end

/-- Settles O8: a word of opcode 1 is read by format N, which accepts the word 1 alone; each outcome is the case of
POLYMOD's checks that its hypotheses select. -/
theorem polymodComputesPolymodOfVbuf : Obligations.PolymodComputesPolymodOfVbuf := by
  refine ⟨fun w => decode_eq_polymod, fun w s hop hne => ?_, fun s => ⟨execPolymod_tooLong, execPolymod_unwritten, ?_⟩⟩
  · exact engineComplete_formatN_illegal (decode_of_opField_one (congrArg BitVec.toNat hop))
      (mt decode_eq_polymod.1 hne) s
  · intro vals hv hl hb
    have hin : s.valueInput = some vals := State.valueInput_eq_some.2 ⟨hl, hb⟩
    exact ⟨execPolymod_invalidValue hv hin, execPolymod_symbols hv hin⟩

/-! ### One step of the polymod on numbers -/

theorem selectGen_toNat (c0 : BitVec 5) (i : Nat) (g : Acc) :
    (selectGen c0 i g).toNat = if c0.toNat.testBit i then g.toNat else 0 := by
  rw [selectGen, BitVec.getLsbD, apply_ite BitVec.toNat]
  rfl

/-- The five bits that select the reduction. -/
theorem accTop_toNat (c : Acc) : (c.extractLsb' 25 5).toNat = c.toNat / 2 ^ 25 := by
  have hc := c.isLt
  rw [BitVec.extractLsb'_toNat, Nat.shiftRight_eq_div_pow]
  omega

/-- The shift drops the top five bits. -/
theorem accShift_toNat (c : Acc) : (c <<< 5).toNat = c.toNat % 2 ^ 25 * 2 ^ 5 := by
  rw [BitVec.toNat_shiftLeft, Nat.shiftLeft_eq]
  omega

theorem symbolAsAcc_toNat (v : Symbol) : (v.setWidth 30).toNat = v.toNat := by
  have hv := v.isLt
  rw [BitVec.toNat_setWidth]
  omega

/-- Settles O38: `toNat` of each part of a step, joined by the exclusive or; the five constants are R130's by evaluation,
and the fold takes a last value last. -/
theorem polymodStepOnNumbers : Obligations.PolymodStepOnNumbers := by
  refine ⟨fun c v => ?_, rfl, fun vals v => List.foldl_concat ..⟩
  simp only [pmStep, reduction, BitVec.toNat_xor, selectGen_toNat, accTop_toNat, accShift_toNat, symbolAsAcc_toNat,
    Nat.xor_assoc]
  rfl

end Sys2Proof.Machine
end

section
/-! PROOF. The family 42_checksum.md: the HRP expansion (R150) and the checksum groups (R153) on numbers, then the words
and the outcomes of CKGEN (R155) and CKVER (R160). -/

namespace Sys2Proof.Machine

/-! ### The HRP expansion on numbers (R150) -/

theorem codeHigh_toNat (ch : Byte) : ((ch.extractLsb' 5 3).setWidth 5).toNat = ch.toNat / 32 := by
  have hch := ch.isLt
  rw [BitVec.toNat_setWidth, BitVec.extractLsb'_toNat, Nat.shiftRight_eq_div_pow]
  omega

theorem codeLow_toNat (ch : Byte) : (ch.extractLsb' 0 5).toNat = ch.toNat % 32 :=
  BitVec.extractLsb'_toNat ..

/-- Settles O40: each part of the expansion is a `map`, whose elements are `codeHigh_toNat` and `codeLow_toNat`. -/
theorem expansionLayout : Obligations.ExpansionLayout := by
  refine fun h d => ⟨?_, ?_⟩
  · simp only [expand, List.map_append, List.map_map, Function.comp_def, codeHigh_toNat, codeLow_toNat]
    rfl
  · simp only [expand, List.length_append, List.length_map, List.length_singleton]
    omega

/-! ### The checksum groups (R152, R153) -/

/-- The two variants that have a constant, and their constants. -/
theorem checksumConstant_eq_some {enc : Variant} {k : Acc} :
    checksumConstant enc = some k ↔ (enc = .bech32 ∧ k = 0x00000001) ∨ (enc = .bech32m ∧ k = 0x2bc830a3) := by
  cases enc <;> simp [checksumConstant, eq_comm (b := k)]

theorem checksumGroup_toNat (word : Acc) (i : Nat) :
    (checksumGroup word i).toNat = word.toNat / 2 ^ (5 * (5 - i)) % 32 := by
  rw [checksumGroup, BitVec.extractLsb'_toNat, Nat.shiftRight_eq_div_pow]

@[simp] theorem checksumGroups_length (word : Acc) : (checksumGroups word).length = 6 := rfl

/-- The entry that CKGEN stores for group `i`. -/
theorem fromSymbols_checksumGroups_getElem? (word : Acc) {i : Nat} (hi : i < 6) :
    (fromSymbols (checksumGroups word))[i]? = some ((word.extractLsb' (5 * (5 - i)) 5).setWidth 8) := by
  simp [fromSymbols, checksumGroups, checksumGroup, hi]

/-- The groups are the base-32 digits of the word, which has six of them. -/
theorem packed_checksumGroups (word : Acc) :
    (checksumGroup word 0).toNat * 32 ^ 5 + (checksumGroup word 1).toNat * 32 ^ 4 +
      (checksumGroup word 2).toNat * 32 ^ 3 + (checksumGroup word 3).toNat * 32 ^ 2 +
      (checksumGroup word 4).toNat * 32 + (checksumGroup word 5).toNat = word.toNat := by
  have hw := word.isLt
  simp only [checksumGroup_toNat]
  omega

/-- Settles O41: the six values are the groups of the checksum word for the variant's constant. -/
theorem checksumPacksPolymod : Obligations.ChecksumPacksPolymod := by
  intro h d enc k henc
  refine ⟨_, _, _, _, _, _, ?_, packed_checksumGroups (checksumWord k h d)⟩
  rw [createChecksum, checksumConstant_eq_some.2 henc]
  rfl

end Sys2Proof.Machine

namespace Sys2Proof

/-! ### The words of CKGEN and CKVER -/

theorem decode_of_opField_two {w : Word} (h : (opField w).toNat = 2) : decode w = decodeE w := by
  simp only [decode, h]

theorem decode_of_opField_three {w : Word} (h : (opField w).toNat = 3) : decode w = decodeN w .ckver := by
  simp only [decode, h]

theorem decode_eq_ckgen {w : Word} {enc : Variant} :
    decode w = .ok (.ckgen enc) ↔ (w = 0x00000012 ∧ enc = .bech32) ∨ (w = 0x00000022 ∧ enc = .bech32m) := by
  constructor
  · intro h
    have hw : (enc = .bech32 ∧ w.toNat = 0x12) ∨ (enc = .bech32m ∧ w.toNat = 0x22) := by simpa using decode_cases h
    exact hw.imp (fun ⟨he, hn⟩ => ⟨BitVec.eq_of_toNat_eq hn, he⟩) (fun ⟨he, hn⟩ => ⟨BitVec.eq_of_toNat_eq hn, he⟩)
  · rintro (⟨rfl, rfl⟩ | ⟨rfl, rfl⟩) <;> rfl

theorem decode_eq_ckver {w : Word} : decode w = .ok .ckver ↔ w = 0x00000003 := by
  constructor
  · intro h
    have hw : w.toNat = 3 := by simpa using decode_cases h
    exact BitVec.eq_of_toNat_eq hw
  · rintro rfl
    rfl

end Sys2Proof

namespace Sys2Proof.Machine

/-- A word of format E that is neither of its two commands completes with ILLEGAL_COMMAND (R246). -/
theorem engineComplete_formatE_illegal {w : Word} (hd : decode w = decodeE w) (hne : ∀ enc, decode w ≠ .ok (.ckgen enc))
    (s : State) : engineComplete w s = finish .illegalCommand s := by
  cases h : decode w with
  | error r => exact engineComplete_error h s
  | ok j =>
    obtain ⟨_, rfl⟩ | ⟨_, rfl⟩ := decodeE_eq_ok.1 (hd.symm.trans h)
    · exact absurd h (hne _)
    · exact absurd h (hne _)

/-! ### The input stage with every entry written (R247) -/

section
variable {s : State} {k : List Byte → List Symbol → Result} {h vals : List Byte}
  (hh : s.hlen.toNat ≤ 256) (hv : s.vlen.toNat ≤ 256) (hl : h.length = s.hlen.toNat) (hb : Loaded s .hbuf h)
  (vl : vals.length = s.vlen.toNat) (vb : Loaded s .vbuf vals)
include hh hv hl hb vl vb

theorem withChecksumInput_invalidValue (ha : ¬ AllSymbols vals) : withChecksumInput s k = finish .invalidValue s := by
  rw [withChecksumInput_loaded hh hv hl hb vl vb, toSymbols_eq_none.2 ha]

/-- Readable inputs whose values are all 5-bit values reach the command. -/
theorem withChecksumInput_symbols (ha : AllSymbols vals) : withChecksumInput s k = k h (symbolsOf vals) := by
  rw [withChecksumInput_loaded hh hv hl hb vl vb, toSymbols_of_all ha]

end

/-! ### A command's output (R29, R37) -/

theorem State.entry_setOutput (s : State) {vals : List Byte} {i : Nat} (hi : i < vals.length) :
    (s.setOutput vals).entry .obuf i = vals[i]? := by
  have hread := Memory.read_writeEntries_same (m := s.mem) (b := .obuf) (i := 0) hi
  rwa [Nat.zero_add] at hread

theorem State.readByte_setOutput_other (s : State) {vals : List Byte} {a : Nat}
    (ha : ∀ i < vals.length, a ≠ entryAddr .obuf i) : (s.setOutput vals).readByte a = s.readByte a :=
  Memory.read_writeEntries_other fun i hi => by rw [Nat.zero_add]; exact ha i hi

/-! ### CKGEN (R155) -/

/-- Settles O9: format E accepts the two words alone; each outcome is the case of the input stage that its hypotheses
select, and the last one stores the groups of the checksum word. -/
theorem ckgenWritesChecksum : Obligations.CkgenWritesChecksum := by
  refine ⟨fun w enc => decode_eq_ckgen, fun w s hop h12 h22 => ?_, fun enc k s henc => ?_⟩
  · exact engineComplete_formatE_illegal (decode_of_opField_two (congrArg BitVec.toNat hop))
      (fun _ h => (decode_eq_ckgen.1 h).elim (fun hw => h12 hw.1) (fun hw => h22 hw.1)) s
  · rw [show exec (.ckgen enc) s = _ from execCkgen_of_constant (checksumConstant_eq_some.2 henc) s]
    refine ⟨withChecksumInput_tooLong, withChecksumInput_unwritten, fun h vals hh hv hl hb vl vb =>
      ⟨withChecksumInput_invalidValue hh hv hl hb vl vb, fun ha => ?_⟩⟩
    refine ⟨_, _, withChecksumInput_symbols hh hv hl hb vl vb ha, rfl, rfl, fun i hi => ?_, fun a hother => ?_⟩
    · exact (State.entry_setOutput s hi).trans (fromSymbols_checksumGroups_getElem? _ hi)
    · exact State.readByte_setOutput_other s hother

/-! ### CKVER (R160) -/

/-- Settles O10: format N accepts the word 3 alone; each outcome is the case of the input stage, then of the number of
values and of `matchVariant`, that its hypotheses select. -/
theorem ckverReportsVariant : Obligations.CkverReportsVariant := by
  refine ⟨fun w => decode_eq_ckver, fun w s hop hne => ?_, fun s => ?_⟩
  · exact engineComplete_formatN_illegal (decode_of_opField_three (congrArg BitVec.toNat hop))
      (mt decode_eq_ckver.1 hne) s
  · rw [show exec .ckver s = _ from execCkver_eq s]
    refine ⟨withChecksumInput_tooLong, withChecksumInput_unwritten, fun h vals hh hv hl hb vl vb =>
      ⟨withChecksumInput_invalidValue hh hv hl hb vl vb, fun ha hshort => ?_, fun ha hlong p hp => ?_⟩⟩
    · rw [withChecksumInput_symbols hh hv hl hb vl vb ha, if_pos (by simpa using hshort)]
      rfl
    · rw [withChecksumInput_symbols hh hv hl hb vl vb ha, if_neg (by simpa using hlong), ← hp]
      refine ⟨?_, ?_, fun h1 h2 => ?_⟩
      · rintro rfl
        rw [matchVariant_bech32]
        rfl
      · rintro rfl
        rw [matchVariant_bech32m]
        rfl
      · rw [matchVariant_eq_invalid.2 ⟨h1, h2⟩]
        rfl

end Sys2Proof.Machine
end

section
/-! PROOF. The family 43_regroup.md: what `convert_bits` returns on the bit stream of its input (R180 to R182), then the
words and the outcomes of CONVERT (R183). -/

namespace Sys2Proof.Machine

/-! ### The leftover bits of a stream (R180) -/

/-- The bits of a stream after its last full group of `t` bits. -/
def leftover (t : Nat) (bs : List Bool) : List Bool := bs.drop (bs.length / t * t)

theorem leftover_length (t : Nat) (bs : List Bool) : (leftover t bs).length = bs.length % t := by
  have hdm := Nat.div_add_mod' bs.length t
  rw [leftover, List.length_drop]
  omega

/-- The low bits of a stream's number are the number of its leftover. -/
theorem bitsValue_mod_leftover (t : Nat) (bs : List Bool) :
    bitsValue bs % 2 ^ (bs.length % t) = bitsValue (leftover t bs) := by
  have hlt := bitsValue_lt (leftover t bs)
  have hsplit : bitsValue bs = bitsValue (bs.take (bs.length / t * t) ++ leftover t bs) := by
    rw [leftover, List.take_append_drop]
  rw [leftover_length] at hlt
  rw [hsplit, bitsValue_append, leftover_length, Nat.mul_add_mod_self_right, Nat.mod_eq_of_lt hlt]

/-- Zero bits on the right do not decide whether a group is zero. -/
theorem bitsValue_append_zeros_eq_zero {bs : List Bool} {n : Nat} :
    bitsValue (bs ++ List.replicate n false) = 0 ↔ true ∉ bs := by
  simp [bitsValue_eq_zero]

/-! ### What the regrouper returns (R181, R182) -/

section
variable {d : List Byte} {f t : Nat} {bs : List Bool}
  (ht : 1 ≤ t) (hfit : ∀ v ∈ d, v.toNat < 2 ^ f) (hbs : bs = bitStream f d)
include ht hfit hbs

/-- The loops end with the leftover to be emitted as the last group. -/
theorem lastGroup_regroupAll :
    lastGroup t (regroupAll f t d) = bitsValue (leftover t bs ++ List.replicate (t - bs.length % t) false) := by
  rw [regroupAll_eq ht hfit, ← hbs]
  exact lastGroup_eq (Nat.mod_lt _ ht) (leftover_length t bs) (bitsValue_mod_leftover t bs)

/-- With padding: the full groups, then the completed leftover where there is one. -/
theorem convertBits_pad :
    convertBits d f t true =
      .ok (if 0 < bs.length % t then
          fullGroups t (bs.length / t) bs ++
            [BitVec.ofNat 8 (bitsValue (leftover t bs ++ List.replicate (t - bs.length % t) false))]
        else fullGroups t (bs.length / t) bs) := by
  rw [convertBits, if_neg (by simpa using hfit)]
  simp only [if_true, lastGroup_regroupAll ht hfit hbs]
  rw [regroupAll_eq ht hfit, ← hbs]

/-- Without padding: the full groups alone, if the leftover is shorter than an input value and all zero. -/
theorem convertBits_noPad :
    convertBits d f t false =
      if f ≤ bs.length % t ∨ true ∈ leftover t bs then .invalidPadding else .ok (fullGroups t (bs.length / t) bs) := by
  rw [convertBits, if_neg (by simpa using hfit)]
  simp only [Bool.false_eq_true, if_false, lastGroup_regroupAll ht hfit hbs, ne_eq, bitsValue_append_zeros_eq_zero,
    not_not]
  rw [regroupAll_eq ht hfit, ← hbs]

end

/-- Settles O46: the loops leave the full groups and the leftover (`regroupAll_eq`); each clause is the branch of
`convertBits_pad` or `convertBits_noPad` that its hypothesis selects. -/
theorem regroupingCutsTheBitStream : Obligations.RegroupingCutsTheBitStream := by
  rintro d f t - - ht - hfit bs _ _ _ hbs rfl rfl rfl
  rw [convertBits_pad ht hfit hbs, convertBits_noPad ht hfit hbs]
  refine ⟨by rw [hbs, bitStream_length], fun hr => ?_, fun hr => ?_, fun hbad => if_pos hbad, fun hr hleft => ?_⟩
  · rw [if_neg (by omega)]
  · rw [if_pos hr]
    rfl
  · exact if_neg (not_or.2 ⟨Nat.not_le.2 hr, hleft⟩)

end Sys2Proof.Machine

namespace Sys2Proof

/-! ### The words of CONVERT -/

theorem decode_of_opField_four {w : Word} (h : (opField w).toNat = 4) : decode w = decodeC w := by
  simp only [decode, h]

theorem decode_eq_convert {w : Word} {f t : BitVec 4} {pad : Bool} :
    decode w = .ok (.convert f t pad) ↔
      legalWidth f = true ∧ legalWidth t = true ∧ w.toNat = 4 + 16 * pad.toNat + 256 * f.toNat + 4096 * t.toNat := by
  constructor
  · intro h
    have hcases := decode_cases h
    simp only [reduceCtorEq, false_and, exists_false, false_or, or_false, Instr.convert.injEq] at hcases
    obtain ⟨_, _, _, ⟨rfl, rfl, rfl⟩, hrest⟩ := hcases
    exact hrest
  · rintro ⟨hf, ht, hw⟩
    have hpad := Bool.toNat_le pad
    have hfrom : fromField w = f := BitVec.eq_of_toNat_eq (by rw [fromField_toNat]; omega)
    have hto : toField w = t := BitVec.eq_of_toNat_eq (by rw [toField_toNat]; omega)
    have hpadField : padField w = pad := by
      rw [← Bool.ofNat_toNat (padField w), padField_toNat, show w.toNat / 16 % 2 = pad.toNat by omega, Bool.ofNat_toNat]
    rw [decode_of_opField_four (by rw [opField_toNat]; omega), decodeC_eq_ok, hfrom, hto, hpadField]
    exact ⟨by omega, by omega, hf, ht, rfl⟩

end Sys2Proof

namespace Sys2Proof.Machine

/-- A word of format C with a width outside 1 to 8 or a must-be-zero bit set completes with ILLEGAL_COMMAND (R246). -/
theorem engineComplete_formatC_illegal {w : Word} (hd : decode w = decodeC w)
    (hbad : (w.extractLsb' 8 4).toNat = 0 ∨ 8 < (w.extractLsb' 8 4).toNat ∨ (w.extractLsb' 12 4).toNat = 0 ∨
      8 < (w.extractLsb' 12 4).toNat ∨ w.extractLsb' 5 3 ≠ 0 ∨ w.extractLsb' 16 16 ≠ 0) (s : State) :
    engineComplete w s = finish .illegalCommand s := by
  cases h : decode w with
  | error r => exact engineComplete_error h s
  | ok i =>
    obtain ⟨hhi, hlo, hf1, hf8, ht1, ht8⟩ := decodeC_accepts.1 ⟨i, hd.symm.trans h⟩
    simp only [hhi, hlo, ne_eq, not_true_eq_false, or_false] at hbad
    omega

/-! ### The outcomes of CONVERT, in the order of its checks (R247) -/

section
variable {f t : BitVec 4} {pad : Bool} {s : State} {vals out : List Byte}
  (hw : (legalWidth f && legalWidth t) = true)
include hw

theorem execConvert_tooLong (hv : 256 < s.vlen.toNat) : execConvert f t pad s = finish .badLength s := by
  simp [execConvert, hw, tooLong_iff.2 hv]

theorem execConvert_unwritten (hv : s.vlen.toNat ≤ 256) (hu : ¬ WrittenUpTo s .vbuf s.vlen.toNat) :
    execConvert f t pad s = raise .unwrittenEntry s := by
  simp [execConvert, hw, tooLong_eq_false.2 hv, State.valueInput_eq_none.2 hu]

variable (hv : s.vlen.toNat ≤ 256) (hin : s.valueInput = some vals)
include hv hin

theorem execConvert_invalidValue (hc : convertBits vals f.toNat t.toNat pad = .invalidValue) :
    execConvert f t pad s = finish .invalidValue s := by
  simp [execConvert, hw, tooLong_eq_false.2 hv, hin, hc]

theorem execConvert_invalidPadding (hc : convertBits vals f.toNat t.toNat pad = .invalidPadding) :
    execConvert f t pad s = finish .invalidPadding s := by
  simp [execConvert, hw, tooLong_eq_false.2 hv, hin, hc]

theorem execConvert_regrouped (hc : convertBits vals f.toNat t.toNat pad = .ok out) :
    execConvert f t pad s = storeRegrouped out s := by
  simp [execConvert, hw, tooLong_eq_false.2 hv, hin, hc]

end

theorem storeRegrouped_tooLong {out : List Byte} (h : 256 < out.length) (s : State) :
    storeRegrouped out s = finish .badLength s := if_pos h

theorem storeRegrouped_stores {out : List Byte} (h : out.length ≤ 256) (s : State) :
    storeRegrouped out s = finish .ok (s.setOutput out) := if_neg (Nat.not_lt.2 h)

/-- OLEN holds the length of every output that OBUF holds (R29). -/
theorem State.setOutput_olen_toNat (s : State) {out : List Byte} (h : out.length ≤ 256) :
    (s.setOutput out).olen.toNat = out.length := by
  rw [State.setOutput_olen, BitVec.toNat_ofNat]
  omega

/-- Settles O11: format C accepts its own words; each outcome is the case of CONVERT's checks, then of the regrouper and
of the output's length, that its hypotheses select. -/
theorem convertStoresRegroupedBits : Obligations.ConvertStoresRegroupedBits := by
  refine ⟨fun w f t pad => ?_, fun w s hop hbad => ?_, fun f t pad s hf1 hf8 ht1 ht8 => ?_⟩
  · rw [decode_eq_convert, legalWidth_iff, legalWidth_iff, and_assoc, and_assoc]
  · exact engineComplete_formatC_illegal (decode_of_opField_four (congrArg BitVec.toNat hop)) hbad s
  · have hw : (legalWidth f && legalWidth t) = true := by simp [hf1, hf8, ht1, ht8]
    refine ⟨execConvert_tooLong hw, execConvert_unwritten hw, fun vals hv hl hb => ?_⟩
    have hin : s.valueInput = some vals := State.valueInput_eq_some.2 ⟨hl, hb⟩
    refine ⟨execConvert_invalidValue hw hv hin, execConvert_invalidPadding hw hv hin, fun out hc hlong => ?_,
      fun out hc hshort => ?_⟩
    · exact (execConvert_regrouped hw hv hin hc).trans (storeRegrouped_tooLong hlong s)
    · exact ⟨_, (execConvert_regrouped hw hv hin hc).trans (storeRegrouped_stores hshort s), rfl,
        State.setOutput_olen_toNat s hshort, fun k hk => State.entry_setOutput s hk,
        fun a ha => State.readByte_setOutput_other s ha⟩

end Sys2Proof.Machine
end

section
/-! PROOF. The family 48_host_facade.md: the checks `decode` runs before it splits the string, on numbers and in their
order (R211, R212, R214), then its rejections. -/

namespace Sys2Proof.Machine

/-! ### The character checks on numbers (R212, R214) -/

theorem isUpper_iff {c : Byte} : isUpper c = true ↔ 0x41 ≤ c.toNat ∧ c.toNat ≤ 0x5A := by
  simp only [isUpper, Bool.and_eq_true, decide_eq_true_eq]

theorem isLower_iff {c : Byte} : isLower c = true ↔ 0x61 ≤ c.toNat ∧ c.toNat ≤ 0x7A := by
  simp only [isLower, Bool.and_eq_true, decide_eq_true_eq]

theorem outOfRange_eq_false_iff {c : Byte} : outOfRange c = false ↔ 33 ≤ c.toNat ∧ c.toNat ≤ 126 := by
  simp only [outOfRange, Bool.or_eq_false_iff, decide_eq_false_iff_not, Nat.not_lt]

theorem mixedCase_iff {str : Str} :
    mixedCase str = true ↔
      (∃ c ∈ str, 0x41 ≤ c.toNat ∧ c.toNat ≤ 0x5A) ∧ (∃ c ∈ str, 0x61 ≤ c.toNat ∧ c.toNat ≤ 0x7A) := by
  simp only [mixedCase, Bool.and_eq_true, List.any_eq_true, isUpper_iff, isLower_iff]

theorem firstOutOfRange_eq_none_iff {str : Str} :
    firstOutOfRange str = none ↔ ∀ c ∈ str, 33 ≤ c.toNat ∧ c.toNat ≤ 126 := by
  simp only [firstOutOfRange, List.findIdx?_eq_none_iff, outOfRange_eq_false_iff]

/-- The range check passes exactly the strings of printable codes: wherever a code out of range stands, it gives an
error kind (R212). -/
theorem rangeCheck_eq_none_iff {str : Str} :
    rangeCheck str = none ↔ ∀ c ∈ str, 33 ≤ c.toNat ∧ c.toNat ≤ 126 := by
  rw [← firstOutOfRange_eq_none_iff, rangeCheck]
  cases firstOutOfRange str with
  | none => simp only
  | some i =>
    cases lastSeparator str with
    | none => simp only [reduceCtorEq]
    | some j => by_cases h : i < j <;> simp only [h, if_true, if_false, reduceCtorEq]

/-! ### The outcomes of the checks, in their order -/

theorem decodeCheck_tooLong {str : Str} (h : 90 < str.length) : decodeCheck str = some .tooLong := if_pos h

theorem decodeCheck_tooShort {str : Str} (h : str.length < 8) : decodeCheck str = some .missingSeparator := by
  rw [decodeCheck, if_neg (by omega), if_pos h]

section
variable {str : Str} (hmin : 8 ≤ str.length) (hmax : str.length ≤ 90)
include hmin hmax

/-- A string of legal length goes on to the range check and then the case check. -/
theorem decodeCheck_of_length :
    decodeCheck str = (rangeCheck str).or (if mixedCase str then some .mixedCase else none) := by
  rw [decodeCheck, if_neg (Nat.not_lt.2 hmax), if_neg (Nat.not_lt.2 hmin)]
  cases rangeCheck str <;> rfl

theorem decodeCheck_mixedCase (hrange : rangeCheck str = none) (hmixed : mixedCase str = true) :
    decodeCheck str = some .mixedCase := by
  rw [decodeCheck_of_length hmin hmax, hrange, Option.none_or, if_pos hmixed]

end

/-- The first failing check is `decode`'s answer (R210). -/
theorem facadeDecode_of_decodeCheck {str : Str} {kind : ErrorKind} (h : decodeCheck str = some kind) :
    facadeDecode str = .error kind := by
  simp only [facadeDecode, h]

/-- Settles O54: each rejection is the check that its hypotheses select, with the checks before it passed. -/
theorem decodeRejectsBadStrings : Obligations.DecodeRejectsBadStrings := by
  refine fun str => ⟨fun hlong => ?_, fun hshort => ?_, fun hmin hmax hprintable hupper hlower => ?_⟩
  · exact facadeDecode_of_decodeCheck (decodeCheck_tooLong hlong)
  · exact facadeDecode_of_decodeCheck (decodeCheck_tooShort hshort)
  · exact facadeDecode_of_decodeCheck (decodeCheck_mixedCase hmin hmax (rangeCheck_eq_none_iff.2 hprintable)
      (mixedCase_iff.2 ⟨hupper, hlower⟩))

end Sys2Proof.Machine
end

section
/-! PROOF. The family 60_exceptions.md: when a command fails with BAD_LENGTH (R245) and what a failure changes (R248).
Both rest on what a failed completion leaves, said once. -/

namespace Sys2Proof.Machine

section
variable {i : Instr} {s t u : State} {code : ErrCode}

/-- A command that finishes leaves its code in STATUS.ERR (R12, R240). -/
theorem err_of_exec_eq_finish (h : exec i s = .next t) (hx : exec i s = finish code u) : t.err = code := by
  obtain rfl : u.done code = t := finish_eq_next.1 (hx.symm.trans h)
  exact State.done_err u code

/-- Everything a failed completion can leave: its code alone, or CKVER's mismatch, which takes the accumulator over
from a sequence of six or more values only (R160, R248). -/
theorem exec_failed (h : exec i s = .next t) (hne : t.err ≠ .ok) :
    (t.err ≠ .checksumMismatch ∧ t = s.done t.err) ∨
      (i = .ckver ∧ ∃ u, (u = s ∨ ∃ c, u = s.setAcc c ∧ 6 ≤ s.vlen.toNat) ∧
        t = (u.setVariant .invalid).done .checksumMismatch) := by
  rcases exec_cases i s with hx | ⟨code, _, hmismatch, hx⟩ | ⟨hi, u, hu, hx⟩ | ⟨_, _, hx⟩ | ⟨_, _, _, hx⟩ |
    ⟨_, _, _, hx⟩ | ⟨_, _, _, _, _, _, hx⟩ | ⟨_, _, hx⟩
  · exact absurd (hx.symm.trans h) raise_ne_next
  · have herr : t.err = code := err_of_exec_eq_finish h hx
    exact .inl ⟨herr ▸ hmismatch, herr ▸ (finish_eq_next.1 (hx.symm.trans h)).symm⟩
  · exact .inr ⟨hi, u, hu.imp_left And.left, (finish_eq_next.1 (hx.symm.trans h)).symm⟩
  all_goals exact absurd (err_of_exec_eq_finish h hx) hne

/-- Settles O17: a failed completion is one of the two cases of `exec_failed`, and only the second is CKVER with
CHECKSUM_MISMATCH. -/
theorem failureChangesOnlyStatus : Obligations.FailureChangesOnlyStatus := by
  intro i s t h hne
  rcases exec_failed h hne with ⟨hcode, ht⟩ | ⟨hi, u, hu, rfl⟩
  · exact ⟨fun _ => ht, fun _ hmismatch => absurd hmismatch hcode⟩
  · refine ⟨fun hother => absurd ⟨hi, State.done_err _ _⟩ hother, fun _ _ => ?_⟩
    rcases hu with rfl | ⟨c, rfl, hlong⟩
    · exact ⟨rfl, fun _ => rfl⟩
    · exact ⟨rfl, fun hshort => absurd hshort (Nat.not_lt.2 hlong)⟩

/-! ### BAD_LENGTH (R245) -/

/-- CONVERT's output on readable input would hold more than 256 values (R183, R245). -/
abbrev ConvertOutputTooLong (i : Instr) (s : State) : Prop :=
  ∃ f g pad vals out, i = .convert f g pad ∧ s.vlen.toNat ≤ 256 ∧ vals.length = s.vlen.toNat ∧
    Loaded s .vbuf vals ∧ convertBits vals f.toNat g.toNat pad = .ok out ∧ 256 < out.length

theorem exec_of_lengthTooLong (hw : i.wellFormed = true) (hlong : LengthTooLong i s) :
    exec i s = finish .badLength s := by
  rcases exec_outcomes i s hw with ⟨_, hx⟩ | ⟨hshort, _⟩ | ⟨hshort, _⟩
  · exact hx
  · exact absurd hlong hshort
  · exact absurd hlong hshort

theorem exec_of_convertOutputTooLong (hw : i.wellFormed = true) (hlong : ConvertOutputTooLong i s) :
    exec i s = finish .badLength s := by
  obtain ⟨f, g, pad, vals, out, rfl, hv, hl, hb, hc, ho⟩ := hlong
  exact (execConvert_regrouped hw hv (State.valueInput_eq_some.2 ⟨hl, hb⟩) hc).trans (storeRegrouped_tooLong ho s)

/-- No check but the two on lengths gives BAD_LENGTH (R247). -/
theorem tooLong_of_exec_badLength (hw : i.wellFormed = true) (h : exec i s = .next t) (herr : t.err = .badLength) :
    LengthTooLong i s ∨ ConvertOutputTooLong i s := by
  have hcode {code : ErrCode} {u : State} (hx : exec i s = finish code u) : code = .badLength :=
    (err_of_exec_eq_finish h hx).symm.trans herr
  rcases exec_outcomes i s hw with ⟨hlong, _⟩ | ⟨_, _, hx⟩ | ⟨hshort, _,
    hpolymod | hckgen | hckver | hconvert | hlutenc | hlutdec⟩
  · exact .inl hlong
  · exact absurd (hx.symm.trans h) raise_ne_next
  · obtain ⟨_, _, _, ⟨_, hx⟩ | ⟨_, hx⟩⟩ := hpolymod <;> exact nomatch hcode hx
  · obtain ⟨_, _, _, _, _, _, _, _, ⟨_, hx⟩ | ⟨_, hx⟩⟩ := hckgen <;> exact nomatch hcode hx
  · obtain ⟨_, _, _, _, _, ⟨_, hx⟩ | ⟨_, hx⟩⟩ := hckver
    · exact nomatch hcode hx
    · split_ifs at hx <;> exact nomatch hcode hx
  · obtain ⟨f, g, pad, rfl, vals, hin, ⟨_, hx⟩ | ⟨_, hx⟩ | ⟨out, hc, ho, _⟩ | ⟨_, _, _, hx⟩⟩ := hconvert
    · exact nomatch hcode hx
    · exact nomatch hcode hx
    · obtain ⟨hl, hb⟩ := State.valueInput_eq_some.1 hin
      exact .inr ⟨f, g, pad, vals, out, rfl, Nat.not_lt.1 fun hv => hshort (.inr ⟨rfl, hv⟩), hl, hb, hc, ho⟩
    · exact nomatch hcode hx
  · obtain ⟨_, _, ⟨_, hx⟩ | ⟨_, hx⟩⟩ := hlutenc <;> exact nomatch hcode hx
  · obtain ⟨_, _, ⟨_, hx⟩ | ⟨_, _, hx⟩⟩ := hlutdec <;> exact nomatch hcode hx

end

/-- Settles O15: the two length checks are the only ones that give BAD_LENGTH, each gives it, and the frame is that of a
failed completion. -/
theorem badLengthExactlyForLongSequences : Obligations.BadLengthExactlyForLongSequences := by
  intro i s t hw h
  refine ⟨⟨tooLong_of_exec_badLength hw h, fun hlong => ?_⟩, fun herr => ?_⟩
  · exact err_of_exec_eq_finish h (hlong.elim (exec_of_lengthTooLong hw) (exec_of_convertOutputTooLong hw))
  · exact ((failureChangesOnlyStatus i s t h (by simp [herr])).1 (by simp [herr])).trans (by rw [herr])

end Sys2Proof.Machine
end

section
/-! PROOF. The family 70_reset_and_hazards.md: the reset event (R270). What the block reads as after a reset event, then
the host step that performs one. -/

namespace Sys2Proof.Machine

/-- STATUS reads 0 after a reset event (R43, R270): BUSY, ERR and VARIANT are all clear. -/
@[simp] theorem State.resetEvent_statusWord (s : State) : s.resetEvent.statusWord = 0 := by
  apply BitVec.eq_of_toNat_eq
  rw [statusWord_toNat, State.busy_eq_false.2 s.resetEvent_pcmd, State.resetEvent_err, State.resetEvent_variant]
  rfl

/-- A reset event clears every written mark (R270, R271). -/
@[simp] theorem State.resetEvent_entry (s : State) (b : Buf) (i : Nat) : s.resetEvent.entry b i = none := by
  rw [State.entry_def, State.resetEvent_mem, Memory.read_nil]

/-- The host's reset operation, with no completion due, is a reset event and no more: a pending command runs in no part
(R270). -/
theorem step_reset {s : State} {rest : List HostOp} (hf : s.faulted = false) (hh : s.host = .reset :: rest)
    (hp : s.pcmd = none ∨ s.wait ≠ 0) : step s = .next s.advance.resetEvent :=
  step_host hf hh hp

/-- Settles O6: the step is `step_reset`, and every field of the state it leaves is a law of the reset event. -/
theorem resetEventRestoresResetValues : Obligations.ResetEventRestoresResetValues := by
  refine ⟨fun s rest hf hh hp => ⟨s.advance.resetEvent, step_reset hf hh hp, ?_⟩, fun s => s.resetEvent_faulted⟩
  have hhost : s.advance.resetEvent.host = rest := by simp [hh]
  exact ⟨State.resetEvent_statusWord _, rfl, rfl, rfl, rfl, rfl, rfl, State.resetEvent_entry _, hf, hhost⟩

end Sys2Proof.Machine
end

section
/-! PROOF. The decoder and the encoder are inverse to each other (30_encoding.md sections 1 to 3), and some words
written out. -/

namespace Sys2Proof

/-- Settles O1: each command's word, on numbers, is the one that the decoder's own lemma for that command names. -/
theorem decodeOfEncodeIsIdentity : Obligations.DecodeOfEncodeIsIdentity := by
  intro i hw
  cases i with
  | polymod => exact decode_eq_polymod.2 (BitVec.eq_of_toNat_eq encode_polymod_toNat)
  | ckgen enc =>
    refine decode_eq_ckgen.2 ?_
    cases enc with
    | invalid => simp [Instr.wellFormed] at hw
    | bech32 => exact .inl ⟨BitVec.eq_of_toNat_eq (encode_ckgen_toNat _), rfl⟩
    | bech32m => exact .inr ⟨BitVec.eq_of_toNat_eq (encode_ckgen_toNat _), rfl⟩
  | ckver => exact decode_eq_ckver.2 (BitVec.eq_of_toNat_eq encode_ckver_toNat)
  | convert f t pad =>
    obtain ⟨hf, ht⟩ : legalWidth f = true ∧ legalWidth t = true := Bool.and_eq_true_iff.1 hw
    exact decode_eq_convert.2 ⟨hf, ht, encode_convert_toNat f t pad⟩
  | lutenc v => exact decode_eq_lutenc.2 (encode_lutenc_toNat v)
  | lutdec ch => exact decode_eq_lutdec.2 (encode_lutdec_toNat ch)

/-- Settles O2: `decode_cases` gives the number of every word that decodes, which is the number of the command's own
word. -/
theorem decodedWordEncodesBack : Obligations.DecodedWordEncodesBack := by
  intro w i h
  have back {j : Instr} (hj : w.toNat = (encode j).toNat) : encode j = w := BitVec.eq_of_toNat_eq hj.symm
  rcases decode_cases h with ⟨rfl, hw⟩ | ⟨rfl, hw⟩ | ⟨rfl, hw⟩ | ⟨rfl, hw⟩ | ⟨f, t, pad, rfl, hf, ht, hw⟩ |
    ⟨v, rfl, hw⟩ | ⟨ch, rfl, hw⟩
  · exact ⟨back (hw.trans encode_polymod_toNat.symm), rfl⟩
  · exact ⟨back (hw.trans (encode_ckgen_toNat .bech32).symm), rfl⟩
  · exact ⟨back (hw.trans (encode_ckgen_toNat .bech32m).symm), rfl⟩
  · exact ⟨back (hw.trans encode_ckver_toNat.symm), rfl⟩
  · exact ⟨back (hw.trans (encode_convert_toNat f t pad).symm), Bool.and_eq_true_iff.2 ⟨hf, ht⟩⟩
  · exact ⟨back (hw.trans (encode_lutenc_toNat v).symm), rfl⟩
  · exact ⟨back (hw.trans (encode_lutdec_toNat ch).symm), rfl⟩

/-- Settles O4: each word is read off the decoder's lemma for its command, and the two illegal ones are refused by
evaluation. -/
theorem sampleWordsDecodeAsWritten : Obligations.SampleWordsDecodeAsWritten := by
  have rejected {w : Word} {r : Reject} (h : decode w = .error r) (i : Instr) : decode w ≠ .ok i := by
    rw [h]
    exact nofun
  exact ⟨decode_eq_polymod.2 rfl, decode_eq_ckgen.2 (.inl ⟨rfl, rfl⟩), decode_eq_ckgen.2 (.inr ⟨rfl, rfl⟩),
    decode_eq_ckver.2 rfl, decode_eq_convert.2 ⟨rfl, rfl, rfl⟩, decode_eq_convert.2 ⟨rfl, rfl, rfl⟩,
    decode_eq_lutenc.2 rfl, decode_eq_lutdec.2 rfl, rejected (r := .reservedVariant) rfl,
    rejected (r := .illegalWidth) rfl⟩

end Sys2Proof
end

section
/-! PROOF. The invariant of every step (10_state.md sections 3 and 4): it depends on five fields, each update of the
machine keeps it, and so every step does. -/

namespace Sys2Proof.Machine

/-- A write leaves every written mark set. -/
theorem Memory.isSome_read_write {m : Memory} {x : Nat} (a : Nat) (b : Byte) (h : (m.read x).isSome = true) :
    ((m.write a b).read x).isSome = true := by
  rw [Memory.read_write]
  split
  · rfl
  · exact h

/-- Every character that LUTENC returns stands in the alphabet (R113). -/
theorem charAt_mem_charset (v : Symbol) : charAt v ∈ charset := List.mem_of_getElem? (charset_getElem?_toNat v)

/-! ### Each update keeps the invariant -/

/-- The invariant speaks of the memory, OLEN, LUTR and the two fields of a pending command alone. -/
theorem Inv.of_same_results {s t : State} (hs : Inv s) (hmem : t.mem = s.mem) (holen : t.olen = s.olen)
    (hlutr : t.lutr = s.lutr) (hwait : t.pcmd = none → t.wait = 0) : Inv t where
  canonical := hmem ▸ hs.canonical
  inWindow := hmem ▸ hs.inWindow
  outputLength := holen ▸ hs.outputLength
  outputWritten k hk := State.entry_congr hmem .obuf k ▸ hs.outputWritten k (holen ▸ hk)
  lookupResult := hlutr ▸ hs.lookupResult
  noWaitWhenIdle := hwait

theorem Inv.done {s : State} (hs : Inv s) (code : ErrCode) : Inv (s.done code) :=
  hs.of_same_results rfl rfl rfl fun _ => rfl

theorem Inv.setAcc {s : State} (hs : Inv s) (c : Acc) : Inv (s.setAcc c) :=
  hs.of_same_results rfl rfl rfl hs.noWaitWhenIdle

theorem Inv.setVariant {s : State} (hs : Inv s) (v : Variant) : Inv (s.setVariant v) :=
  hs.of_same_results rfl rfl rfl hs.noWaitWhenIdle

theorem Inv.setRdata {s : State} (hs : Inv s) (w : Word) : Inv (s.setRdata w) :=
  hs.of_same_results rfl rfl rfl hs.noWaitWhenIdle

theorem Inv.advance {s : State} (hs : Inv s) : Inv s.advance :=
  hs.of_same_results rfl rfl rfl fun hp => by simp [hs.noWaitWhenIdle hp]

theorem Inv.pollAgain {s : State} (hs : Inv s) : Inv s.pollAgain :=
  hs.of_same_results rfl rfl rfl fun hp => by simp [hs.noWaitWhenIdle hp]

/-- LUTR takes a table result only (R31). -/
theorem Inv.setLutr {s : State} (hs : Inv s) {c : Byte} (hc : c.toNat < 32 ∨ c ∈ charset) : Inv (s.setLutr c) where
  canonical := hs.canonical
  inWindow := hs.inWindow
  outputLength := hs.outputLength
  outputWritten := hs.outputWritten
  lookupResult := hc
  noWaitWhenIdle := hs.noWaitWhenIdle

/-- An output of at most 256 values fills OBUF[0..OLEN) (R29, R37). -/
theorem Inv.setOutput {s : State} (hs : Inv s) {out : List Byte} (hl : out.length ≤ 256) : Inv (s.setOutput out) where
  canonical := Memory.writeEntries_wf .obuf 0 out hs.canonical
  inWindow c hc := by
    rcases Memory.mem_writeEntries hc with ⟨k, hk, hck⟩ | hc
    · exact hck ▸ entryAddr_entryOffset .obuf (by omega)
    · exact hs.inWindow c hc
  outputLength := (State.setOutput_olen_toNat s hl).trans_le hl
  outputWritten k hk := by
    rw [State.setOutput_olen_toNat s hl] at hk
    rw [State.entry_setOutput s hk, List.getElem?_eq_getElem hk]
    rfl
  lookupResult := hs.lookupResult
  noWaitWhenIdle := hs.noWaitWhenIdle

theorem Inv.setEntry {s : State} (hs : Inv s) (b : Buf) {i : Nat} (hi : i < 256) (v : Byte) :
    Inv (s.setEntry b i v) where
  canonical := Memory.write_wf _ _ hs.canonical
  inWindow c hc := by
    rcases Memory.mem_write hc with rfl | hc
    · exact entryAddr_entryOffset b hi
    · exact hs.inWindow c hc
  outputLength := hs.outputLength
  outputWritten k hk := Memory.isSome_read_write _ _ (hs.outputWritten k hk)
  lookupResult := hs.lookupResult
  noWaitWhenIdle := hs.noWaitWhenIdle

theorem Inv.writeReg {s : State} (hs : Inv s) (r : Reg) (w : Word) : Inv (writeReg r w s) := by
  cases r with
  | cmd => exact hs.of_same_results rfl rfl rfl nofun
  | hlen => exact hs.of_same_results rfl rfl rfl hs.noWaitWhenIdle
  | vlen => exact hs.of_same_results rfl rfl rfl hs.noWaitWhenIdle
  | status | olen | acc | lutr => exact hs

theorem Inv.writeBuf {s : State} (hs : Inv s) (b : Buf) (i : BitVec 8) (w : Word) : Inv (writeBuf b i.toNat w s) := by
  cases b with
  | obuf => exact hs
  | hbuf => exact hs.setEntry .hbuf i.isLt _
  | vbuf => exact hs.setEntry .vbuf i.isLt _

/-- Right after a reset event the invariant holds whatever the state before it was (R270). -/
theorem inv_resetEvent (s : State) : Inv s.resetEvent where
  canonical := List.Pairwise.nil
  inWindow := nofun
  outputLength := Nat.zero_le _
  outputWritten := nofun
  lookupResult := .inl (by simp)
  noWaitWhenIdle _ := rfl

/-- Settles O33: the reset state is what a reset event leaves of itself. -/
theorem invariantHoldsAtReset : Obligations.InvariantHoldsAtReset := inv_resetEvent State.reset

/-! ### Each agent keeps the invariant -/

theorem exec_keeps_inv {i : Instr} {s t : State} (hs : Inv s) (h : exec i s = .next t) : Inv t := by
  rcases exec_cases i s with hx | ⟨code, _, _, hx⟩ | ⟨_, u, hu, hx⟩ | ⟨_, c, hx⟩ | ⟨_, word, _, hx⟩ |
    ⟨_, c, v, hx⟩ | ⟨_, _, _, out, _, hl, hx⟩ | ⟨c, hc, hx⟩ <;> rw [hx] at h
  · exact absurd h raise_ne_next
  all_goals obtain rfl := finish_eq_next.1 h; apply Inv.done
  · exact hs
  · rcases hu with ⟨rfl, _⟩ | ⟨c, rfl, _⟩
    · exact hs.setVariant _
    · exact (hs.setAcc c).setVariant _
  · exact hs.setAcc c
  · exact (hs.setOutput (by simp)).setAcc word
  · exact (hs.setAcc c).setVariant v
  · exact hs.setOutput hl
  · refine hs.setLutr ?_
    rcases hc with ⟨v, _, _, rfl⟩ | ⟨_, r, _, _, rfl⟩
    · exact .inr (charAt_mem_charset _)
    · exact .inl ((BitVec.toNat_setWidth_of_le (by decide)).trans_lt r.isLt)

theorem engineComplete_keeps_inv {w : Word} {s t : State} (hs : Inv s) (h : engineComplete w s = .next t) : Inv t := by
  cases hd : decode w with
  | error r =>
    rw [engineComplete_error hd, finish_eq_next] at h
    exact h ▸ hs.done _
  | ok i =>
    rw [engineComplete_ok hd] at h
    exact exec_keeps_inv hs h

theorem hostStep_keeps_inv {op : HostOp} {s t : State} (hs : Inv s) (h : hostStep op s = .next t) : Inv t := by
  rcases hostStep_cases h with ⟨_, _, w, _, rfl⟩ | ⟨_, w, r, _, _, _, rfl⟩ | ⟨_, w, b, i, _, _, _, rfl⟩ |
    ⟨_, _, rfl⟩ | ⟨_, _, rfl⟩ | ⟨_, rfl⟩
  · exact hs.advance.setRdata w
  · exact hs.advance.writeReg r w
  · exact hs.advance.writeBuf b i w
  · exact hs.pollAgain.setRdata _
  · exact hs.advance.setRdata _
  · exact inv_resetEvent _

/-- Settles O34: a step that goes on is the engine's, nobody's or the host's, and each keeps the invariant. -/
theorem everyStepKeepsInvariant : Obligations.EveryStepKeepsInvariant := by
  intro s t hs h
  obtain ⟨_, ⟨w, _, he⟩ | ⟨_, _, rfl⟩ | ⟨op, _, _, _, ho⟩⟩ := step_cases h
  · exact engineComplete_keeps_inv hs he
  · exact hs
  · exact hostStep_keeps_inv hs ho

end Sys2Proof.Machine
end

section
/-! PROOF. What the regrouper returns beyond its definition (43_regroup.md R182, R184 to R186): which values it refuses,
the length and range of its output, and that bytes survive the way to 5-bit values and back. -/

namespace Sys2Proof.Machine

/-! ### The values it refuses (R182) -/

section
variable {d : List Byte} {f t : Nat} {pad : Bool} {out : List Byte}

theorem convertBits_eq_invalidValue : convertBits d f t pad = .invalidValue ↔ ∃ v ∈ d, 2 ^ f ≤ v.toNat := by
  have hany : d.any (fun v => decide (2 ^ f ≤ v.toNat)) = true ↔ ∃ v ∈ d, 2 ^ f ≤ v.toNat := by simp
  rw [← hany, convertBits]
  cases d.any fun v => decide (2 ^ f ≤ v.toNat) with
  | true => simp
  | false =>
    cases pad with
    | true => simp
    | false =>
      simp only [Bool.false_eq_true, if_false, iff_false]
      split_ifs <;> simp

/-- An output means that every value fitted. -/
theorem fits_of_convertBits_ok (h : convertBits d f t pad = .ok out) : ∀ v ∈ d, v.toNat < 2 ^ f := by
  by_contra hbad
  have hv : convertBits d f t pad = .invalidValue := convertBits_eq_invalidValue.2 (by simpa using hbad)
  rw [hv] at h
  cases h

/-- Settles O47: it is `convertBits_eq_invalidValue`, the first check of the regrouper. -/
theorem regroupingChecksEveryValue : Obligations.RegroupingChecksEveryValue :=
  fun _ _ _ _ => convertBits_eq_invalidValue

/-! ### Length and range of the output (R184) -/

/-- A group of at most `t` bits is a `t`-bit value. -/
theorem toNat_ofNat_bitsValue_lt {bs : List Bool} (h : bs.length ≤ t) :
    (BitVec.ofNat 8 (bitsValue bs)).toNat < 2 ^ t := by
  rw [BitVec.toNat_ofNat]
  calc bitsValue bs % 2 ^ 8 ≤ bitsValue bs := Nat.mod_le _ _
    _ < 2 ^ bs.length := bitsValue_lt bs
    _ ≤ 2 ^ t := Nat.pow_le_pow_right (by decide) h

/-- The number of groups, the last of them completed, is a division that rounds up. -/
theorem ceil_div_eq {n : Nat} (ht : 1 ≤ t) : (n + (t - 1)) / t = if 0 < n % t then n / t + 1 else n / t := by
  have hdm := Nat.div_add_mod' n t
  have hmod := Nat.mod_lt n ht
  split_ifs with hr
  · rw [show n + (t - 1) = n % t - 1 + (n / t + 1) * t by rw [Nat.add_mul]; omega,
      Nat.add_mul_div_right _ _ ht, Nat.div_eq_of_lt (by omega), Nat.zero_add]
  · rw [show n + (t - 1) = t - 1 + n / t * t by omega, Nat.add_mul_div_right _ _ ht, Nat.div_eq_of_lt (by omega),
      Nat.zero_add]

theorem convertBits_pad_output (ht : 1 ≤ t) (h : convertBits d f t true = .ok out) :
    out.length = (d.length * f + (t - 1)) / t ∧ ∀ v ∈ out, v.toNat < 2 ^ t := by
  rw [convertBits_pad ht (fits_of_convertBits_ok h) rfl, bitStream_length] at h
  obtain rfl := Regrouped.ok.inj h
  rw [ceil_div_eq ht]
  split_ifs with hr
  · refine ⟨by simp, fun v hv => ?_⟩
    rcases List.mem_append.1 hv with hv | hv
    · exact fullGroups_lt v hv
    · obtain rfl := List.mem_singleton.1 hv
      refine toNat_ofNat_bitsValue_lt ?_
      have hmod := Nat.mod_lt (d.length * f) ht
      simp only [List.length_append, leftover_length, bitStream_length, List.length_replicate]
      omega
  · exact ⟨fullGroups_length .., fullGroups_lt⟩

theorem convertBits_noPad_output (ht : 1 ≤ t) (h : convertBits d f t false = .ok out) :
    out.length = d.length * f / t ∧ ∀ v ∈ out, v.toNat < 2 ^ t := by
  rw [convertBits_noPad ht (fits_of_convertBits_ok h) rfl, bitStream_length] at h
  split_ifs at h
  obtain rfl := Regrouped.ok.inj h
  exact ⟨fullGroups_length .., fullGroups_lt⟩

end

/-- Settles O48: the two forms of the output, with and without padding. -/
theorem regroupingOutputLength : Obligations.RegroupingOutputLength := by
  intro d f t pad out _ _ ht _ h
  cases pad with
  | true => exact convertBits_pad_output ht h
  | false => exact convertBits_noPad_output ht h

/-! ### Five to eight bits without padding (R185) -/

theorem lt_of_allSymbols {d : List Byte} (h : AllSymbols d) : ∀ v ∈ d, v.toNat < 2 ^ 5 :=
  fun v hv => Nat.lt_succ_of_le (h v hv)

/-- 5-bit values regroup to bytes without padding, or their leftover is refused. -/
theorem regroupSymbols (v : List Symbol) :
    (∃ p, convertBits (fromSymbols v) 5 8 false = .ok p ∧ p.length = v.length * 5 / 8) ∨
      convertBits (fromSymbols v) 5 8 false = .invalidPadding := by
  cases hc : convertBits (fromSymbols v) 5 8 false with
  | ok p =>
    obtain ⟨hlen, _⟩ := convertBits_noPad_output (by decide) hc
    exact .inl ⟨p, rfl, by rw [hlen, fromSymbols_length]⟩
  | invalidValue =>
    obtain ⟨x, hx, hbig⟩ := convertBits_eq_invalidValue.1 hc
    exact absurd hbig (Nat.not_le.2 (lt_of_allSymbols (allSymbols_fromSymbols v) x hx))
  | invalidPadding => exact .inr rfl

/-- Settles O49: for these lengths the leftover of the stream has at least five bits, as long as an input value. -/
theorem fiveToEightFailsByLength : Obligations.FiveToEightFailsByLength := by
  intro d hd hlen
  have hleft : 5 ≤ (bitStream 5 d).length % 8 := by
    rw [bitStream_length]
    omega
  rw [convertBits_noPad (by decide) (lt_of_allSymbols hd) rfl, if_pos (.inl hleft)]

/-! ### Bytes to 5-bit values and back (R186) -/

/-- Padding appends fewer zero bits to the stream than a group holds. -/
theorem bitStream_convertBits_pad {d out : List Byte} {f t : Nat} (ht : 1 ≤ t) (ht8 : t ≤ 8)
    (h : convertBits d f t true = .ok out) :
    ∃ z < t, bitStream t out = bitStream f d ++ List.replicate z false := by
  rw [convertBits_pad ht (fits_of_convertBits_ok h) rfl] at h
  obtain rfl := Regrouped.ok.inj h
  set bs := bitStream f d
  have hmod : bs.length % t < t := Nat.mod_lt _ ht
  have hfull : bitStream t (fullGroups t (bs.length / t) bs) = bs.take (bs.length / t * t) :=
    bitStream_fullGroups ht8 (Nat.div_mul_le_self ..)
  split_ifs with hr
  · refine ⟨t - bs.length % t, by omega, ?_⟩
    have hlen : (leftover t bs ++ List.replicate (t - bs.length % t) false).length = t := by
      simp only [List.length_append, leftover_length, List.length_replicate]
      omega
    have hlast : (BitVec.ofNat 8 (bitsValue (leftover t bs ++ List.replicate (t - bs.length % t) false))).toNat =
        bitsValue (leftover t bs ++ List.replicate (t - bs.length % t) false) := by
      rw [BitVec.toNat_ofNat, Nat.mod_eq_of_lt]
      exact (bitsValue_lt _).trans_le (Nat.pow_le_pow_right (by decide) (hlen.trans_le ht8))
    rw [bitStream_append, hfull, bitStream_cons, bitsOf_eq hlen hlast, show bitStream t [] = [] from rfl,
      List.append_nil, ← List.append_assoc, leftover, List.take_append_drop]
  · refine ⟨0, ht, ?_⟩
    have hexact : bs.length / t * t = bs.length := by
      have hdm := Nat.div_add_mod' bs.length t
      omega
    rw [hfull, hexact, List.take_length, List.replicate_zero, List.append_nil]

/-- A sequence whose stream is that of `b` with fewer zero bits behind it than an input value holds, regroups to `b`. -/
theorem convertBits_noPad_of_stream {b d : List Byte} {f t z : Nat} (ht : 1 ≤ t) (hf : f ≤ t) (hz : z < f)
    (hb : ∀ v ∈ b, v.toNat < 2 ^ t) (hd : ∀ v ∈ d, v.toNat < 2 ^ f)
    (hs : bitStream f d = bitStream t b ++ List.replicate z false) : convertBits d f t false = .ok b := by
  have hlen : (bitStream t b ++ List.replicate z false).length = b.length * t + z := by
    simp only [List.length_append, bitStream_length, List.length_replicate]
  have hdiv : (b.length * t + z) / t = b.length := by
    rw [Nat.mul_comm, Nat.mul_add_div ht, Nat.div_eq_of_lt (hz.trans_le hf), Nat.add_zero]
  have hmod : (b.length * t + z) % t = z := by
    rw [Nat.mul_comm, Nat.mul_add_mod, Nat.mod_eq_of_lt (hz.trans_le hf)]
  have hleft : leftover t (bitStream t b ++ List.replicate z false) = List.replicate z false := by
    rw [leftover, hlen, hdiv, ← bitStream_length t b, List.drop_left]
  rw [convertBits_noPad ht hd hs.symm, hleft, hlen, hdiv, hmod, fullGroups_append (by rw [bitStream_length]),
    fullGroups_bitStream hb, if_neg (not_or.2 ⟨Nat.not_le.2 hz, by simp⟩)]

/-- Settles O50: padding leaves the stream of the bytes with fewer than five zero bits behind it, which the way back
drops. -/
theorem regroupingRoundTrip : Obligations.RegroupingRoundTrip := by
  intro b d h
  obtain ⟨z, hz, hs⟩ := bitStream_convertBits_pad (by decide) (by decide) h
  obtain ⟨_, hd⟩ := convertBits_pad_output (by decide) h
  exact convertBits_noPad_of_stream (by decide) (by decide) hz (fun v _ => v.isLt) hd hs

end Sys2Proof.Machine
end

section
/-! PROOF. Rules over all commands (60_exceptions.md sections 1 and 2): which command completes, where the engine stops,
and when a value is refused. -/

namespace Sys2Proof.Machine

/-! ### Which commands complete (R247) -/

section
variable {i : Instr} {s : State} (hw : i.wellFormed = true)
include hw

/-- A command whose lengths and entries are legal to read answers by one of its own ends, all of which complete it. -/
theorem exec_completes_of_inputsWritten (hlen : ¬ LengthTooLong i s) (hin : InputsWritten i s) :
    ∃ t, exec i s = .next t := by
  rcases exec_outcomes i s hw with ⟨hlong, _⟩ | ⟨_, hun, _⟩ | ⟨_, _,
    hpolymod | hckgen | hckver | hconvert | hlutenc | hlutdec⟩
  · exact absurd hlong hlen
  · exact absurd hin hun
  · obtain ⟨_, _, _, ⟨_, hx⟩ | ⟨_, hx⟩⟩ := hpolymod <;> exact ⟨_, hx⟩
  · obtain ⟨_, _, _, _, _, _, _, _, ⟨_, hx⟩ | ⟨_, hx⟩⟩ := hckgen <;> exact ⟨_, hx⟩
  · obtain ⟨_, _, _, _, _, ⟨_, hx⟩ | ⟨_, hx⟩⟩ := hckver
    · exact ⟨_, hx⟩
    · split_ifs at hx <;> exact ⟨_, hx⟩
  · obtain ⟨_, _, _, _, _, _, ⟨_, hx⟩ | ⟨_, hx⟩ | ⟨_, _, _, hx⟩ | ⟨_, _, _, hx⟩⟩ := hconvert <;> exact ⟨_, hx⟩
  · obtain ⟨_, _, ⟨_, hx⟩ | ⟨_, hx⟩⟩ := hlutenc <;> exact ⟨_, hx⟩
  · obtain ⟨_, _, ⟨_, hx⟩ | ⟨_, _, hx⟩⟩ := hlutdec <;> exact ⟨_, hx⟩

theorem exec_unwritten (hlen : ¬ LengthTooLong i s) (hun : ¬ InputsWritten i s) :
    exec i s = raise .unwrittenEntry s := by
  rcases exec_outcomes i s hw with ⟨hlong, _⟩ | ⟨_, _, hx⟩ | ⟨_, hin, _⟩
  · exact absurd hlong hlen
  · exact hx
  · exact absurd hin hun

end

/-- Settles O14: too long a length completes with BAD_LENGTH, readable inputs complete with the command's own end, and
nothing else is left than an unwritten entry. -/
theorem commandCompletesExactlyWhenInputsWritten : Obligations.CommandCompletesExactlyWhenInputsWritten := by
  refine fun i s hw => ⟨fun h => ?_, fun hlen hun => exec_unwritten hw hlen hun⟩
  by_cases hlong : LengthTooLong i s
  · exact ⟨_, exec_of_lengthTooLong hw hlong⟩
  · exact exec_completes_of_inputsWritten hw hlong (h.resolve_left hlong)

/-- Settles O31: an unfaulted step goes on or raises a protocol fault; a completion step that stops ran a legal command,
which would have completed with its inputs written. -/
theorem engineStopsOnlyOnUnwrittenInput : Obligations.EngineStopsOnlyOnUnwrittenInput := by
  refine ⟨fun s r h => ?_, fun s w f hd h => ?_⟩
  · cases hf : s.faulted with
    | true =>
      rw [step_faulted hf] at h
      cases h
    | false =>
      rcases step_stops hf with ⟨t, ht⟩ | ⟨x, hx⟩
      · rw [ht] at h
        cases h
      · exact raise_ne_refused (hx.symm.trans h)
  · rw [step_due hd] at h
    cases hdec : decode w with
    | error r =>
      rw [engineComplete_error hdec] at h
      exact absurd h finish_ne_fault
    | ok i =>
      obtain ⟨_, hw⟩ := decodedWordEncodesBack w i hdec
      rw [engineComplete_ok hdec] at h
      have hstop (t : State) : exec i s ≠ .next t := by
        rw [h]
        exact nofun
      refine ⟨?_, i, rfl, fun hin => ?_⟩
      · obtain ⟨t, ht⟩ | hx := exec_stops i s
        · exact absurd ht (hstop t)
        · exact (raise_eq_fault.1 (hx.symm.trans h)).symm
      · obtain ⟨t, ht⟩ := (commandCompletesExactlyWhenInputsWritten i s hw).1 (.inr hin)
        exact hstop t ht

/-! ### When a value is refused (R247 points 3 and 4) -/

theorem not_allSymbols_iff {vals : List Byte} : ¬ AllSymbols vals ↔ ∃ v ∈ vals, 31 < v.toNat := by
  simp [AllSymbols]

/-- The code that a finishing command reports. -/
theorem exec_reports_iff {i : Instr} {s u : State} {code c : ErrCode} (hx : exec i s = finish code u) :
    (∃ t, exec i s = .next t ∧ t.err = c) ↔ code = c := by
  constructor
  · rintro ⟨t, ht, rfl⟩
    exact (err_of_exec_eq_finish ht hx).symm
  · rintro rfl
    exact ⟨_, hx, State.done_err u code⟩

section
variable {i : Instr} {s u : State} {vals : List Byte}

theorem exec_reports_invalidValue_of_not_allSymbols (ha : ¬ AllSymbols vals)
    (hx : exec i s = finish .invalidValue u) :
    (∃ t, exec i s = .next t ∧ t.err = .invalidValue) ↔ ∃ v ∈ vals, 31 < v.toNat :=
  iff_of_true ((exec_reports_iff hx).2 rfl) (not_allSymbols_iff.1 ha)

theorem exec_reports_invalidValue_of_allSymbols {code : ErrCode} (ha : AllSymbols vals)
    (hx : exec i s = finish code u) (hc : code ≠ .invalidValue) :
    (∃ t, exec i s = .next t ∧ t.err = .invalidValue) ↔ ∃ v ∈ vals, 31 < v.toNat :=
  iff_of_false (mt (exec_reports_iff hx).1 hc) fun hv => not_allSymbols_iff.2 hv ha

end

/-- Settles O16: an unwritten entry is met before any value is looked at; with every entry read, each command's outcome
says by its own check whether a value was refused. -/
theorem valuesAreCheckedAfterReading : Obligations.ValuesAreCheckedAfterReading := by
  refine fun i s hw hr hlen => ⟨fun hun => exec_unwritten hw hlen fun hin => hun (hin.2 hr), fun vals hl hb hin => ?_⟩
  have hvals {vals' : List Byte} (h : s.valueInput = some vals') : vals' = vals :=
    Option.some.inj (h.symm.trans (State.valueInput_eq_some.2 ⟨hl, hb⟩))
  rcases exec_outcomes i s hw with ⟨hlong, _⟩ | ⟨_, hun, _⟩ | ⟨_, _,
    ⟨rfl, vals', hv, h⟩ | ⟨enc, k, rfl, _, _, vals', _, hv, h⟩ | ⟨rfl, _, vals', _, hv, h⟩ |
    ⟨f, t, pad, rfl, vals', hv, h⟩ | ⟨v, rfl, _⟩ | ⟨ch, rfl, _⟩⟩
  · exact absurd hlong hlen
  · exact absurd hin hun
  · obtain rfl := hvals hv
    rcases h with ⟨ha, hx⟩ | ⟨ha, hx⟩
    · exact exec_reports_invalidValue_of_not_allSymbols ha hx
    · exact exec_reports_invalidValue_of_allSymbols ha hx nofun
  · obtain rfl := hvals hv
    rcases h with ⟨ha, hx⟩ | ⟨ha, hx⟩
    · exact exec_reports_invalidValue_of_not_allSymbols ha hx
    · exact exec_reports_invalidValue_of_allSymbols ha hx nofun
  · obtain rfl := hvals hv
    rcases h with ⟨ha, hx⟩ | ⟨ha, hx⟩
    · exact exec_reports_invalidValue_of_not_allSymbols ha hx
    · split_ifs at hx <;> exact exec_reports_invalidValue_of_allSymbols ha hx nofun
  · obtain rfl := hvals hv
    rcases h with ⟨hc, hx⟩ | ⟨hc, hx⟩ | ⟨_, hc, _, hx⟩ | ⟨_, hc, _, hx⟩ <;>
      rw [exec_reports_iff hx, ← convertBits_eq_invalidValue, hc] <;> simp
  · exact absurd hr Bool.false_ne_true
  · exact absurd hr Bool.false_ne_true

end Sys2Proof.Machine
end

section
/-! PROOF. What commands and steps leave unchanged (10_state.md sections 3, 4 and 6): the frame of a command, and who
may change VARIANT and the inputs. -/

namespace Sys2Proof.Machine

/-! ### The frame of a command -/

section
variable {i : Instr} {s t : State} (h : exec i s = .next t)
include h

/-- The registers outside its own results that a completed command keeps. -/
theorem exec_keeps_registers :
    t.hlen = s.hlen ∧ t.vlen = s.vlen ∧ t.rdata = s.rdata ∧ t.issued = s.issued ∧
      (i ≠ .ckver → t.variant = s.variant) ∧
      (i ≠ .polymod → i ≠ .ckver → (∀ enc, i ≠ .ckgen enc) → t.acc = s.acc) ∧
      ((∀ v, i ≠ .lutenc v) → (∀ ch, i ≠ .lutdec ch) → t.lutr = s.lutr) := by
  rcases exec_cases i s with hx | ⟨_, _, _, hx⟩ | ⟨rfl, u, hu, hx⟩ | ⟨rfl, _, hx⟩ | ⟨enc, _, rfl, hx⟩ |
    ⟨rfl, _, _, hx⟩ | ⟨_, _, _, _, _, _, hx⟩ | ⟨_, hi, hx⟩ <;> rw [hx] at h
  · exact absurd h raise_ne_next
  all_goals obtain rfl := finish_eq_next.1 h
  · exact ⟨rfl, rfl, rfl, rfl, fun _ => rfl, fun _ _ _ => rfl, fun _ _ => rfl⟩
  · obtain ⟨rfl, _⟩ | ⟨_, rfl, _⟩ := hu <;>
      exact ⟨rfl, rfl, rfl, rfl, fun hi => absurd rfl hi, fun _ hi => absurd rfl hi, fun _ _ => rfl⟩
  · exact ⟨rfl, rfl, rfl, rfl, fun _ => rfl, fun hi => absurd rfl hi, fun _ _ => rfl⟩
  · exact ⟨rfl, rfl, rfl, rfl, fun _ => rfl, fun _ _ hi => absurd rfl (hi enc), fun _ _ => rfl⟩
  · exact ⟨rfl, rfl, rfl, rfl, fun hi => absurd rfl hi, fun _ hi => absurd rfl hi, fun _ _ => rfl⟩
  · exact ⟨rfl, rfl, rfl, rfl, fun _ => rfl, fun _ _ _ => rfl, fun _ _ => rfl⟩
  · refine ⟨rfl, rfl, rfl, rfl, fun _ => rfl, fun _ _ _ => rfl, fun henc hdec => ?_⟩
    rcases hi with ⟨v, rfl, _⟩ | ⟨ch, _, rfl, _⟩
    · exact absurd rfl (henc v)
    · exact absurd rfl (hdec ch)

/-- A completed command keeps the memory and OLEN, or is a CKGEN or CONVERT with result OK that stores its output. -/
theorem exec_memory :
    (t.mem = s.mem ∧ t.olen = s.olen) ∨
      (((∃ enc, i = .ckgen enc) ∨ ∃ f g pad, i = .convert f g pad) ∧ t.err = .ok ∧
        ∃ out : List Byte, out.length ≤ 256 ∧ t.mem = (s.setOutput out).mem ∧ t.olen = (s.setOutput out).olen) := by
  rcases exec_cases i s with hx | ⟨_, _, _, hx⟩ | ⟨_, u, hu, hx⟩ | ⟨_, _, hx⟩ | ⟨enc, word, hi, hx⟩ |
    ⟨_, _, _, hx⟩ | ⟨f, g, pad, out, hi, hl, hx⟩ | ⟨_, _, hx⟩ <;> rw [hx] at h
  · exact absurd h raise_ne_next
  all_goals obtain rfl := finish_eq_next.1 h
  · exact .inl ⟨rfl, rfl⟩
  · obtain ⟨rfl, _⟩ | ⟨_, rfl, _⟩ := hu <;> exact .inl ⟨rfl, rfl⟩
  · exact .inl ⟨rfl, rfl⟩
  · exact .inr ⟨.inl ⟨enc, hi⟩, rfl, _, by simp, rfl, rfl⟩
  · exact .inl ⟨rfl, rfl⟩
  · exact .inr ⟨.inr ⟨f, g, pad, hi⟩, rfl, out, hl, rfl, rfl⟩
  · exact .inl ⟨rfl, rfl⟩

/-- The bytes that a completed command may change are those of OBUF[0..OLEN). -/
theorem exec_readByte_other {a : Nat} (ha : ∀ k < t.olen.toNat, a ≠ entryAddr .obuf k) :
    t.readByte a = s.readByte a := by
  obtain ⟨hm, _⟩ | ⟨_, _, out, hl, hm, ho⟩ := exec_memory h
  · exact congrArg (Memory.read · a) hm
  · rw [ho, State.setOutput_olen_toNat s hl] at ha
    exact (congrArg (Memory.read · a) hm).trans (State.readByte_setOutput_other s ha)

/-- HBUF and VBUF lie below OBUF, so a completed command keeps their entries. -/
theorem exec_keeps_entry {b : Buf} (hb : b ≠ .obuf) {k : Nat} (hk : k < 256) : t.entry b k = s.entry b k := by
  refine exec_readByte_other h fun j _ heq => ?_
  have hge := entryAddr_obuf_ge j
  rw [← heq] at hge
  cases b with
  | obuf => exact hb rfl
  | hbuf | vbuf =>
    simp only [entryAddr, Buf.base] at hge
    omega

end

/-- Settles O18: the registers by `exec_keeps_registers`, the memory by `exec_memory`. -/
theorem commandFrame : Obligations.CommandFrame := by
  intro i s t h
  obtain ⟨hhost, _, hpcmd, hfaulted⟩ := exec_keeps_host i h
  obtain ⟨hhlen, hvlen, hrdata, hissued, hvariant, hacc, hlutr⟩ := exec_keeps_registers h
  refine ⟨hpcmd, hhlen, hvlen, hfaulted, hhost, hrdata, hissued, hvariant, hacc, hlutr, fun hgen hconv => ?_,
    fun a ha => exec_readByte_other h ha, fun herr a => ?_⟩ <;>
    obtain ⟨hm, ho⟩ | ⟨hi, hok, _⟩ := exec_memory h
  · exact ⟨ho, fun a => congrArg (Memory.read · a) hm⟩
  · obtain ⟨enc, hi⟩ | ⟨f, g, pad, hi⟩ := hi
    · exact absurd hi (hgen enc)
    · exact absurd hi (hconv f g pad)
  · exact congrArg (Memory.read · a) hm
  · exact absurd hok herr

/-! ### Who changes VARIANT -/

@[simp] theorem writeReg_variant (r : Reg) (w : Word) (s : State) : (writeReg r w s).variant = s.variant := by
  cases r <;> rfl

@[simp] theorem writeBuf_variant (b : Buf) (i : Nat) (w : Word) (s : State) :
    (writeBuf b i w s).variant = s.variant := by
  cases b <;> rfl

theorem hostStep_keeps_variant {op : HostOp} {s t : State} (h : hostStep op s = .next t) (hop : op ≠ .reset) :
    t.variant = s.variant := by
  rcases hostStep_cases h with ⟨_, _, _, _, rfl⟩ | ⟨_, _, _, _, _, _, rfl⟩ | ⟨_, _, _, _, _, _, _, rfl⟩ |
    ⟨_, _, rfl⟩ | ⟨_, _, rfl⟩ | ⟨hr, _⟩
  iterate 5 simp
  exact absurd hr hop

/-- A command that changes VARIANT is CKVER with one of the two codes that report a comparison (R26, R160). -/
theorem exec_changes_variant {i : Instr} {s t : State} (h : exec i s = .next t) (hv : t.variant ≠ s.variant) :
    i = .ckver ∧ (t.err = .ok ∨ t.err = .checksumMismatch) := by
  obtain ⟨_, _, _, _, hkeep, _⟩ := exec_keeps_registers h
  have hi : i = .ckver := by
    by_contra hne
    exact hv (hkeep hne)
  refine ⟨hi, ?_⟩
  by_contra hcode
  obtain ⟨hok, hmismatch⟩ := not_or.1 hcode
  have hfail := (failureChangesOnlyStatus i s t h hok).1 fun hm => hmismatch hm.2
  exact hv (by rw [hfail])

/-- Settles O19: a due illegal word keeps VARIANT, a due command changes it as CKVER alone, and of the host's operations
only the reset does. -/
theorem onlyCkverOrResetChangesVariant : Obligations.OnlyCkverOrResetChangesVariant := by
  intro s t h hv
  obtain ⟨_, ⟨w, ⟨_, hp, _⟩, he⟩ | ⟨_, _, rfl⟩ | ⟨op, rest, hh, _, ho⟩⟩ := step_cases h
  · left
    cases hd : decode w with
    | error r =>
      rw [engineComplete_error hd, finish_eq_next] at he
      exact absurd (he ▸ State.done_variant s _) hv
    | ok i =>
      rw [engineComplete_ok hd] at he
      obtain ⟨rfl, hcode⟩ := exec_changes_variant he hv
      obtain ⟨_, _, hpcmd, _⟩ := exec_keeps_host _ he
      exact ⟨w, hp, hd, hpcmd, hcode⟩
  · exact absurd rfl hv
  · right
    by_cases hop : op = .reset
    · exact ⟨rest, hop ▸ hh⟩
    · exact absurd (hostStep_keeps_variant ho hop) hv

/-! ### Who changes the inputs -/

/-- The input lengths and every entry of HBUF and VBUF are the same in both states. -/
structure InputsKept (s t : State) : Prop where
  hlen : t.hlen = s.hlen
  vlen : t.vlen = s.vlen
  entry : ∀ b ≠ Buf.obuf, ∀ k < 256, t.entry b k = s.entry b k

theorem InputsKept.of_same_memory {s t : State} (hh : t.hlen = s.hlen) (hv : t.vlen = s.vlen) (hm : t.mem = s.mem) :
    InputsKept s t :=
  ⟨hh, hv, fun b _ k _ => State.entry_congr hm b k⟩

theorem engineComplete_keeps_inputs {w : Word} {s t : State} (h : engineComplete w s = .next t) : InputsKept s t := by
  cases hd : decode w with
  | error r =>
    rw [engineComplete_error hd, finish_eq_next] at h
    exact h ▸ .of_same_memory rfl rfl rfl
  | ok i =>
    rw [engineComplete_ok hd] at h
    obtain ⟨hh, hv, _⟩ := exec_keeps_registers h
    exact ⟨hh, hv, fun b hb k hk => exec_keeps_entry h hb hk⟩

/-- Settles O20: the engine keeps the inputs, and of the host's operations so do the read and the poll. -/
theorem onlyTheHostChangesInputs : Obligations.OnlyTheHostChangesInputs := by
  intro s t h hchange
  have changed (hk : InputsKept s t) : False := by
    rcases hchange with hne | hne | ⟨k, hk256, hne⟩ | ⟨k, hk256, hne⟩
    · exact hne hk.hlen
    · exact hne hk.vlen
    · exact hne (hk.entry .hbuf nofun k hk256)
    · exact hne (hk.entry .vbuf nofun k hk256)
  obtain ⟨_, ⟨w, _, he⟩ | ⟨_, _, rfl⟩ | ⟨op, rest, hh, _, ho⟩⟩ := step_cases h
  · exact (changed (engineComplete_keeps_inputs he)).elim
  · exact (changed (.of_same_memory rfl rfl rfl)).elim
  · rcases hostStep_cases ho with ⟨_, _, _, _, rfl⟩ | ⟨a, w, _, rfl, hp, _⟩ | ⟨a, w, _, _, rfl, hp, _⟩ |
      ⟨_, _, rfl⟩ | ⟨_, _, rfl⟩ | ⟨rfl, _⟩
    · exact (changed (.of_same_memory rfl rfl rfl)).elim
    · exact .inl ⟨a, w, rest, hh, hp⟩
    · exact .inl ⟨a, w, rest, hh, hp⟩
    · exact (changed (.of_same_memory rfl rfl rfl)).elim
    · exact (changed (.of_same_memory rfl rfl rfl)).elim
    · exact .inr ⟨rest, hh⟩

end Sys2Proof.Machine
end

section
/-! PROOF. A command's result depends only on the lengths and entries it reads (41_polymod.md section 2, 42_checksum.md
section 2, 43_regroup.md section 2): two runs of one command on states that agree on those. -/

namespace Sys2Proof.Machine

/-! ### Equal entries are equal inputs -/

theorem Memory.readEntries_congr {m m' : Memory} {b : Buf} {i n : Nat}
    (h : ∀ k < n, m.read (entryAddr b (i + k)) = m'.read (entryAddr b (i + k))) :
    m.readEntries b i n = m'.readEntries b i n := by
  induction n generalizing i with
  | zero => rfl
  | succ n ih =>
    have h0 : m.read (entryAddr b i) = m'.read (entryAddr b i) := h 0 (Nat.succ_pos n)
    have hrest : m.readEntries b (i + 1) n = m'.readEntries b (i + 1) n := ih fun k hk => by
      have hnext := h (k + 1) (Nat.succ_lt_succ hk)
      rwa [show i + (k + 1) = i + 1 + k by omega] at hnext
    rw [Memory.readEntries, Memory.readEntries, h0, hrest]

theorem State.hrpInput_congr {s s' : State} (hlen : s.hlen = s'.hlen)
    (h : ∀ k < s.hlen.toNat, s.entry .hbuf k = s'.entry .hbuf k) : s.hrpInput = s'.hrpInput := by
  rw [State.hrpInput, State.hrpInput, ← hlen]
  exact Memory.readEntries_congr fun k hk => by rw [Nat.zero_add]; exact h k hk

theorem State.valueInput_congr {s s' : State} (hlen : s.vlen = s'.vlen)
    (h : ∀ k < s.vlen.toNat, s.entry .vbuf k = s'.entry .vbuf k) : s.valueInput = s'.valueInput := by
  rw [State.valueInput, State.valueInput, ← hlen]
  exact Memory.readEntries_congr fun k hk => by rw [Nat.zero_add]; exact h k hk

/-! ### Answers with the same results -/

/-- Two states show the same code and, with OK, the same results of command `i`. -/
abbrev SameResults (i : Instr) (t t' : State) : Prop :=
  t.err = t'.err ∧ (i = .ckver → t.err = .ok → t.variant = t'.variant) ∧
  (t.err = .ok → i = .polymod ∨ i = .ckver ∨ (∃ enc, i = .ckgen enc) → t.acc = t'.acc) ∧
  (t.err = .ok → (∃ v, i = .lutenc v) ∨ (∃ ch, i = .lutdec ch) → t.lutr = t'.lutr) ∧
  (t.err = .ok → (∃ enc, i = .ckgen enc) ∨ (∃ f g pad, i = .convert f g pad) →
    t.olen = t'.olen ∧ ∀ k < t.olen.toNat, t.entry .obuf k = t'.entry .obuf k)

/-- Two answers that agree wherever both complete. -/
def SameAnswer (i : Instr) (x x' : Result) : Prop :=
  ∀ t t', x = .next t → x' = .next t' → SameResults i t t'

theorem sameAnswer_raise {i : Instr} {r r' : ProtocolReason} {s s' : State} :
    SameAnswer i (raise r s) (raise r' s') :=
  fun _ _ h => absurd h raise_ne_next

theorem sameAnswer_finish {i : Instr} {code : ErrCode} {u u' : State}
    (h : SameResults i (u.done code) (u'.done code)) : SameAnswer i (finish code u) (finish code u') := by
  intro t t' ht ht'
  rwa [← finish_eq_next.1 ht, ← finish_eq_next.1 ht']

theorem sameAnswer_failed {i : Instr} {code : ErrCode} {u u' : State} (hc : code ≠ .ok) :
    SameAnswer i (finish code u) (finish code u') :=
  sameAnswer_finish ⟨rfl, fun _ hok => absurd hok hc, fun hok => absurd hok hc, fun hok => absurd hok hc,
    fun hok => absurd hok hc⟩

/-- An output of a command stands in OBUF[0..OLEN) whatever was there before. -/
theorem sameOutput_setOutput (s s' : State) (out : List Byte) :
    (s.setOutput out).olen = (s'.setOutput out).olen ∧
      ∀ k < (s.setOutput out).olen.toNat, (s.setOutput out).entry .obuf k = (s'.setOutput out).entry .obuf k := by
  refine ⟨rfl, fun k hk => ?_⟩
  have hlt : k < out.length := hk.trans_le ((BitVec.toNat_ofNat ..).trans_le (Nat.mod_le _ _))
  rw [State.entry_setOutput s hlt, State.entry_setOutput s' hlt]

/-! ### Each command on equal inputs -/

section
variable {s s' : State}

theorem execPolymod_sameAnswer (hlen : s.vlen = s'.vlen) (hin : s.valueInput = s'.valueInput) :
    SameAnswer .polymod (execPolymod s) (execPolymod s') := by
  simp only [execPolymod, ← hlen, ← hin]
  split
  · exact sameAnswer_failed (by decide)
  split
  · exact sameAnswer_raise
  split
  · exact sameAnswer_failed (by decide)
  · exact sameAnswer_finish ⟨rfl, nofun, fun _ _ => rfl, by simp, by simp⟩

/-- The input stage hands equal inputs on. -/
theorem withChecksumInput_sameAnswer {i : Instr} {k k' : List Byte → List Symbol → Result}
    (hlen : s.hlen = s'.hlen) (vlen : s.vlen = s'.vlen) (hin : s.hrpInput = s'.hrpInput)
    (vin : s.valueInput = s'.valueInput) (hk : ∀ h d, SameAnswer i (k h d) (k' h d)) :
    SameAnswer i (withChecksumInput s k) (withChecksumInput s' k') := by
  simp only [withChecksumInput, ← hlen, ← vlen, ← hin, ← vin]
  split
  · exact sameAnswer_failed (by decide)
  split
  · split
    · exact sameAnswer_failed (by decide)
    · exact hk _ _
  · exact sameAnswer_raise

theorem execConvert_sameAnswer {f g : BitVec 4} {pad : Bool} (hlen : s.vlen = s'.vlen)
    (hin : s.valueInput = s'.valueInput) :
    SameAnswer (.convert f g pad) (execConvert f g pad s) (execConvert f g pad s') := by
  simp only [execConvert, ← hlen, ← hin]
  split
  · exact sameAnswer_failed (by decide)
  split
  · exact sameAnswer_failed (by decide)
  split
  · exact sameAnswer_raise
  split
  · exact sameAnswer_failed (by decide)
  · exact sameAnswer_failed (by decide)
  · rw [storeRegrouped, storeRegrouped]
    split
    · exact sameAnswer_failed (by decide)
    · exact sameAnswer_finish ⟨rfl, nofun, by simp, by simp, fun _ _ => sameOutput_setOutput s s' _⟩

end

theorem exec_sameAnswer {i : Instr} {s s' : State} (h : SameInputs i s s') : SameAnswer i (exec i s) (exec i s') := by
  have hvals (hr : i.readsValues = true) : s.vlen = s'.vlen ∧ s.valueInput = s'.valueInput :=
    ⟨(h.2 hr).1, State.valueInput_congr (h.2 hr).1 (h.2 hr).2⟩
  have hhrp (hr : i.readsHrp = true) : s.hlen = s'.hlen ∧ s.hrpInput = s'.hrpInput :=
    ⟨(h.1 hr).1, State.hrpInput_congr (h.1 hr).1 (h.1 hr).2⟩
  cases i with
  | polymod =>
    obtain ⟨hlen, hin⟩ := hvals rfl
    exact execPolymod_sameAnswer hlen hin
  | ckgen enc =>
    obtain ⟨vlen, vin⟩ := hvals rfl
    obtain ⟨hlen, hin⟩ := hhrp rfl
    simp only [exec, execCkgen]
    split
    · exact sameAnswer_failed (by decide)
    · refine withChecksumInput_sameAnswer hlen vlen hin vin fun hr d => ?_
      exact sameAnswer_finish ⟨rfl, nofun, fun _ _ => rfl, by simp, fun _ _ => sameOutput_setOutput s s' _⟩
  | ckver =>
    obtain ⟨vlen, vin⟩ := hvals rfl
    obtain ⟨hlen, hin⟩ := hhrp rfl
    simp only [exec, execCkver_eq]
    refine withChecksumInput_sameAnswer hlen vlen hin vin fun hr d => ?_
    split
    · exact sameAnswer_failed (by decide)
    split
    · exact sameAnswer_failed (by decide)
    · exact sameAnswer_finish ⟨rfl, fun _ _ => rfl, fun _ _ => rfl, by simp, by simp⟩
  | convert f g pad =>
    obtain ⟨hlen, hin⟩ := hvals rfl
    exact execConvert_sameAnswer hlen hin
  | lutenc v =>
    simp only [exec, execLutenc]
    split
    · exact sameAnswer_failed (by decide)
    · exact sameAnswer_finish ⟨rfl, nofun, by simp, fun _ _ => rfl, by simp⟩
  | lutdec ch =>
    simp only [exec, execLutdec]
    split
    · exact sameAnswer_failed (by decide)
    · exact sameAnswer_finish ⟨rfl, nofun, by simp, fun _ _ => rfl, by simp⟩

/-- Settles O21: each command answers alike on states that agree on what it reads. -/
theorem resultDependsOnlyOnInputs : Obligations.ResultDependsOnlyOnInputs :=
  fun _ _ _ _ _ hin h h' => exec_sameAnswer hin _ _ h h'

end Sys2Proof.Machine
end

section
/-! PROOF. The step and the host window: the schedule (60_exceptions.md section 2), STATUS and the reset state
(10_state.md sections 3 and 7), and what a transaction does (20_memory.md sections 1 and 3). -/

namespace Sys2Proof.Machine

/-! ### The schedule, the reset state and STATUS -/

/-- Settles O5: the step's own laws, one for each case of whose turn it is. -/
theorem stepRunsDecodedCommandOrHost : Obligations.StepRunsDecodedCommandOrHost :=
  ⟨fun s _ _ hd hi => (step_due hd).trans (engineComplete_ok hi s), fun _ _ _ _ hf _ hw hh => step_host hf hh (.inr hw),
    fun _ _ _ hs hh => step_host hs.1 hh (.inl hs.2), fun _ hs hh => step_idle hs hh⟩

/-- Settles O7: the reset state is what a reset event leaves of itself, and a step of it is idle. -/
theorem resetStateIsIdleAndWaits : Obligations.ResetStateIsIdleAndWaits :=
  ⟨State.reset.resetEvent_statusWord, rfl, rfl, rfl, rfl, rfl, rfl, State.reset.resetEvent_entry,
    step_idle ⟨rfl, rfl⟩ rfl⟩

theorem ErrCode.code_toNat_le (c : ErrCode) : c.code.toNat ≤ 6 := by cases c <;> decide

theorem Variant.code_toNat_le (v : Variant) : v.code.toNat ≤ 2 := by cases v <;> decide

/-- BUSY as a number: a command is pending (R38). -/
theorem State.busy_toNat (s : State) : s.busy.toNat = if s.pcmd = none then 0 else 1 := by
  cases h : s.pcmd <;> simp [State.busy, h]

/-- Settles O23: the number of the STATUS word, with BUSY as PCMD's state, and the tables of the codes. -/
theorem statusWordFields : Obligations.StatusWordFields :=
  ⟨fun s => ⟨by rw [statusWord_toNat, State.busy_toNat], s.err.code_toNat_le, Variant.code_toNat_le s.variant⟩,
    by decide, by decide⟩

/-! ### Transactions that fault -/

section
variable {s : State} {a : Offset} {width : Nat} {w : Word} {rest : List HostOp} {r : ProtocolReason}

/-- A host read that the bus refuses, with no completion due. -/
theorem step_read_error (hf : s.faulted = false) (hp : s.pcmd = none ∨ s.wait ≠ 0)
    (hh : s.host = .read a width :: rest) (hb : busRead a width s = .error r) : step s = raise r s := by
  rw [step_host hf hh hp]
  simp only [hostStep, hb]

/-- A host write that the bus refuses, with no completion due. -/
theorem step_write_error (hf : s.faulted = false) (hp : s.pcmd = none ∨ s.wait ≠ 0)
    (hh : s.host = .write a width w :: rest) (hb : busWrite a width w s.advance = .error r) : step s = raise r s := by
  rw [step_host hf hh hp]
  simp only [hostStep, hb]

end

/-- Settles O28: the bus refuses either transaction by its width or offset, or because its word is unmapped. -/
theorem badOrUnmappedAccessFaults : Obligations.BadOrUnmappedAccessFaults := by
  refine fun s a width rest hs hh => ⟨fun hbad => ?_, fun hwidth ha hlo hhi => ?_⟩
  · have hb : ¬ (width = 4 ∧ a.toNat % 4 = 0) := by omega
    rcases hh with hh | ⟨w, hh⟩
    · exact step_read_error hs.1 (.inl hs.2) hh (busRead_idle_bad hs.2 hb)
    · exact step_write_error hs.1 (.inl hs.2) hh (busWrite_idle_bad (s := s.advance) hs.2 hb)
  · subst hwidth
    have ht : target a = .unmapped := target_unmapped hlo hhi
    rcases hh with hh | ⟨w, hh⟩
    · exact step_read_error hs.1 (.inl hs.2) hh (by rw [busRead_idle hs.2 ha, ht])
    · exact step_write_error hs.1 (.inl hs.2) hh (by rw [busWrite_idle (s := s.advance) hs.2 ha, ht])

/-- Settles O29: with a command pending the bus allows the STATUS read alone. -/
theorem onlyStatusReadsWhileBusy : Obligations.OnlyStatusReadsWhileBusy := by
  intro s c hf hc hw
  have hp : s.pcmd ≠ none := by simp [hc]
  refine ⟨fun a width rest hh => ⟨?_, fun hother => ?_⟩, fun a width w rest hh => step_write_busy hf hp hw hh⟩
  · rintro ⟨rfl, rfl⟩
    rw [step_host hf hh (.inr hw)]
    have hb : busRead 0x004 4 s = .ok s.statusWord := (busRead_busy hp).trans (if_pos ⟨rfl, rfl⟩)
    simp only [hostStep, hb]
    rw [State.advance_eq hh]
    rfl
  · exact step_read_error hf (.inr hw) hh ((busRead_busy hp).trans (if_neg fun h => hother ⟨h.2, h.1⟩))

/-! ### Reads and the entry written -/

/-- Settles O32: a read takes its operation off the host's list, a poll may leave it there, and both set nothing else
but the word returned and the wait. -/
theorem readsHaveNoSideEffects : Obligations.ReadsHaveNoSideEffects := by
  intro s t rest hp hread h
  obtain ⟨hf, _⟩ := step_cases h
  rcases hread with ⟨a, width, hh⟩ | hh <;> rw [step_host hf hh hp] at h
  · obtain ⟨_, _, w, _, rfl⟩ : ∃ a' width' w, HostOp.read a width = .read a' width' ∧ t = s.advance.setRdata w := by
      simpa using hostStep_cases h
    rw [State.advance_eq hh]
    exact ⟨rfl, .inl rfl⟩
  · obtain ⟨_, rfl⟩ | ⟨_, rfl⟩ : (s.pcmd ≠ none ∧ t = s.pollAgain.setRdata s.statusWord) ∨
        (s.pcmd = none ∧ t = s.advance.setRdata s.statusWord) := by
      simpa using hostStep_cases h
    · exact ⟨rfl, .inr rfl⟩
    · rw [State.advance_eq hh]
      exact ⟨rfl, .inl rfl⟩

/-- A host read of a written entry goes on and returns it (R64). -/
theorem step_read_written {s : State} {a : Offset} {rest : List HostOp} {b : Buf} {i : Nat} {v : Byte} (hs : Ready s)
    (hh : s.host = .read a 4 :: rest) (hi : i < 256) (ha : a.toNat = entryAddr b i) (hv : s.entry b i = some v) :
    step s = .next (s.advance.setRdata (v.setWidth 32)) := by
  rw [step_read_entry hs hh hi ha, hv]

/-- Settles O35: the invariant makes the entry written, and a written entry reads. -/
theorem resultEntriesAreReadable : Obligations.ResultEntriesAreReadable := by
  intro s k a rest hinv hs hk ha hh
  obtain ⟨v, hv⟩ := Option.isSome_iff_exists.1 (hinv.outputWritten k hk)
  exact ⟨_, v, step_read_written hs hh (hk.trans_le hinv.outputLength) ha hv, hv, rfl⟩

/-- Settles O27: the first step is the memory write of one entry; the second reads that entry, or another one, which the
write has left as it was. -/
theorem writtenEntryReadsBack : Obligations.WrittenEntryReadsBack := by
  intro s b b' i j a a' w rest hi hj hb ha ha' hs hh
  have hwrite := step_write_entry hs hh hi ha
  rw [writeBuf_eq_setEntry hb] at hwrite
  set s1 := s.advance.setEntry b i (w.extractLsb' 0 8)
  have hs1 : Ready s1 := hs
  have hh1 : s1.host = .read a' 4 :: rest := by simp [s1, hh]
  have read {v : Byte} (hv : s1.entry b' j = some v) :
      ∃ t, runSteps 2 s = .next t ∧ t.rdata = some (v.setWidth 32) := by
    refine ⟨s1.advance.setRdata (v.setWidth 32), ?_, rfl⟩
    rw [runSteps_succ hwrite, runSteps_succ (step_read_written hs1 hh1 hj ha' hv), runSteps_zero]
  refine ⟨?_, fun hother v hv => ?_⟩
  · rintro ⟨rfl, rfl⟩
    exact read (State.entry_setEntry_same ..)
  · have hne : entryAddr b' j ≠ entryAddr b i :=
      entryAddr_ne hj hi ((not_and_or.1 hother).imp Ne.symm Ne.symm)
    exact read ((State.readByte_setEntry_other s.advance _ hne).trans hv)

end Sys2Proof.Machine
end

section
/-! PROOF. Issue and poll (30_encoding.md section 4, 70_reset_and_hazards.md section 2): how long a polled command
takes, and that a host which wrote every input meets no fault. -/

namespace Sys2Proof.Machine

/-- A poll that finds BUSY = 0 is done (R102). -/
theorem step_poll_idle {s : State} {rest : List HostOp} (hs : Ready s) (hh : s.host = .poll :: rest) :
    step s = .next (s.advance.setRdata s.statusWord) := by
  rw [step_host hs.1 hh (.inl hs.2)]
  simp only [hostStep, busyBit_statusWord, State.busy_eq_false.2 hs.2, Bool.false_eq_true, if_false]

/-- A poll that finds BUSY = 1 stays (R102). -/
theorem step_poll_busy {s : State} {rest : List HostOp} (hf : s.faulted = false) (hp : s.pcmd ≠ none) (hw : s.wait ≠ 0)
    (hh : s.host = .poll :: rest) : step s = .next (s.pollAgain.setRdata s.statusWord) := by
  rw [step_host hf hh (.inr hw)]
  simp only [hostStep, busyBit_statusWord, State.busy_iff.2 hp, if_true]

/-- The completion step and the last read of a poll: two steps from a due command. -/
theorem runSteps_two_of_due {s t : State} {w : Word} {rest : List HostOp} (hd : Due s w) (hh : s.host = .poll :: rest)
    (h : engineComplete w s = .next t) : runSteps 2 s = .next { t with host := rest, rdata := some t.statusWord } := by
  obtain ⟨hhost, hwait, hpcmd, hfaulted⟩ := engineComplete_keeps_host w h
  have hht : t.host = .poll :: rest := hhost.trans hh
  rw [runSteps_succ ((step_due hd).trans h), runSteps_succ (step_poll_idle ⟨hfaulted.trans hd.1, hpcmd⟩ hht),
    runSteps_zero, State.advance_eq hht, hwait]
  rfl

/-- Settles O36: the CMD write latches the word with its LATENCY, as many reads of the poll bring the completion step
near, and two more steps complete the command and end the poll. -/
theorem polledCommandCompletesAfterLatency : Obligations.PolledCommandCompletesAfterLatency := by
  intro s w rest t hs hh h
  have hissue : step s = .next (s.advance.latch w) := step_write_reg hs (r := .cmd) hh
  have hh1 : (s.advance.latch w).host = .poll :: rest := by simp [hh]
  have hpoll := runSteps_poll (Config.latency s.issued) (s.advance.latch w) w rest hs.1 rfl hh1 rfl
  rw [show Config.latency s.issued + 3 = Config.latency s.issued + 2 + 1 from rfl, runSteps_succ hissue,
    runSteps_add hpoll]
  refine runSteps_two_of_due (w := w) ⟨hs.1, rfl, .inl rfl⟩ hh1 ?_
  rw [← h, State.advance_eq hh]
  rfl

/-! ### A polled command runs safely -/

/-- The phases of a host that issues command `i`, whose inputs are written, and polls. -/
inductive PolledRun (i : Instr) (s : State) : Prop
  | issuing (hs : Ready s) (hin : InputsWritten i s) (hh : s.host = issueOps (encode i))
  | waiting (hf : s.faulted = false) (hp : s.pcmd = some (encode i)) (hin : InputsWritten i s) (hh : s.host = [.poll])
  | completed (hs : Ready s) (hh : s.host = [.poll])
  | finished (hs : Ready s) (hh : s.host = [])

/-- Every phase goes on to a phase: the CMD write to the wait, a read of the poll to the wait again, the completion step
to the last read. -/
theorem PolledRun.step {i : Instr} {s : State} (hw : i.wellFormed = true) (h : PolledRun i s) :
    ∃ t, step s = .next t ∧ PolledRun i t := by
  cases h with
  | issuing hs hin hh =>
    exact ⟨s.advance.latch (encode i), step_write_reg hs (r := .cmd) hh,
      .waiting hs.1 rfl hin (congrArg List.tail hh)⟩
  | waiting hf hp hin hh =>
    by_cases hwait : s.wait = 0
    · obtain ⟨t, ht⟩ := (commandCompletesExactlyWhenInputsWritten i s hw).1 (.inr hin)
      have hd : Due s (encode i) := ⟨hf, hp, .inl hwait⟩
      obtain ⟨hhost, _, hpcmd, hfaulted⟩ := exec_keeps_host i ht
      refine ⟨t, ?_, .completed ⟨hfaulted.trans hf, hpcmd⟩ (hhost.trans hh)⟩
      rw [step_due hd, engineComplete_ok (decodeOfEncodeIsIdentity i hw), ht]
    · exact ⟨_, step_poll_busy hf (by simp [hp]) hwait hh, .waiting hf hp hin hh⟩
  | completed hs hh => exact ⟨_, step_poll_idle hs hh, .finished hs (congrArg List.tail hh)⟩
  | finished hs hh => exact ⟨s, step_idle hs hh, .finished hs hh⟩

theorem PolledRun.safeRun {i : Instr} (hw : i.wellFormed = true) (n : Nat) :
    ∀ {s : State}, PolledRun i s → SafeRun n s := by
  induction n with
  | zero => exact fun {s} _ => ⟨s, rfl⟩
  | succ n ih =>
    intro s h
    obtain ⟨t, ht, hnext⟩ := h.step hw
    rw [SafeRun, runSteps_succ ht]
    exact ih hnext

/-- Settles O37: the host starts in the first phase, and every phase goes on. -/
theorem polledCommandRunsSafely : Obligations.PolledCommandRunsSafely :=
  fun _ _ hw hs hin hh n => PolledRun.safeRun hw n (.issuing hs hin hh)

end Sys2Proof.Machine
end

section
/-! PROOF. The polymod's affine law (41_polymod.md R134) and what rests on it: a generated checksum verifies, as
functions and on the engine (42_checksum.md R156). Then LUTDEC as the inverse of LUTENC (40_alphabet.md R116). -/

namespace Sys2Proof.Machine

/-! ### The affine law -/

theorem zipWith_xor_zeros (l : List Symbol) : List.zipWith (· ^^^ ·) l (List.replicate l.length 0) = l := by
  induction l with
  | nil => rfl
  | cons v l ih => simpa [List.replicate_succ] using ih

/-- Two runs from the same accumulator differ by the run of the differences from 0. -/
theorem foldl_pmStep_xor_same {a b : List Symbol} (h : a.length = b.length) (c : Acc) :
    a.foldl pmStep c ^^^ b.foldl pmStep c = (List.zipWith (· ^^^ ·) a b).foldl pmStep 0 := by
  rw [foldl_pmStep_xor a b c c h, BitVec.xor_self]
  rfl

/-- Settles O39: both sides are the run of the elementwise exclusive or from 0. -/
theorem polymodIsAffine : Obligations.PolymodIsAffine := by
  intro a b h
  have hlen : (List.zipWith (· ^^^ ·) a b).length = a.length := by simp [h]
  have hzeros := zipWith_xor_zeros (List.zipWith (· ^^^ ·) a b)
  rw [hlen] at hzeros
  rw [polymod, polymod, polymod, polymod, foldl_pmStep_xor_same h, foldl_pmStep_xor_same (by simp [h]), hzeros]

/-! ### The run of six values from 0 -/

/-- Exclusive or of numbers without a common bit is their sum. -/
theorem shifted_xor_eq_add {a b : Nat} (hb : b < 2 ^ 5) : a * 2 ^ 5 ^^^ b = a * 2 ^ 5 + b := by
  have hmod : (a * 2 ^ 5 ^^^ b) % 2 ^ 5 = b := by
    rw [Nat.xor_mod_two_pow, Nat.mul_mod_left, Nat.zero_xor, Nat.mod_eq_of_lt hb]
  have hdiv : (a * 2 ^ 5 ^^^ b) / 2 ^ 5 = a := by
    rw [Nat.xor_div_two_pow, Nat.mul_div_cancel _ (by decide), Nat.div_eq_of_lt hb, Nat.xor_zero]
  have hdm := Nat.div_add_mod' (a * 2 ^ 5 ^^^ b) (2 ^ 5)
  rw [hmod, hdiv] at hdm
  exact hdm.symm

/-- While the top five bits are clear, a step only takes the value in. -/
theorem pmStep_toNat_of_lt {c : Acc} {v : Symbol} (hc : c.toNat < 2 ^ 25) :
    (pmStep c v).toNat = 32 * c.toNat + v.toNat := by
  have htop : c.extractLsb' 25 5 = 0 := BitVec.eq_of_toNat_eq (by rw [accTop_toNat, Nat.div_eq_of_lt hc]; rfl)
  have hred : reduction 0 = 0#30 := by decide
  rw [pmStep, htop, hred, BitVec.xor_zero, BitVec.toNat_xor, accShift_toNat, symbolAsAcc_toNat, Nat.mod_eq_of_lt hc,
    shifted_xor_eq_add v.isLt]
  omega

/-- As long as the accumulator has room for all values, a run reads them as digits to base 32. -/
theorem foldl_pmStep_toNat (vals : List Symbol) : ∀ {c : Acc}, (c.toNat + 1) * 32 ^ vals.length ≤ 2 ^ 30 →
    (vals.foldl pmStep c).toNat = vals.foldl (fun n v => 32 * n + v.toNat) c.toNat := by
  induction vals with
  | nil => exact fun _ => rfl
  | cons v vals ih =>
    intro c hroom
    have hv := v.isLt
    rw [List.length_cons, Nat.pow_succ', ← Nat.mul_assoc] at hroom
    have htop : (c.toNat + 1) * 32 ≤ 2 ^ 30 := (Nat.le_mul_of_pos_right _ (by positivity)).trans hroom
    have hstep : (pmStep c v).toNat = 32 * c.toNat + v.toNat := pmStep_toNat_of_lt (by omega)
    rw [List.foldl_cons, List.foldl_cons, ← hstep]
    refine ih ((Nat.mul_le_mul_right _ ?_).trans hroom)
    omega

/-- The groups of a checksum word, run from 0, are the word again (R153). -/
theorem foldl_pmStep_checksumGroups (word : Acc) : (checksumGroups word).foldl pmStep 0 = word := by
  apply BitVec.eq_of_toNat_eq
  have hpacked := packed_checksumGroups word
  rw [foldl_pmStep_toNat _ (by rw [checksumGroups_length]; decide), checksumGroups]
  simp only [List.range, List.range.loop, List.map_cons, List.map_nil, List.foldl_cons, List.foldl_nil,
    show (0 : Acc).toNat = 0 from rfl]
  omega

/-! ### Generator and verifier (R153, R154, R156) -/

theorem expand_append (h : List Byte) (d e : List Symbol) : expand h (d ++ e) = expand h d ++ e := by
  simp only [expand, List.append_assoc]

/-- With its checksum behind it, a sequence has the variant's constant as its polymod. -/
theorem polymod_expand_checksum (k : Acc) (h : List Byte) (d : List Symbol) :
    polymod (expand h (d ++ checksumGroups (checksumWord k h d))) = k := by
  set word := checksumWord k h d with hword
  have hsix : List.replicate (checksumGroups word).length (0 : Symbol) = List.replicate 6 0 := rfl
  have hdiff : polymod (expand h d ++ checksumGroups word) ^^^ polymod (expand h d ++ List.replicate 6 0) = word := by
    rw [polymod, polymod, List.foldl_append, List.foldl_append, foldl_pmStep_xor_same (by simp), ← hsix,
      zipWith_xor_zeros, foldl_pmStep_checksumGroups]
  rw [expand_append]
  refine (BitVec.xor_left_inj (polymod (expand h d ++ List.replicate 6 0))).1 (hdiff.trans (hword.trans ?_))
  rw [checksumWord, BitVec.xor_comm]

theorem matchVariant_of_constant {enc : Variant} {k : Acc} (h : checksumConstant enc = some k) :
    matchVariant k = enc := by
  obtain ⟨rfl, rfl⟩ | ⟨rfl, rfl⟩ := checksumConstant_eq_some.1 h
  · exact matchVariant_bech32
  · exact matchVariant_bech32m

/-- Settles O42: the polymod of what is verified is the variant's constant, which names the variant. -/
theorem verifierAcceptsGeneratedChecksum : Obligations.VerifierAcceptsGeneratedChecksum := by
  intro h d enc ck hck
  obtain ⟨k, hk, rfl⟩ := Option.map_eq_some_iff.1 hck
  rw [verifyChecksum, if_neg (by simp), polymod_expand_checksum, matchVariant_of_constant hk]

/-! ### On the engine -/

theorem checksumConstant_eq_none {enc : Variant} : checksumConstant enc = none ↔ enc = .invalid := by
  cases enc <;> simp [checksumConstant]

/-- What CKGEN with result OK has read and stored (R155). -/
theorem execCkgen_ok {enc : Variant} {s t : State} (h : execCkgen enc s = .next t) (hok : t.err = .ok) :
    ∃ k hrp vals, checksumConstant enc = some k ∧ s.hlen.toNat ≤ 256 ∧ s.hrpInput = some hrp ∧
      s.valueInput = some vals ∧ AllSymbols vals ∧
      t.mem = (s.setOutput (fromSymbols (checksumGroups (checksumWord k hrp (symbolsOf vals))))).mem := by
  have hcode {code : ErrCode} {u : State} (hx : execCkgen enc s = finish code u) : code = .ok :=
    (err_of_exec_eq_finish (i := .ckgen enc) h hx).symm.trans hok
  cases hk : checksumConstant enc with
  | none =>
    obtain rfl := checksumConstant_eq_none.1 hk
    exact nomatch hcode (execCkgen_invalid s)
  | some k =>
    have hx := execCkgen_of_constant hk s
    rcases withChecksumInput_cases s _ with ⟨hin, _⟩ | ⟨hin, _⟩ |
      ⟨hrp, vals, hh, _, hhrp, hvals, ⟨_, hin⟩ | ⟨ha, hin⟩⟩
    · exact nomatch hcode (hx.trans hin)
    · exact absurd ((hx.trans hin).symm.trans h) raise_ne_next
    · exact nomatch hcode (hx.trans hin)
    · obtain rfl := finish_eq_next.1 ((hx.trans hin).symm.trans h)
      exact ⟨k, hrp, vals, rfl, hh, hhrp, hvals, ha, rfl⟩

/-- CKVER on readable 5-bit values whose checksum names a variant (R160). -/
theorem execCkver_found {u : State} {hrp vals : List Byte} (hh : u.hlen.toNat ≤ 256) (hv : u.vlen.toNat ≤ 256)
    (hhrp : u.hrpInput = some hrp) (hvals : u.valueInput = some vals) (ha : AllSymbols vals)
    (hfound : verifyChecksum hrp (symbolsOf vals) ≠ .invalid) :
    execCkver u = finish .ok ((u.setAcc (polymod (expand hrp (symbolsOf vals)))).setVariant
      (verifyChecksum hrp (symbolsOf vals))) := by
  obtain ⟨hl, hb⟩ := State.hrpInput_eq_some.1 hhrp
  obtain ⟨vl, vb⟩ := State.valueInput_eq_some.1 hvals
  rw [execCkver_eq, withChecksumInput_symbols hh hv hl hb vl vb ha]
  unfold verifyChecksum at hfound ⊢
  split_ifs at hfound ⊢
  · exact absurd rfl hfound
  · exact absurd ‹_› hfound
  · rfl

/-- CKVER on readable 5-bit values whose checksum names no variant: only STATUS and ACC can change (R160). -/
theorem execCkver_mismatch {u : State} {hrp vals : List Byte} (hh : u.hlen.toNat ≤ 256) (hv : u.vlen.toNat ≤ 256)
    (hhrp : u.hrpInput = some hrp) (hvals : u.valueInput = some vals) (ha : AllSymbols vals)
    (hnone : verifyChecksum hrp (symbolsOf vals) = .invalid) :
    ∃ w, execCkver u = finish .checksumMismatch w := by
  obtain ⟨hl, hb⟩ := State.hrpInput_eq_some.1 hhrp
  obtain ⟨vl, vb⟩ := State.valueInput_eq_some.1 hvals
  rw [execCkver_eq, withChecksumInput_symbols hh hv hl hb vl vb ha]
  unfold verifyChecksum at hnone
  split_ifs at hnone ⊢ <;> exact ⟨_, rfl⟩

/-- A buffer that holds one sequence and behind it another holds the two together. -/
theorem loaded_append {s : State} {b : Buf} {x y : List Byte} (hx : Loaded s b x)
    (hy : ∀ i < y.length, s.entry b (x.length + i) = y[i]?) : Loaded s b (x ++ y) := by
  intro k hk
  rw [List.length_append] at hk
  by_cases hlt : k < x.length
  · rw [List.getElem?_append_left hlt, hx k hlt]
  · have hrest := hy (k - x.length) (by omega)
    rw [List.getElem?_append_right (by omega), ← hrest, Nat.add_sub_cancel' (by omega)]

theorem symbolsOf_append (x y : List Byte) : symbolsOf (x ++ y) = symbolsOf x ++ symbolsOf y := List.map_append

/-- Settles O43: CKVER reads the values and the six stored groups, whose checksum names CKGEN's variant. -/
theorem generatedChecksumVerifiesOnTheEngine : Obligations.GeneratedChecksumVerifiesOnTheEngine := by
  intro enc s t u h hok hhlen hhrp hvlen hv256 hvals hck
  obtain ⟨k, hrp, vals, hk, hh256, hhin, hvin, ha, hmem⟩ := execCkgen_ok h hok
  set groups := checksumGroups (checksumWord k hrp (symbolsOf vals)) with hgroups
  obtain ⟨vl, vb⟩ := State.valueInput_eq_some.1 hvin
  have hhu : u.hrpInput = some hrp := by
    rw [State.hrpInput_congr hhlen fun j hj => hhrp j (hhlen ▸ hj), hhin]
  have hvu : u.valueInput = some (vals ++ fromSymbols groups) := by
    refine State.valueInput_eq_some.2 ⟨by simp [hgroups, vl, hvlen], loaded_append ?_ fun i hi => ?_⟩
    · exact fun j hj => (hvals j (vl ▸ hj)).trans (vb j hj)
    · rw [vl, hck i (by simpa [hgroups] using hi), State.entry_congr hmem, State.entry_setOutput s hi]
  have hall : AllSymbols (vals ++ fromSymbols groups) := fun v hv =>
    (List.mem_append.1 hv).elim (ha v) (allSymbols_fromSymbols groups v)
  have hverify : verifyChecksum hrp (symbolsOf (vals ++ fromSymbols groups)) = enc := by
    rw [symbolsOf_append, symbolsOf_fromSymbols]
    exact verifierAcceptsGeneratedChecksum hrp (symbolsOf vals) enc groups (by rw [createChecksum, hk]; rfl)
  have henc : enc ≠ .invalid := by
    rintro rfl
    exact nomatch hk
  have hx := execCkver_found (hhlen ▸ hh256) hv256 hhu hvu hall (hverify ▸ henc)
  exact ⟨_, hx, rfl, hverify⟩

/-! ### LUTENC and LUTDEC (R116) -/

/-- The alphabet has no uppercase letter, and the uppercase form of a character is the same member. -/
theorem lower_of_mem_charset : ∀ c ∈ charset, lower c = c ∧ lower (upper c) = c := by decide

/-- LUTDEC of a character whose lowercase form stands at index `v` of the alphabet (R115). -/
theorem execLutdec_of_charset {ch v : Byte} (h : charset[v.toNat]? = some (lower ch)) (s : State) :
    ∃ u, exec (.lutdec ch) s = .next u ∧ u.err = .ok ∧ u.lutr = v := by
  obtain ⟨_, _, hdec⟩ := lutdecReturnsValue
  refine ⟨_, (hdec ch s).2 v.toNat h, rfl, ?_⟩
  rw [BitVec.ofNat_toNat, BitVec.setWidth_eq]

/-- Settles O45: LUTENC gives the character at the operand's index, which in either case stands at that index. -/
theorem lookupRoundTrip : Obligations.LookupRoundTrip := by
  intro v s hv
  obtain ⟨c, hc, hx⟩ := execLutenc_of_le hv s
  obtain ⟨hlower, hupper⟩ := lower_of_mem_charset c (List.mem_of_getElem? hc)
  exact ⟨_, hx, rfl, execLutdec_of_charset (hc.trans (congrArg some hlower.symm)) _,
    execLutdec_of_charset (hc.trans (congrArg some hupper.symm)) _⟩

end Sys2Proof.Machine
end

section
/-! PROOF. The facade as pure functions (48_host_facade.md sections 2 and 4): what `encode` returns, and what `decode`
makes of an encoded string and of a string in uppercase. -/

namespace Sys2Proof.Machine

/-! ### Letter case (R13) -/

theorem upper_of_not_lower {c : Byte} (h : isLower c = false) : upper c = c := by simp [upper, h]

theorem toNat_upper_of_lower {c : Byte} (h : isLower c = true) : (upper c).toNat = c.toNat - 0x20 := by
  have hc := isLower_iff.1 h
  rw [upper, if_pos h, BitVec.toNat_sub_of_le (BitVec.le_def.2 _)]
  · rfl
  · exact le_trans (by decide) hc.1

@[simp] theorem isLower_upper (c : Byte) : isLower (upper c) = false := by
  cases h : isLower c with
  | false => rw [upper_of_not_lower h, h]
  | true =>
    have hc := isLower_iff.1 h
    rw [← Bool.not_eq_true, isLower_iff, toNat_upper_of_lower h]
    omega

/-- Lowercasing forgets the case. -/
@[simp] theorem lower_upper (c : Byte) : lower (upper c) = lower c := by
  cases h : isLower c with
  | false => rw [upper_of_not_lower h]
  | true =>
    have hc := isLower_iff.1 h
    have hup : isUpper (upper c) = true := by
      rw [isUpper_iff, toNat_upper_of_lower h]
      omega
    rw [lower_eq_self (by omega : 0x5A < c.toNat), lower, if_pos hup, upper, if_pos h, BitVec.sub_add_cancel]

theorem isUpper_lower (c : Byte) : isUpper (lower c) = false := by
  cases h : isUpper c with
  | false => rw [lower, h]; exact h
  | true =>
    have hc := isUpper_iff.1 h
    have hlower : (lower c).toNat = c.toNat + 0x20 := by
      rw [lower, if_pos h, BitVec.toNat_add_of_lt]
      · rfl
      · rw [show (0x20 : Byte).toNat = 0x20 from rfl]
        omega
    rw [← Bool.not_eq_true, isUpper_iff, hlower]
    omega

theorem lower_lower (c : Byte) : lower (lower c) = lower c := by
  rw [lower, isUpper_lower]
  rfl

/-- LUTDEC takes either case. -/
@[simp] theorem indexOf_lower (c : Byte) : indexOf (lower c) = indexOf c := by
  rw [indexOf, indexOf, lower_lower]

theorem printable_upper {c : Byte} (h : 33 ≤ c.toNat ∧ c.toNat ≤ 126) :
    33 ≤ (upper c).toNat ∧ (upper c).toNat ≤ 126 := by
  cases hl : isLower c with
  | false => rwa [upper_of_not_lower hl]
  | true =>
    have hc := isLower_iff.1 hl
    rw [toNat_upper_of_lower hl]
    omega

/-! ### The characters of a body (R206) -/

/-- What the string checks need to know of an alphabet character: it is printable, no uppercase letter, and no `1`. -/
theorem charset_character : ∀ c ∈ charset, (33 ≤ c.toNat ∧ c.toNat ≤ 126) ∧ isUpper c = false ∧ c ≠ separator := by
  decide

theorem indexOf_charAt (v : Symbol) : indexOf (charAt v) = some v := by
  rw [indexOf_eq_some, (lower_of_mem_charset _ (charAt_mem_charset v)).1, charset_getElem?_toNat]

@[simp] theorem lower_bodyCase (hrp : Str) (v : Symbol) : lower (bodyCase hrp (charAt v)) = charAt v := by
  obtain ⟨hlower, hupper⟩ := lower_of_mem_charset _ (charAt_mem_charset v)
  rw [bodyCase]
  split_ifs
  · exact hupper
  · exact hlower

theorem printable_bodyCase (hrp : Str) (v : Symbol) :
    33 ≤ (bodyCase hrp (charAt v)).toNat ∧ (bodyCase hrp (charAt v)).toNat ≤ 126 := by
  obtain ⟨hprint, _, _⟩ := charset_character _ (charAt_mem_charset v)
  rw [bodyCase]
  split_ifs
  · exact printable_upper hprint
  · exact hprint

/-- The body follows the case of an HRP that has one case: the string has one case too. -/
theorem mixedCase_assemble {hrp : Str} (h : mixedCase hrp = false) (body : List Symbol) :
    mixedCase (assemble hrp body) = false := by
  cases hup : hrp.any isUpper with
  | true =>
    have hlow : hrp.any isLower = false := by simpa [mixedCase, hup] using h
    have hsep : isLower separator = false := rfl
    have hstr : (assemble hrp body).any isLower = false := by simp [assemble, hlow, bodyCase, hup, hsep]
    rw [mixedCase, hstr, Bool.and_false]
  | false =>
    have hchar (v : Symbol) : isUpper (charAt v) = false := (charset_character _ (charAt_mem_charset v)).2.1
    have hsep : isUpper separator = false := rfl
    have hstr : (assemble hrp body).any isUpper = false := by simp [assemble, hup, bodyCase, hchar, hsep]
    rw [mixedCase, hstr, Bool.false_and]

/-! ### What `encode` returns (R203) -/

/-- A chain of checks passes when none of them fails. -/
theorem check_eq_none {α : Type} {c : Prop} [Decidable c] {r : α} {x : Option α} :
    (if c then some r else x) = none ↔ ¬ c ∧ x = none := by
  split_ifs <;> simp [*]

section
variable {enc : Variant} {hrp : Str} {payload : List Byte}

theorem encodeCheck_eq_none :
    encodeCheck enc hrp payload = none ↔
      enc ≠ .invalid ∧ hrp.length ≠ 0 ∧ (∀ c ∈ hrp, 33 ≤ c.toNat ∧ c.toNat ≤ 126) ∧ mixedCase hrp = false ∧
        hrp.length + regroupedLength payload.length + 7 ≤ 90 := by
  have hrange : hrp.any outOfRange = true ↔ ¬ ∀ c ∈ hrp, 33 ≤ c.toNat ∧ c.toNat ≤ 126 := by
    simp [← outOfRange_eq_false_iff]
  simp only [encodeCheck, check_eq_none, hrange, not_not, Bool.not_eq_true, Nat.not_lt, and_true, ne_eq]

/-- The checks refuse the variant Invalid alone. -/
theorem encodeCheck_refused : encodeCheck enc hrp payload = some .refused ↔ enc = .invalid := by
  unfold encodeCheck
  split_ifs <;> simp_all

/-- No check gives a string. -/
theorem encodeCheck_ne_encoded (str : Str) : encodeCheck enc hrp payload ≠ some (.encoded str) := by
  unfold encodeCheck
  split_ifs <;> simp

/-- Bytes always regroup to 5-bit values with padding, as many as `regroupedLength` says (R184). -/
theorem regroupBytes (payload : List Byte) :
    ∃ d, convertBits payload 8 5 true = .ok d ∧ d.length = regroupedLength payload.length ∧ AllSymbols d := by
  have hd := convertBits_pad (d := payload) (f := 8) (t := 5) (by decide) (fun v _ => v.isLt) rfl
  obtain ⟨hlen, hlt⟩ := convertBits_pad_output (by decide) hd
  refine ⟨_, hd, ?_, fun v hv => Nat.le_of_lt_succ (hlt v hv)⟩
  rw [hlen, regroupedLength, Nat.mul_comm]

/-- When the checks pass, `encode` gives the string of R203 step 7. -/
theorem facadeEncode_of_check {d : List Byte} (hcheck : encodeCheck enc hrp payload = none)
    (hd : convertBits payload 8 5 true = .ok d) :
    ∃ k, checksumConstant enc = some k ∧
      facadeEncode enc hrp payload = .encoded (assemble hrp (symbolsOf d ++
        checksumGroups (checksumWord k (hrp.map lower) (symbolsOf d)))) := by
  cases hk : checksumConstant enc with
  | none => exact absurd (checksumConstant_eq_none.1 hk) (encodeCheck_eq_none.1 hcheck).1
  | some k => exact ⟨k, rfl, by simp [facadeEncode, hcheck, hd, createChecksum, hk]⟩

theorem facadeEncode_of_check_some {r : EncodeResult} (hcheck : encodeCheck enc hrp payload = some r) :
    facadeEncode enc hrp payload = r := by
  simp only [facadeEncode, hcheck]

/-- An encoded string comes from checks that passed. -/
theorem encodeCheck_of_encoded {str : Str} (h : facadeEncode enc hrp payload = .encoded str) :
    encodeCheck enc hrp payload = none := by
  cases hcheck : encodeCheck enc hrp payload with
  | none => rfl
  | some r =>
    rw [facadeEncode_of_check_some hcheck] at h
    exact absurd (h ▸ hcheck) (encodeCheck_ne_encoded str)

end

theorem assemble_length (hrp : Str) (body : List Symbol) :
    (assemble hrp body).length = hrp.length + 1 + body.length := by
  simp only [assemble, List.length_append, List.length_singleton, List.length_map]

/-- Settles O51: `refused` is the first check's answer, and an encoded string is the HRP, the separator, the regrouped
payload and six groups, whose number the last check bounds. -/
theorem encodedLengthIsBounded : Obligations.EncodedLengthIsBounded := by
  refine fun enc hrp payload => ⟨⟨fun h => ?_, fun h => facadeEncode_of_check_some (encodeCheck_refused.2 h)⟩,
    fun str h => ?_⟩
  · cases hcheck : encodeCheck enc hrp payload with
    | some r =>
      rw [facadeEncode_of_check_some hcheck] at h
      exact encodeCheck_refused.1 (h ▸ hcheck)
    | none =>
      obtain ⟨d, hd, _⟩ := regroupBytes payload
      obtain ⟨_, _, hstr⟩ := facadeEncode_of_check hcheck hd
      rw [hstr] at h
      cases h
  · have hcheck := encodeCheck_of_encoded h
    obtain ⟨d, hd, hlen, _⟩ := regroupBytes payload
    obtain ⟨_, _, hstr⟩ := facadeEncode_of_check hcheck hd
    obtain ⟨_, _, _, _, hmax⟩ := encodeCheck_eq_none.1 hcheck
    obtain rfl := EncodeResult.encoded.inj (hstr.symm.trans h)
    rw [assemble_length, List.length_append, symbolsOf_length, checksumGroups_length, hlen]
    simp only [regroupedLength] at hmax ⊢
    omega

/-! ### What `decode` returns (R210 to R219) -/

theorem decodeCheck_eq_none {str : Str} :
    decodeCheck str = none ↔
      8 ≤ str.length ∧ str.length ≤ 90 ∧ (∀ c ∈ str, 33 ≤ c.toNat ∧ c.toNat ≤ 126) ∧ mixedCase str = false := by
  by_cases hmax : str.length ≤ 90
  · by_cases hmin : 8 ≤ str.length
    · rw [decodeCheck_of_length hmin hmax, Option.or_eq_none_iff, rangeCheck_eq_none_iff]
      simp [hmin, hmax]
    · simp [decodeCheck_tooShort (Nat.not_le.1 hmin), hmin]
  · simp [decodeCheck_tooLong (Nat.not_le.1 hmax), hmax]

/-- The string `str` passes every step of `decode` with these parts: the separator's index, the data values, and what is
returned. -/
structure Decodes (str : Str) (j : Nat) (v : List Symbol) (variant : Variant) (payload : List Byte) : Prop where
  check : decodeCheck str = none
  split : splitIndex str = some j
  values : mapSymbols ((str.map lower).drop (j + 1)) = some v
  checksum : verifyChecksum ((str.map lower).take j) v = variant
  valid : variant ≠ .invalid
  regrouped : convertBits (fromSymbols (v.take (v.length - 6))) 5 8 false = .ok payload

theorem Decodes.facadeDecode_eq {str : Str} {j : Nat} {v : List Symbol} {variant : Variant} {payload : List Byte}
    (h : Decodes str j v variant payload) : facadeDecode str = .decoded variant (str.take j) payload := by
  cases variant with
  | invalid => exact absurd rfl h.valid
  | bech32 | bech32m => simp only [facadeDecode, h.check, h.split, h.values, h.checksum, h.regrouped]

theorem decodes_of_facadeDecode {str : Str} {variant : Variant} {hrp : Str} {payload : List Byte}
    (h : facadeDecode str = .decoded variant hrp payload) :
    ∃ j v, hrp = str.take j ∧ Decodes str j v variant payload := by
  unfold facadeDecode at h
  split at h
  · cases h
  rename_i hcheck
  split at h
  · cases h
  rename_i j hsplit
  split at h
  · cases h
  rename_i v hvalues
  split at h
  · cases h
  rename_i hvalid
  split at h
  · rename_i p hregrouped
    cases h
    exact ⟨j, v, rfl, hcheck, hsplit, hvalues, rfl, hvalid, hregrouped⟩
  · cases h

/-- Settles O53: the steps of `decode` after the checks see the lowercase form alone, and the checks pass for the
uppercase form, which has no lowercase letter. -/
theorem decodingIgnoresCase : Obligations.DecodingIgnoresCase := by
  intro str variant hrp payload h
  obtain ⟨j, v, rfl, hdec⟩ := decodes_of_facadeDecode h
  have hlower : (str.map upper).map lower = str.map lower := by simp
  obtain ⟨hmin, hmax, hprint, _⟩ := decodeCheck_eq_none.1 hdec.check
  have hupper : Decodes (str.map upper) j v variant payload :=
    { check := decodeCheck_eq_none.2 ⟨by simpa using hmin, by simpa using hmax,
        by simpa using fun c hc => printable_upper (hprint c hc), by simp [mixedCase]⟩
      split := by rw [← hdec.split, splitIndex, splitIndex, hlower, List.length_map]
      values := by rw [hlower, hdec.values]
      checksum := by rw [hlower, hdec.checksum]
      valid := hdec.valid
      regrouped := hdec.regrouped }
  rw [hupper.facadeDecode_eq, List.map_take]

/-! ### Decoding an encoded string (R222) -/

theorem lastSeparator_eq_none {s : Str} (h : separator ∉ s) : lastSeparator s = none := by
  induction s with
  | nil => rfl
  | cons c s ih =>
    obtain ⟨hc, hs⟩ := not_or.1 (mt List.mem_cons.2 h)
    simp [lastSeparator, ih hs, Ne.symm hc]

/-- A separator with none behind it is the last one. -/
theorem lastSeparator_append {a b : Str} (hb : separator ∉ b) : lastSeparator (a ++ separator :: b) = some a.length := by
  induction a with
  | nil => simp [lastSeparator, lastSeparator_eq_none hb]
  | cons c a ih => simp [lastSeparator, ih]

theorem mapSymbols_charAt (body : List Symbol) : mapSymbols (body.map charAt) = some body := by
  induction body with
  | nil => rfl
  | cons v body ih => simp [mapSymbols, indexOf_charAt, ih]

/-- The lowercase form of an assembled string. -/
theorem map_lower_assemble (hrp : Str) (body : List Symbol) :
    (assemble hrp body).map lower = hrp.map lower ++ separator :: body.map charAt := by
  have hsep : lower separator = separator := rfl
  simp [assemble, hsep]

theorem splitIndex_assemble {hrp : Str} {body : List Symbol} (hh : hrp.length ≠ 0) (hb : 6 ≤ body.length) :
    splitIndex (assemble hrp body) = some hrp.length := by
  have hno : separator ∉ body.map charAt := by
    intro hmem
    obtain ⟨v, _, hv⟩ := List.mem_map.1 hmem
    exact (charset_character _ (charAt_mem_charset v)).2.2 hv
  have hshort : ¬ (hrp.length = 0 ∨ hrp.length + 1 + body.length - hrp.length - 1 < 6) := by omega
  rw [splitIndex, map_lower_assemble, lastSeparator_append hno, assemble_length, List.length_map]
  exact if_neg hshort

/-- 5-bit values survive the way out of buffer entries and back. -/
theorem fromSymbols_symbolsOf {d : List Byte} (h : AllSymbols d) : fromSymbols (symbolsOf d) = d := by
  rw [fromSymbols, symbolsOf, List.map_map]
  conv_rhs => rw [← List.map_id d]
  refine List.map_congr_left fun v hv => BitVec.eq_of_toNat_eq ?_
  have hle := h v hv
  simp only [Function.comp_apply, id, BitVec.toNat_setWidth]
  omega

/-- Settles O52: each step of `decode` on the assembled string gives back what the same step of `encode` put in. -/
theorem decodeOfEncodedString : Obligations.DecodeOfEncodedString := by
  intro enc hrp payload str h
  have hcheck := encodeCheck_of_encoded h
  obtain ⟨d, hd, hlen, ha⟩ := regroupBytes payload
  obtain ⟨k, hk, hstr⟩ := facadeEncode_of_check hcheck hd
  obtain ⟨henc, hne, hprint, hcase, hmax⟩ := encodeCheck_eq_none.1 hcheck
  obtain rfl := EncodeResult.encoded.inj (hstr.symm.trans h)
  set ck := checksumGroups (checksumWord k (hrp.map lower) (symbolsOf d)) with hck
  have hbody : (symbolsOf d ++ ck).length = regroupedLength payload.length + 6 := by simp [hck, hlen]
  have hverify : verifyChecksum (hrp.map lower) (symbolsOf d ++ ck) = enc :=
    verifierAcceptsGeneratedChecksum _ _ enc ck (by rw [createChecksum, hk]; rfl)
  have hdec : Decodes (assemble hrp (symbolsOf d ++ ck)) hrp.length (symbolsOf d ++ ck) enc payload :=
    { check := by
        refine decodeCheck_eq_none.2 ⟨?_, ?_, fun c hc => ?_, mixedCase_assemble hcase _⟩
        · rw [assemble_length, hbody]
          omega
        · rw [assemble_length, hbody]
          omega
        · simp only [assemble, List.mem_append, List.mem_singleton, List.mem_map] at hc
          rcases hc with (hc | rfl) | ⟨v, _, rfl⟩
          · exact hprint c hc
          · decide
          · exact printable_bodyCase hrp v
      split := splitIndex_assemble hne (by omega)
      values := by
        rw [map_lower_assemble, List.append_cons, List.drop_left' (by simp), mapSymbols_charAt]
      checksum := by rw [map_lower_assemble, ← List.length_map (as := hrp) lower, List.take_left, hverify]
      valid := henc
      regrouped := by
        have htake : (symbolsOf d ++ ck).take ((symbolsOf d ++ ck).length - 6) = symbolsOf d := by
          rw [List.length_append, show ck.length = 6 from rfl, Nat.add_sub_cancel, List.take_left]
        rw [htake, fromSymbols_symbolsOf ha]
        exact regroupingRoundTrip payload d hd }
  rw [hdec.facadeDecode_eq]
  simp [assemble]

end Sys2Proof.Machine
end

section
/-! PROOF. The encode program on the engine (48_host_facade.md R207, R208). A rule for each statement of a host program
says what the block holds after it; the program is their composition. -/

namespace Sys2Proof.Machine

/-! ### What the block holds -/

/-- The first entries of a buffer and its length field hold `vals`. -/
structure SequenceIs (m : Memory) (n : Len) (b : Buf) (vals : List Byte) : Prop where
  short : vals.length ≤ 256
  length : n.toNat = vals.length
  entries : ∀ k < vals.length, m.read (entryAddr b k) = vals[k]?

/-- HLEN and HBUF hold `h` (R34). -/
abbrev Block.HrpIs (x : Block) (h : List Byte) : Prop := SequenceIs x.mem x.hlen .hbuf h

/-- VLEN and VBUF hold `vals` (R35). -/
abbrev Block.ValuesAre (x : Block) (vals : List Byte) : Prop := SequenceIs x.mem x.vlen .vbuf vals

/-- OLEN and OBUF hold `out` (R37). -/
abbrev Block.OutputIs (x : Block) (out : List Byte) : Prop := SequenceIs x.mem x.olen .obuf out

theorem ofNat_length_toNat {vals : List Byte} (h : vals.length ≤ 256) :
    (BitVec.ofNat 9 vals.length : Len).toNat = vals.length := by
  rw [BitVec.toNat_ofNat]
  omega

theorem sequenceIs_writeEntries (m : Memory) (b : Buf) {vals : List Byte} (h : vals.length ≤ 256) :
    SequenceIs (m.writeEntries b 0 vals) (BitVec.ofNat 9 vals.length) b vals where
  short := h
  length := ofNat_length_toNat h
  entries k hk := by
    have hread := Memory.read_writeEntries_same (m := m) (b := b) (i := 0) hk
    rwa [Nat.zero_add] at hread

/-- Filling one buffer keeps the sequence in another. -/
theorem SequenceIs.writeEntries_other {m : Memory} {n : Len} {b b' : Buf} {x y : List Byte} (hx : SequenceIs m n b x)
    (hb : b ≠ b') (hy : y.length ≤ 256) : SequenceIs (m.writeEntries b' 0 y) n b x where
  short := hx.short
  length := hx.length
  entries k hk := by
    have hshort := hx.short
    rw [Memory.read_writeEntries_other fun j hj => ?_, hx.entries k hk]
    rw [Nat.zero_add]
    exact entryAddr_ne (by omega) (by omega) (.inl hb)

/-- A shorter length field leaves the first values. -/
theorem SequenceIs.take {m : Memory} {n : Len} {b : Buf} {x : List Byte} (hx : SequenceIs m n b x) {k : Nat}
    (hk : k ≤ x.length) : SequenceIs m (BitVec.ofNat 9 k) b (x.take k) := by
  have hlen : (x.take k).length = k := List.length_take_of_le hk
  refine ⟨hlen.trans_le (hk.trans hx.short), ?_, fun j hj => ?_⟩
  · have hn := ofNat_length_toNat (hlen.trans_le (hk.trans hx.short))
    rw [hlen] at hn
    rw [hn, hlen]
  · rw [hlen] at hj
    rw [hx.entries j (by omega), List.getElem?_take_of_lt hj]

theorem State.valueInput_of_block {u : State} {vals : List Byte} (h : u.block.ValuesAre vals) :
    u.valueInput = some vals :=
  State.valueInput_eq_some.2 ⟨h.length.symm, h.entries⟩

theorem State.hrpInput_of_block {u : State} {hrp : List Byte} (h : u.block.HrpIs hrp) : u.hrpInput = some hrp :=
  State.hrpInput_eq_some.2 ⟨h.length.symm, h.entries⟩

theorem State.vlen_le_of_block {u : State} {vals : List Byte} (h : u.block.ValuesAre vals) : u.vlen.toNat ≤ 256 :=
  h.length.trans_le h.short

theorem State.hlen_le_of_block {u : State} {hrp : List Byte} (h : u.block.HrpIs hrp) : u.hlen.toNat ≤ 256 :=
  h.length.trans_le h.short

/-- The output of a command is what the block then holds in OBUF. -/
theorem State.outputIs_setOutput (u : State) {out : List Byte} (h : out.length ≤ 256) :
    (u.setOutput out).block.OutputIs out :=
  sequenceIs_writeEntries u.mem .obuf h

/-! ### Running a host program -/

/-- The program runs to its end without a stop and leaves the machine between two statements; its block and value meet
`Q`. -/
def Ends {α : Type} (x : Run α) (Q : Block → α → Prop) : Prop :=
  ∃ s a, x = .next (s, a) ∧ Idle s ∧ Q s.block a

section
variable {α β : Type} {x : Run α} {k : α → State → Run β} {Q : Block → α → Prop} {R : Block → β → Prop} {s : State}

theorem ends_value {a : α} (hs : Idle s) (h : Q s.block a) : Ends (.next (s, a)) Q := ⟨s, a, rfl, hs, h⟩

theorem Ends.andThen (hx : Ends x Q) (hk : ∀ s a, Idle s → Q s.block a → Ends (k a s) R) : Ends (andThen x k) R := by
  obtain ⟨s, a, rfl, hs, hq⟩ := hx
  exact hk s a hs hq

theorem Ends.weaken {Q' : Block → α → Prop} (hx : Ends x Q) (h : ∀ b a, Q b a → Q' b a) : Ends x Q' := by
  obtain ⟨s, a, hx, hs, hq⟩ := hx
  exact ⟨s, a, hx, hs, h _ _ hq⟩

end

/-! ### The statements (30_encoding.md R101, R102) -/

section
variable {s : State} (hs : Idle s)
include hs

/-- `ldvals`. -/
theorem ends_ldvals {vals : List Byte} (hl : vals.length ≤ 256) :
    Ends (performAll (ldvalsOps vals) s) fun b _ => b.ValuesAre vals ∧ ∀ h, s.block.HrpIs h → b.HrpIs h := by
  obtain ⟨t, ht, hidle, hblock⟩ := performAll_ldvalsOps hs hl
  refine ⟨t, (), ht, hidle, ?_⟩
  rw [hblock]
  exact ⟨sequenceIs_writeEntries s.mem .vbuf hl, fun h hh => hh.writeEntries_other (by decide) hl⟩

/-- `ldhrp`. -/
theorem ends_ldhrp {hrp : List Byte} (hl : hrp.length ≤ 256) :
    Ends (performAll (ldhrpOps hrp) s) fun b _ => b.HrpIs hrp ∧ ∀ v, s.block.ValuesAre v → b.ValuesAre v := by
  obtain ⟨t, ht, hidle, hblock⟩ := performAll_ldhrpOps hs hl
  refine ⟨t, (), ht, hidle, ?_⟩
  rw [hblock]
  exact ⟨sequenceIs_writeEntries s.mem .hbuf hl, fun v hv => hv.writeEntries_other (by decide) hl⟩

/-- `rd X -> name` of a register. -/
theorem ends_rdReg (r : Reg) : Ends (rdAt (regOffset r) s) fun b w => b = s.block ∧ w = readReg r s := by
  obtain ⟨t, ht, hidle, hblock⟩ := rdAt_regOffset hs r
  exact ⟨t, _, ht, hidle, hblock, rfl⟩

/-- `rd LUTR -> c`, whose low byte is LUTR. -/
theorem ends_rdLutr : Ends (rdAt (regOffset .lutr) s) fun b w => b = s.block ∧ w.setWidth 8 = s.block.lutr := by
  refine (ends_rdReg hs .lutr).weaken fun b w ⟨hb, hw⟩ => ⟨hb, ?_⟩
  rw [hw, readReg, BitVec.setWidth_setWidth_of_le _ (by decide), BitVec.setWidth_eq]
  rfl

/-- `rdout`. -/
theorem ends_rdout {out : List Byte} (ho : s.block.OutputIs out) :
    Ends (rdout s) fun b r => b = s.block ∧ r = out := by
  have holen : s.olen = BitVec.ofNat 9 out.length :=
    BitVec.eq_of_toNat_eq (ho.length.trans (ofNat_length_toNat ho.short).symm)
  obtain ⟨t, ht, hidle, hblock⟩ := rdout_eq hs ho.short holen ho.entries
  exact ⟨t, out, ht, hidle, hblock, rfl⟩

/-- `issue` of a command, by what the command does from any state with this block. -/
theorem ends_issue {i : Instr} {P : Block → Prop} (hw : i.wellFormed = true)
    (h : ∀ u : State, u.block = s.block → ∃ t, exec i u = .next t ∧ P t.block) :
    Ends (issue i s) fun b _ => P b := by
  obtain ⟨t, ht, hidle, hp⟩ := issue_of_exec hs (decodeOfEncodeIsIdentity i hw) h
  exact ⟨t, (), ht, hidle, hp⟩

theorem ends_convert {f t : BitVec 4} {pad : Bool} {vals out : List Byte}
    (hw : (legalWidth f && legalWidth t) = true) (hv : s.block.ValuesAre vals)
    (hc : convertBits vals f.toNat t.toNat pad = .ok out) (ho : out.length ≤ 256) :
    Ends (issue (.convert f t pad) s) fun b _ => b.err = .ok ∧ b.OutputIs out := by
  refine ends_issue hs hw fun u hu => ?_
  rw [← hu] at hv
  refine ⟨(u.setOutput out).done .ok, ?_, rfl, u.outputIs_setOutput ho⟩
  exact (execConvert_regrouped hw (State.vlen_le_of_block hv) (State.valueInput_of_block hv) hc).trans
    (storeRegrouped_stores ho u)

theorem ends_ckgen {enc : Variant} {k : Acc} {hrp vals : List Byte} (hk : checksumConstant enc = some k)
    (hh : s.block.HrpIs hrp) (hv : s.block.ValuesAre vals) (ha : AllSymbols vals) :
    Ends (issue (.ckgen enc) s) fun b _ =>
      b.OutputIs (fromSymbols (checksumGroups (checksumWord k hrp (symbolsOf vals)))) := by
  have henc : enc ≠ .invalid := fun h => nomatch hk.symm.trans (checksumConstant_eq_none.2 h)
  have hw : (Instr.ckgen enc).wellFormed = true := decide_eq_true henc
  refine ends_issue hs hw fun u hu => ?_
  rw [← hu] at hv hh
  set word := checksumWord k hrp (symbolsOf vals)
  refine ⟨((u.setOutput (fromSymbols (checksumGroups word))).setAcc word).done .ok, ?_,
    u.outputIs_setOutput (by simp)⟩
  exact (execCkgen_of_constant hk u).trans (withChecksumInput_symbols (State.hlen_le_of_block hh)
    (State.vlen_le_of_block hv) hh.length.symm hh.entries hv.length.symm hv.entries ha)

theorem ends_lutenc {v : Byte} (hv : v.toNat ≤ 31) :
    Ends (issue (.lutenc v) s) fun b _ => b.lutr = charAt (v.setWidth 5) :=
  ends_issue hs rfl fun u _ => by
    obtain ⟨_, hlt⟩ | ⟨hx, _⟩ := execLutenc_cases v u
    · omega
    · exact ⟨_, hx, rfl⟩

end

/-- The loop over the body: each value's character in the case of the HRP (R207). -/
theorem ends_encodeBody (hrp : Str) (vals : List Byte) : ∀ {s : State}, Idle s → AllSymbols vals →
    Ends (encodeBody hrp vals s) fun _ body => body = (symbolsOf vals).map fun v => bodyCase hrp (charAt v) := by
  induction vals with
  | nil => exact fun hs _ => ends_value hs rfl
  | cons v vals ih =>
    intro s hs ha
    obtain ⟨hv, hvals⟩ := List.forall_mem_cons.1 ha
    refine (ends_lutenc hs hv).andThen fun s1 _ hs1 hlutr => ?_
    refine (ends_rdLutr hs1).andThen fun s2 c hs2 ⟨_, hc⟩ => ?_
    refine (ih hs2 hvals).andThen fun s3 body hs3 hbody => ends_value hs3 ?_
    rw [hc, hbody, hlutr]
    rfl

/-! ### The program -/

/-- The engine part of `encode` returns the string of R203 step 7. -/
theorem ends_encodeOnEngine {enc : Variant} {hrp : Str} {payload d : List Byte} {k : Acc} {s : State} (hs : Idle s)
    (hk : checksumConstant enc = some k) (hd : convertBits payload 8 5 true = .ok d) (ha : AllSymbols d)
    (hhrp : hrp.length ≤ 256) (hpayload : payload.length ≤ 256) (hdlen : d.length ≤ 256) :
    Ends (encodeOnEngine enc hrp payload s) fun _ str => str = assemble hrp (symbolsOf d ++
      checksumGroups (checksumWord k (hrp.map lower) (symbolsOf d))) := by
  set ck := checksumGroups (checksumWord k (hrp.map lower) (symbolsOf d))
  have hall : AllSymbols (d ++ fromSymbols ck) := fun v hv =>
    (List.mem_append.1 hv).elim (ha v) (allSymbols_fromSymbols ck v)
  unfold encodeOnEngine
  refine (ends_ldvals hs hpayload).andThen fun s1 _ hs1 ⟨hv, _⟩ => ?_
  refine (ends_convert (f := 8) (t := 5) hs1 rfl hv hd hdlen).andThen fun s2 _ hs2 ⟨_, ho⟩ => ?_
  refine (ends_rdout hs2 ho).andThen fun s3 _ hs3 ⟨_, hr⟩ => ?_
  subst hr
  rw [performAll_append]
  refine ((ends_ldvals hs3 hdlen).andThen fun s4 _ hs4 ⟨hv, _⟩ =>
    (ends_ldhrp hs4 (hrp := hrp.map lower) (by simpa using hhrp)).weaken fun b _ hb =>
      (⟨hb.1, hb.2 _ hv⟩ : b.HrpIs _ ∧ b.ValuesAre _)).andThen fun s5 _ hs5 ⟨hh, hv⟩ => ?_
  refine (ends_ckgen hs5 hk hh hv ha).andThen fun s6 _ hs6 ho => ?_
  refine (ends_rdout hs6 ho).andThen fun s7 _ hs7 ⟨_, hr⟩ => ?_
  subst hr
  refine (ends_encodeBody hrp _ hs7 hall).andThen fun s8 body hs8 hbody => ends_value hs8 ?_
  rw [hbody, symbolsOf_append, symbolsOf_fromSymbols]
  rfl

/-- Settles O55: a check that fails is the answer of both; when all pass, the engine part gives the string that `encode`
assembles. -/
theorem encodeProgramComputesEncode : Obligations.EncodeProgramComputesEncode := by
  intro enc hrp payload s hready hhost
  have hs : Idle s := ⟨hready, hhost⟩
  suffices h : Ends (encodeProgram enc hrp payload s) fun _ r => r = facadeEncode enc hrp payload by
    obtain ⟨t, _, ht, ⟨hready', hhost'⟩, rfl⟩ := h
    exact ⟨t, ht, hready', hhost'⟩
  unfold encodeProgram
  cases hcheck : encodeCheck enc hrp payload with
  | some r => exact ends_value hs (facadeEncode_of_check_some hcheck).symm
  | none =>
    obtain ⟨d, hd, hlen, ha⟩ := regroupBytes payload
    obtain ⟨k, hk, hstr⟩ := facadeEncode_of_check hcheck hd
    obtain ⟨_, _, _, _, hmax⟩ := encodeCheck_eq_none.1 hcheck
    have hpayload : payload.length ≤ regroupedLength payload.length := by
      rw [regroupedLength]
      omega
    refine (ends_encodeOnEngine hs hk hd ha (by omega) (by omega) (by omega)).andThen fun t str ht hres =>
      ends_value ht ?_
    rw [hstr, hres]

end Sys2Proof.Machine
end

section
/-! PROOF. The decode program on the engine (48_host_facade.md R220, R221), by the rules of the statements. -/

namespace Sys2Proof.Machine

/-! ### More statements -/

/-- A completed command leaves VLEN and VBUF as they are. -/
theorem exec_keeps_valuesAre {i : Instr} {u t : State} {vals : List Byte} (h : exec i u = .next t)
    (hv : u.block.ValuesAre vals) : t.block.ValuesAre vals := by
  obtain ⟨_, hvlen, _⟩ := exec_keeps_registers h
  refine ⟨hv.short, (congrArg BitVec.toNat hvlen).trans hv.length, fun k hk => ?_⟩
  have hshort := hv.short
  exact (exec_keeps_entry h (b := .vbuf) (by decide) (by omega)).trans (hv.entries k hk)

section
variable {s : State} (hs : Idle s)
include hs

/-- `rd STATUS -> s`: the code and the variant (R25). -/
theorem ends_rdStatus :
    Ends (rdStatus s) fun b w =>
      b = s.block ∧ errBits w = s.block.err.code ∧ variantBits w = s.block.variant.code := by
  refine (ends_rdReg hs .status).weaken fun b w ⟨hb, hw⟩ => ⟨hb, ?_⟩
  rw [hw]
  exact ⟨errBits_statusWord s, variantBits_statusWord s⟩

/-- `wr VLEN, n` with a shorter length: VBUF holds the first `n` values. -/
theorem ends_wrVlen {vals : List Byte} {n : Nat} (hv : s.block.ValuesAre vals) (hn : n ≤ vals.length) :
    Ends (performAll [wrReg .vlen (BitVec.ofNat 32 n)] s) fun b _ => b.ValuesAre (vals.take n) := by
  obtain ⟨t, ht, hidle, hblock⟩ := perform_wrVlen hs (BitVec.ofNat 32 n)
  refine ⟨t, (), by simp only [performAll, ht, andThen_next], hidle, ?_⟩
  rw [hblock, setWidth_ofNat_len n (hn.trans hv.short)]
  exact hv.take hn

theorem ends_lutdec (c : Byte) :
    Ends (issue (.lutdec c) s) fun b _ =>
      (indexOf c = none ∧ b.err = .invalidCharacter) ∨
        ∃ r, indexOf c = some r ∧ b.err = .ok ∧ b.lutr = r.setWidth 8 :=
  ends_issue hs rfl fun u _ => by
    obtain ⟨hx, hc⟩ | ⟨r, hx, hc⟩ := execLutdec_cases c u
    · exact ⟨_, hx, .inl ⟨hc, rfl⟩⟩
    · exact ⟨_, hx, .inr ⟨r, hc, rfl, rfl⟩⟩

/-- CKVER reports what `verifyChecksum` says and keeps the values (R160). -/
theorem ends_ckver {hrp vals : List Byte} (hh : s.block.HrpIs hrp) (hv : s.block.ValuesAre vals)
    (ha : AllSymbols vals) :
    Ends (issue .ckver s) fun b _ => b.ValuesAre vals ∧
      ((verifyChecksum hrp (symbolsOf vals) = .invalid ∧ b.err = .checksumMismatch) ∨
        (verifyChecksum hrp (symbolsOf vals) ≠ .invalid ∧ b.err = .ok ∧
          b.variant = verifyChecksum hrp (symbolsOf vals))) := by
  refine ends_issue hs rfl fun u hu => ?_
  rw [← hu] at hh hv
  by_cases hfound : verifyChecksum hrp (symbolsOf vals) = .invalid
  · obtain ⟨w, hx⟩ := execCkver_mismatch (State.hlen_le_of_block hh) (State.vlen_le_of_block hv)
      (State.hrpInput_of_block hh) (State.valueInput_of_block hv) ha hfound
    exact ⟨_, hx, exec_keeps_valuesAre (i := .ckver) hx hv, .inl ⟨hfound, rfl⟩⟩
  · have hx := execCkver_found (State.hlen_le_of_block hh) (State.vlen_le_of_block hv)
      (State.hrpInput_of_block hh) (State.valueInput_of_block hv) ha hfound
    exact ⟨_, hx, exec_keeps_valuesAre (i := .ckver) hx hv, .inr ⟨hfound, rfl, rfl⟩⟩

theorem ends_convert_invalidPadding {f t : BitVec 4} {pad : Bool} {vals : List Byte}
    (hw : (legalWidth f && legalWidth t) = true) (hv : s.block.ValuesAre vals)
    (hc : convertBits vals f.toNat t.toNat pad = .invalidPadding) :
    Ends (issue (.convert f t pad) s) fun b _ => b.err = .invalidPadding := by
  refine ends_issue hs hw fun u hu => ?_
  rw [← hu] at hv
  exact ⟨u.done .invalidPadding,
    execConvert_invalidPadding hw (State.vlen_le_of_block hv) (State.valueInput_of_block hv) hc, rfl⟩

end

/-! ### The data characters (R216, R220) -/

theorem mapSymbols_map_lower (chars : Str) : mapSymbols (chars.map lower) = mapSymbols chars := by
  induction chars with
  | nil => rfl
  | cons c chars ih => simp only [List.map_cons, mapSymbols, indexOf_lower, ih]

theorem mapSymbols_length {chars : Str} {v : List Symbol} (h : mapSymbols chars = some v) :
    v.length = chars.length := by
  induction chars generalizing v with
  | nil => cases h; rfl
  | cons c chars ih =>
    simp only [mapSymbols] at h
    split at h
    · rename_i hrest
      cases h
      rw [List.length_cons, List.length_cons, ih hrest]
    · cases h

/-- The loop over the data characters answers what `mapSymbols` does: the first character outside the alphabet ends
it. -/
theorem ends_decodeChars (chars : Str) : ∀ {s : State}, Idle s →
    Ends (decodeChars chars s) fun _ r => r = (mapSymbols chars).map fromSymbols := by
  induction chars with
  | nil => exact fun hs => ends_value hs rfl
  | cons c chars ih =>
    intro s hs
    refine (ends_lutdec hs c).andThen fun s1 _ hs1 hlut => ?_
    refine (ends_rdStatus hs1).andThen fun s2 st hs2 ⟨hblock, herr, _⟩ => ?_
    obtain ⟨hc, he⟩ | ⟨r, hc, he, hlutr⟩ := hlut
    · rw [herr, he, if_pos rfl]
      refine ends_value hs2 ?_
      simp only [mapSymbols, hc]
      rfl
    · rw [herr, he, if_neg (by decide)]
      refine (ends_rdLutr hs2).andThen fun s3 x hs3 ⟨_, hx⟩ => ?_
      refine (ih hs3).andThen fun s4 vs hs4 hvs => ends_value hs4 ?_
      rw [hvs, hx, hblock, hlutr]
      simp only [mapSymbols, hc]
      cases mapSymbols chars <;> rfl

/-! ### The rest of the program -/

section
variable {str : Str} {j : Nat} {v : List Symbol} (hcheck : decodeCheck str = none)
  (hsplit : splitIndex str = some j) (hvalues : mapSymbols ((str.map lower).drop (j + 1)) = some v)
include hcheck hsplit hvalues

theorem facadeDecode_checksumMismatch (hverify : verifyChecksum ((str.map lower).take j) v = .invalid) :
    facadeDecode str = .error .checksumMismatch := by
  simp only [facadeDecode, hcheck, hsplit, hvalues, hverify]

theorem facadeDecode_invalidPadding (hverify : verifyChecksum ((str.map lower).take j) v ≠ .invalid)
    (hc : convertBits (fromSymbols (v.take (v.length - 6))) 5 8 false = .invalidPadding) :
    facadeDecode str = .error .invalidPadding := by
  cases hfound : verifyChecksum ((str.map lower).take j) v with
  | invalid => exact absurd hfound hverify
  | bech32 | bech32m => simp only [facadeDecode, hcheck, hsplit, hvalues, hfound, hc]

/-- The second half of the program takes the branch that `decode` takes. -/
theorem ends_decodeTail {s : State} (hs : Idle s) :
    Ends (decodeTail str j (fromSymbols v) s) fun _ r => r = facadeDecode str := by
  obtain ⟨_, hmax, _⟩ := decodeCheck_eq_none.1 hcheck
  have hvlen : v.length ≤ 90 := by
    have hlen := mapSymbols_length hvalues
    rw [List.length_drop, List.length_map] at hlen
    omega
  have htake : (fromSymbols v).take ((fromSymbols v).length - 6) = fromSymbols (v.take (v.length - 6)) := by
    rw [fromSymbols_length, fromSymbols, fromSymbols, List.map_take]
  unfold decodeTail
  rw [performAll_append, List.map_take]
  refine ((ends_ldhrp hs (hrp := (str.map lower).take j) (by simp; omega)).andThen fun s1 _ hs1 ⟨hh, _⟩ =>
    (ends_ldvals hs1 (vals := fromSymbols v) (by simp; omega)).weaken fun b _ hb =>
      (⟨hb.2 _ hh, hb.1⟩ : b.HrpIs _ ∧ b.ValuesAre _)).andThen fun s2 _ hs2 ⟨hh, hv⟩ => ?_
  refine (ends_ckver hs2 hh hv (allSymbols_fromSymbols v)).andThen fun s3 _ hs3 ⟨hv3, hver⟩ => ?_
  rw [symbolsOf_fromSymbols] at hver
  refine (ends_rdStatus hs3).andThen fun s4 st hs4 ⟨hblock4, herr, hvariant⟩ => ?_
  obtain ⟨hverify, he⟩ | ⟨hverify, he, hfound⟩ := hver
  · rw [herr, he, if_pos rfl]
    exact ends_value hs4 (facadeDecode_checksumMismatch hcheck hsplit hvalues hverify).symm
  rw [herr, he, if_neg (by decide)]
  refine (ends_wrVlen hs4 (hblock4 ▸ hv3) (Nat.sub_le _ 6)).andThen fun s5 _ hs5 hv5 => ?_
  rw [htake] at hv5
  obtain ⟨p, hc, hp⟩ | hc := regroupSymbols (v.take (v.length - 6))
  · have hplen : p.length ≤ 256 := by
      rw [hp, List.length_take]
      omega
    refine (ends_convert (f := 5) (t := 8) hs5 rfl hv5 hc hplen).andThen fun s6 _ hs6 ⟨he6, ho⟩ => ?_
    refine (ends_rdStatus hs6).andThen fun s7 st2 hs7 ⟨hblock7, herr2, _⟩ => ?_
    rw [herr2, he6, if_neg (by decide)]
    refine (ends_rdout hs7 (hblock7 ▸ ho)).andThen fun s8 r hs8 ⟨_, hr⟩ => ends_value hs8 ?_
    rw [hr, hvariant, variantOfCode_code, hfound]
    exact (Decodes.facadeDecode_eq ⟨hcheck, hsplit, hvalues, rfl, hverify, hc⟩).symm
  · refine (ends_convert_invalidPadding (f := 5) (t := 8) hs5 rfl hv5 hc).andThen fun s6 _ hs6 he6 => ?_
    refine (ends_rdStatus hs6).andThen fun s7 st2 hs7 ⟨_, herr2, _⟩ => ?_
    rw [herr2, he6, if_pos rfl]
    exact ends_value hs7 (facadeDecode_invalidPadding hcheck hsplit hvalues hverify hc).symm

end

theorem facadeDecode_missingSeparator {str : Str} (hcheck : decodeCheck str = none) (hsplit : splitIndex str = none) :
    facadeDecode str = .error .missingSeparator := by
  simp only [facadeDecode, hcheck, hsplit]

theorem facadeDecode_invalidCharacter {str : Str} {j : Nat} (hcheck : decodeCheck str = none)
    (hsplit : splitIndex str = some j) (hvalues : mapSymbols ((str.map lower).drop (j + 1)) = none) :
    facadeDecode str = .error .invalidCharacter := by
  simp only [facadeDecode, hcheck, hsplit, hvalues]

/-- Settles O56: the checks and the split run in the host as in `decode`; the loop over the characters answers
`mapSymbols`, and the second half follows `decode`'s branches. -/
theorem decodeProgramComputesDecode : Obligations.DecodeProgramComputesDecode := by
  intro str s hready hhost
  have hs : Idle s := ⟨hready, hhost⟩
  suffices h : Ends (decodeProgram str s) fun _ r => r = facadeDecode str by
    obtain ⟨t, _, ht, ⟨hready', hhost'⟩, rfl⟩ := h
    exact ⟨t, ht, hready', hhost'⟩
  unfold decodeProgram
  cases hcheck : decodeCheck str with
  | some kind => exact ends_value hs (facadeDecode_of_decodeCheck hcheck).symm
  | none =>
    cases hsplit : splitIndex str with
    | none => exact ends_value hs (facadeDecode_missingSeparator hcheck hsplit).symm
    | some j =>
      have hlower : mapSymbols ((str.map lower).drop (j + 1)) = mapSymbols (str.drop (j + 1)) := by
        rw [← List.map_drop, mapSymbols_map_lower]
      refine (ends_decodeChars _ hs).andThen fun s1 found hs1 hfound => ?_
      cases hvalues : mapSymbols (str.drop (j + 1)) with
      | none =>
        rw [hfound, hvalues]
        exact ends_value hs1 (facadeDecode_invalidCharacter hcheck hsplit (hlower.trans hvalues)).symm
      | some v =>
        rw [hfound, hvalues]
        exact ends_decodeTail hcheck hsplit (hlower.trans hvalues) hs1

end Sys2Proof.Machine
end
